-- ==== Sys2Proof/Word.lean ====
section
/-! DEFINITION. The word types of the block and nothing more: command and register words, bytes, bit sequences. -/

namespace Sys2Proof

/-- A command word or a 32-bit register half (00_scope.md R5, `CMD_W` = 32). -/
abbrev Word := BitVec 32

/-- A byte of the source or of the sink (20_memory.md R70). -/
abbrev Byte := BitVec 8

/-- A bit sequence ⟨b0, b1, …⟩, oldest (first) bit first (00_scope.md R10). -/
abbrev Bits := List Bool

end Sys2Proof
end

