-- ==== Sys2Proof/Machine/Bits.lean ====
section
/-! DEFINITION. Bit sequences and their two conversions to numbers (00_scope.md R10, R11), and the bit stream of a byte
sequence (20_memory.md R77). -/

namespace Sys2Proof.Machine

/-- `lsbSeq(v, n)`: the `n`-bit field of `v`, least significant bit first (R11). -/
def lsbSeq (v n : Nat) : Bits := (List.range n).map v.testBit

/-- `msbSeq(c, l)`: the `l`-bit code `c`, most significant bit first (R11). -/
def msbSeq (c l : Nat) : Bits := (lsbSeq c l).reverse

/-- `lsbVal(q)` = Σ q[i]·2^i (R11). -/
def lsbVal : Bits → Nat
  | [] => 0
  | b :: q => b.toNat + 2 * lsbVal q

/-- `msbVal(q)`, the inverse of `msbSeq` (R11). -/
def msbVal (q : Bits) : Nat := lsbVal q.reverse

/-- The eight bits a byte contributes to a stream, least significant first (20_memory.md R71). -/
def byteBits (b : Byte) : Bits := lsbSeq b.toNat 8

/-- The bit stream of a byte sequence (20_memory.md R77). -/
def streamBits (bs : List Byte) : Bits := bs.flatMap byteBits

/-- The byte formed from pending bits, oldest in bit 0, zeros above (20_memory.md R71, R97). -/
def byteOf (q : Bits) : Byte := BitVec.ofNat 8 (lsbVal q)

end Sys2Proof.Machine
end

