-- ==== Sys2Proof/Config.lean ====
section
/-! DEFINITION. What is fixed for the machine (the parameters of 00_scope.md R5, the symbol constants of 10_state.md R34)
and the free values (what the spec leaves unspecified: opaque constants without a body, so that nothing can be proved of
their values). -/

namespace Sys2Proof.Config

/-! ### Parameters (00_scope.md R5) -/

/-- `ALPHA`: the alphabet has 259 symbols, ids 0..258. -/
abbrev ALPHA : Nat := 259
/-- `SYM_W`: every symbol id, count and length-count field of the stream is 9 bits wide. -/
abbrev SYM_W : Nat := 9
/-- `FILENAME_END` (10_state.md R34). -/
abbrev FILENAME_END : BitVec 9 := 256
/-- `ONE_MORE_FILE` (10_state.md R34). -/
abbrev ONE_MORE_FILE : BitVec 9 := 257
/-- `ARCHIVE_END` (10_state.md R34). -/
abbrev ARCHIVE_END : BitVec 9 := 258
/-- `LA`: the reader refills while fewer than 50 bits are buffered (R6, decision D15). -/
abbrev LA : Nat := 50
/-- `RBUF_CAP`: the reader buffer never holds more than 57 bits (20_memory.md R81). -/
abbrev RBUF_CAP : Nat := 57
/-- `MAX_CODE_LEN`: the longest code length DHDR accepts (R8, decision D14). -/
abbrev MAX_CODE_LEN : Nat := 50
/-- `BUILD_MAX_LEN`: the longest code length BUILD can produce (43_coder.md R224). -/
abbrev BUILD_MAX_LEN : Nat := 45
/-- `PAD_THRESHOLD`: at most 8 remaining bits count as padding (20_memory.md R87). -/
abbrev PAD_THRESHOLD : Nat := 8
/-- `RAW_N_MAX`: the widest raw field a command moves (decision D21). -/
abbrev RAW_N_MAX : Nat := 9
/-- `WBUF_CAP`: the writer buffer inside a command (20_memory.md R98). -/
abbrev WBUF_CAP : Nat := 57
/-- The most bits pending in the writer between commands (20_memory.md R98). -/
abbrev WPEND_MAX : Nat := 7
/-- The largest value of one count and of their sum, 2^32 − 1 (R7, `CNT_W` = 32). -/
abbrev COUNT_MAX : Nat := 4294967295

/-! ### Free values (93_implementation_defined.md U1, U2)

After an error every element but `ERR` and `ERRF` is unspecified until reset (10_state.md R55, 60_exceptions.md R303
item 5). Each is one of these constants applied to the state's counter `free`; none has a body. Log entries 3, 4, 5. -/

/-- What `HIST` holds after an error. -/
opaque freeHist : Nat → Vector (BitVec 32) 259
/-- What `TV` holds after an error. -/
opaque freeTv : Nat → Bool
/-- What `T.K` holds after an error. -/
opaque freeK : Nat → BitVec 9
/-- What `T.ORDER` holds after an error. -/
opaque freeOrder : Nat → Vector (BitVec 9) 259
/-- What `T.LCNT` holds after an error. -/
opaque freeLcnt : Nat → Vector (BitVec 9) 50
/-- What `T.MAXLEN` holds after an error. -/
opaque freeMaxlen : Nat → BitVec 6
/-- What `RBUF` holds after an error (cut to its 57 bits where it is used). -/
opaque freeRbuf : Nat → List Bool
/-- What `REOF` holds after an error. -/
opaque freeReof : Nat → Bool
/-- What `WBUF` holds after an error (cut to its 7 bits where it is used). -/
opaque freeWbuf : Nat → List Bool
/-- What `RES` holds after an error. -/
opaque freeRes : Nat → BitVec 64
/-- What `LAST` holds after an error. -/
opaque freeLast : Nat → BitVec 9
/-- What `LASTV` holds after an error. -/
opaque freeLastv : Nat → Bool
/-- What a read of `STATUS` (but for its bit `ERRF`), `RES_LO` or `RES_HI` answers while halted (R40, R304). -/
opaque freeRead : Nat → BitVec 32

end Sys2Proof.Config
end

