-- ==== Sys2Proof/Machine/State.lean ====
section
/-! DEFINITION. The state of the block (10_state.md R31), the host's side a step reads or writes (00_scope.md R16), the
reset state (R51), and the reasons a step can stop. -/

namespace Sys2Proof.Machine

/-- `T`, the one code table of the block (10_state.md R36). -/
structure CodeTable where
  /-- `T.K`, the number of present symbols -/
  k : BitVec 9
  /-- `T.ORDER[0..258]`, the canonical order -/
  order : Vector (BitVec 9) 259
  /-- `T.LCNT[1..50]`; the count for length `l` stands at position `l - 1` ("index 0 unused") -/
  lcnt : Vector (BitVec 9) 50
  /-- `T.MAXLEN`, the largest code length present -/
  maxlen : BitVec 6
  deriving DecidableEq, Repr

/-- What the host can do to the block between two commands (10_state.md R30, R46; 70_reset_and_hazards.md R340, R342).
`bytes` is the width of a register access. -/
inductive HostEvent where
  /-- a register write of `bytes` bytes at byte offset `offset`; at `CMD` it issues the command `data` -/
  | write (offset bytes : Nat) (data : Word)
  /-- a register read of `bytes` bytes at byte offset `offset` -/
  | read (offset bytes : Nat)
  /-- the `RESET` input takes this level -/
  | drive (level : Bool)
  /-- the host presents a new source -/
  | attachSource (bs : List Byte)
  /-- the host presents a new, empty sink -/
  | attachSink
  deriving DecidableEq, Repr

/-- The machine's state: the tuple of 10_state.md R31 in its order, then the host's side, then the model's own fields. -/
structure State where
  /-- `HIST[0..258]` (R32) -/
  hist : Vector (BitVec 32) 259
  /-- `TV` (R35) -/
  tv : Bool
  /-- `T` (R36) -/
  t : CodeTable
  /-- `RBUF`, unread bits, oldest first (R39) -/
  rbuf : List Bool
  /-- `REOF` (R39) -/
  reof : Bool
  /-- `WBUF`, bits pending output, oldest first (R44) -/
  wbuf : List Bool
  /-- `RES` (R41) -/
  res : BitVec 64
  /-- `ERR` (R42) -/
  err : BitVec 8
  /-- `ERRF` (R42); 1 iff the block is halted -/
  errf : Bool
  /-- `LAST` (R43) -/
  last : BitVec 9
  /-- `LASTV` (R43) -/
  lastv : Bool
  /-- the source's bytes not yet pulled (20_memory.md R72) -/
  source : List Byte
  /-- the bytes emitted so far, oldest first (20_memory.md R75) -/
  sink : List Byte
  /-- the level of the `RESET` input (70_reset_and_hazards.md R340) -/
  resetIn : Bool
  /-- what the host does next, oldest first (00_scope.md R16; log entry 1) -/
  host : List HostEvent
  /-- what the last register read answered (log entry 11) -/
  rdata : BitVec 32
  /-- how many free values have been drawn; the model's own (log entry 3) -/
  free : Nat
  deriving DecidableEq, Repr

/-- Reasons for which the machine stops with a fault: none. Every error of the block is a next state, the sticky halted
state of 60_exceptions.md R303; nobody raises a fault (log entry 13). -/
inductive Fault where
  deriving DecidableEq, Repr

/-- Reasons for which a step has no meaning. All but the first are accesses the spec itself leaves outside. -/
inductive Refusal where
  /-- an instruction without a meaning; no arm of `exec` raises it in this model; safe -/
  | notModelled (mnemonic : String)
  /-- a narrow or misaligned register access (93_implementation_defined.md U8), raised by the host port; safe -/
  | narrowOrMisalignedAccess
  /-- a register access at an offset the register map of 10_state.md R46 does not have, raised by the host port; safe -/
  | outsideRegisterMap
  /-- a command or register access while `RESET` is asserted (93_implementation_defined.md U9), raised by the host port; safe -/
  | accessDuringReset
  deriving DecidableEq, Repr

/-- The table right after reset (10_state.md R51). -/
def CodeTable.reset : CodeTable :=
  { k := 0, order := Vector.replicate 259 0, lcnt := Vector.replicate 50 0, maxlen := 0 }

/-- The machine right after reset (10_state.md R51), with no host event pending, nothing to pull and nothing emitted. -/
def State.reset : State :=
  { hist := Vector.replicate 259 0
    tv := false
    t := CodeTable.reset
    rbuf := []
    reof := false
    wbuf := []
    res := 0
    err := 0
    errf := false
    last := 0
    lastv := false
    source := []
    sink := []
    resetIn := false
    host := []
    rdata := 0
    free := 0 }

end Sys2Proof.Machine
end

