-- ==== Sys2Proof/Machine/Canon.lean ====
section
/-! DEFINITION. `canon(T)`, the canonical code assignment (43_coder.md R228), the per-symbol functions of a table
(10_state.md R38), and the table's header in the stream (30_encoding.md R140, R141). -/

namespace Sys2Proof.Machine

/-- What `canon(T)` gives one present symbol. -/
structure CodeEntry where
  sym : BitVec 9
  len : Nat
  code : Nat
  deriving DecidableEq, Repr

/-- `T.LCNT[l]`, l in 1..50; 0 for any other length. -/
def CodeTable.lcntAt (t : CodeTable) (l : Nat) : Nat := if l = 0 then 0 else (t.lcnt[l - 1]?.getD 0).toNat

/-- `T.ORDER[0..K−1]`. -/
def CodeTable.symbols (t : CodeTable) : List (BitVec 9) := t.order.toList.take t.k.toNat

/-- The lengths of the symbols by position in `T.ORDER`: `T.LCNT[1]` times 1, then `T.LCNT[2]` times 2, and so on to
`T.MAXLEN` (R228). -/
def CodeTable.lengths (t : CodeTable) : List Nat :=
  (List.range t.maxlen.toNat).flatMap fun j => List.replicate (t.lcntAt (j + 1)) (j + 1)

/-- The code after `prev` (its value and length) for a symbol of length `l`: the counter of R228. -/
def nextCode (prev : Option (Nat × Nat)) (l : Nat) : Nat :=
  match prev with
  | none => 0
  | some (c, p) => (c + 1) <<< (l - p)

/-- The loop of `canon`: a symbol after the other, each with its length; `none` is `F_OVERSUBSCRIBED`. -/
def assignCodes : Option (Nat × Nat) → List (BitVec 9 × Nat) → Option (List CodeEntry)
  | _, [] => some []
  | prev, (x, l) :: rest =>
    if 2 ^ l ≤ nextCode prev l then none
    else (assignCodes (some (nextCode prev l, l)) rest).map fun es => ⟨x, l, nextCode prev l⟩ :: es

/-- `canon(T)` (R228); `none` is the failure `F_OVERSUBSCRIBED`. A table of one symbol has the empty code. -/
def CodeTable.canon (t : CodeTable) : Option (List CodeEntry) :=
  if t.k = 1 then some [⟨t.order[0], 0, 0⟩] else assignCodes none (t.order.toList.zip t.lengths)

/-- The entries of a table whose `canon` does not fail. -/
def CodeTable.entries (t : CodeTable) : List CodeEntry := t.canon.getD []

/-- `PRESENT(x)` (10_state.md R38). -/
def CodeTable.isPresent (t : CodeTable) (x : BitVec 9) : Bool := t.symbols.contains x

/-- The entry of a symbol. -/
def CodeTable.entryOf (t : CodeTable) (x : BitVec 9) : CodeEntry :=
  (t.entries.find? fun e => e.sym == x).getD ⟨x, 0, 0⟩

/-- `LEN(x)` (10_state.md R38). -/
def CodeTable.len (t : CodeTable) (x : BitVec 9) : Nat := (t.entryOf x).len

/-- `CODE(x)` (10_state.md R38). -/
def CodeTable.code (t : CodeTable) (x : BitVec 9) : Nat := (t.entryOf x).code

/-- The bits that transmit a symbol, first the most significant (30_encoding.md R141). -/
def CodeTable.codeBits (t : CodeTable) (x : BitVec 9) : Bits := msbSeq (t.code x) (t.len x)

/-- The 9-bit fields of the code-table header: `T.K`, the symbols in order, the length counts 1..`T.MAXLEN` (R140). -/
def CodeTable.headerFields (t : CodeTable) : List Nat :=
  t.k.toNat :: (t.symbols.map BitVec.toNat ++ (List.range t.maxlen.toNat).map fun j => t.lcntAt (j + 1))

/-- `header(T)`, the bits of the header (R140). -/
def CodeTable.header (t : CodeTable) : Bits := t.headerFields.flatMap fun f => lsbSeq f 9

/-- One encoding unit: the header, the name and `FILENAME_END`, the content and its terminator (R142). -/
def CodeTable.unitBits (t : CodeTable) (name content : List Byte) (term : BitVec 9) : Bits :=
  t.header ++ (name.map fun b => b.setWidth 9).flatMap t.codeBits ++ t.codeBits Config.FILENAME_END
    ++ (content.map fun b => b.setWidth 9).flatMap t.codeBits ++ t.codeBits term

/-- The zero bits that complete the last byte of an archive (R143, R147). -/
def padding (q : Bits) : Bits := List.replicate ((8 - q.length % 8) % 8) false

/-- An archive: its units one after another, then the padding (R143). -/
def archiveBits (units : List Bits) : Bits := units.flatten ++ padding units.flatten

end Sys2Proof.Machine
end

