-- ==== Sys2Proof/Machine/Huffman.lean ====
section
/-! DEFINITION. The histogram and the construction of code lengths and of the table BUILD commits (43_coder.md R220 to R227). -/

namespace Sys2Proof.Machine

/-! ### The histogram -/

/-- `HIST[x]` for a symbol id `x`; ids outside 0..258 name no symbol and count 0. -/
def countOf (h : Vector (BitVec 32) 259) (x : Nat) : Nat := (h[x]?.getD 0).toNat

/-- `TOTAL` = Σ HIST (10_state.md R33). -/
def total (h : Vector (BitVec 32) 259) : Nat := (h.toList.map BitVec.toNat).sum

/-- `HIST[x] <- c`; nothing for an id that names no symbol. -/
def setCount (h : Vector (BitVec 32) 259) (x : Nat) (c : BitVec 32) : Vector (BitVec 32) 259 := h.setIfInBounds x c

/-- The present set `P`, in ascending order (R220). -/
def present (h : Vector (BitVec 32) 259) : List Nat := (List.range Config.ALPHA).filter fun x => countOf h x ≠ 0

/-! ### The tree (R223) -/

/-- A Huffman tree: leaves hold exactly one symbol. -/
inductive HTree where
  | leaf (sym : Nat)
  | node (a b : HTree)
  deriving DecidableEq, Repr

/-- A node of the queue `Q`: its weight, its sequence number and the tree under it. -/
structure QNode where
  w : Nat
  seq : Nat
  tree : HTree
  deriving DecidableEq, Repr

/-- The order of extraction: the least (w, seq), compared lexicographically. -/
def QNode.le (a b : QNode) : Bool := decide (a.w < b.w) || (decide (a.w = b.w) && decide (a.seq ≤ b.seq))

/-- Put a node into a queue kept in ascending (w, seq) order, so that the node to extract stands first. -/
def enqueue (x : QNode) : List QNode → List QNode
  | [] => [x]
  | y :: q => if x.le y then x :: y :: q else y :: enqueue x q

/-- `leaf(s)` with w = HIST[s], seq = s. -/
def leafNode (h : Vector (BitVec 32) 259) (x : Nat) : QNode := ⟨countOf h x, x, .leaf x⟩

/-- The queue before the first merge. -/
def leafQueue (h : Vector (BitVec 32) 259) : List QNode := (present h).foldr (fun x q => enqueue (leafNode h x) q) []

/-- `node(a, b)`, the `j`-th internal node. -/
def mergeNode (j : Nat) (a b : QNode) : QNode := ⟨a.w + b.w, Config.ALPHA + j, .node a.tree b.tree⟩

/-- The merging loop: at most `fuel` merges, the next one being number `j`. It ends with one node left. -/
def mergeLoop : Nat → Nat → List QNode → List QNode
  | 0, _, q => q
  | _ + 1, _, [] => []
  | _ + 1, _, [a] => [a]
  | fuel + 1, j, a :: b :: q => mergeLoop fuel (j + 1) (enqueue (mergeNode j a b) q)

/-- The nodes left after |P| − 1 merges: the root alone, if any symbol is present. -/
def rootQueue (h : Vector (BitVec 32) 259) : List QNode := mergeLoop (present h).length 0 (leafQueue h)

/-! ### Code lengths and the canonical order (R225, R226) -/

/-- A present symbol and its code length. -/
structure SymLen where
  len : Nat
  sym : Nat
  deriving DecidableEq, Repr

/-- The depth of every leaf, the root of this tree standing at depth `d` (R225). -/
def HTree.depths : HTree → Nat → List SymLen
  | .leaf x, d => [⟨d, x⟩]
  | .node a b, d => a.depths (d + 1) ++ b.depths (d + 1)

/-- The code length of every present symbol (R222, R225); a single leaf has length 0. -/
def codeLengths (h : Vector (BitVec 32) 259) : List SymLen := (rootQueue h).flatMap fun n => n.tree.depths 0

/-- By length ascending, then by symbol id ascending (R226). -/
def SymLen.le (a b : SymLen) : Bool := decide (a.len < b.len) || (decide (a.len = b.len) && decide (a.sym ≤ b.sym))

/-- Put a symbol into a list in canonical order. -/
def insertCanonical (x : SymLen) : List SymLen → List SymLen
  | [] => [x]
  | y :: l => if x.le y then x :: y :: l else y :: insertCanonical x l

/-- The canonical order of symbols with their lengths (R226). -/
def canonicalOrder (l : List SymLen) : List SymLen := l.foldr insertCanonical []

/-! ### The committed table (R227) -/

/-- The list's elements in the first entries of a register file, zeros in the others. -/
def fillFile (n : Nat) (l : List (BitVec 9)) : Vector (BitVec 9) n := Vector.ofFn fun i : Fin n => l[i.val]?.getD 0

/-- The largest length of a list, 0 for an empty one. -/
def maxLength (l : List SymLen) : Nat := l.foldr (fun x m => max x.len m) 0

/-- How many symbols have length `l`. -/
def lengthCount (ord : List SymLen) (l : Nat) : Nat := (ord.filter fun x => x.len == l).length

/-- The table of a canonical order (R227). -/
def tableOf (ord : List SymLen) : CodeTable :=
  { k := BitVec.ofNat 9 ord.length
    order := fillFile 259 (ord.map fun x => BitVec.ofNat 9 x.sym)
    lcnt := Vector.ofFn fun i : Fin 50 => BitVec.ofNat 9 (lengthCount ord (i.val + 1))
    maxlen := BitVec.ofNat 6 (maxLength ord) }

/-- The table BUILD commits for a histogram (R213). -/
def buildTable (h : Vector (BitVec 32) 259) : CodeTable := tableOf (canonicalOrder (codeLengths h))

end Sys2Proof.Machine
end

