-- ==== Sys2Proof/Syntax.lean ====
section
/-! DEFINITION. The commands: one constructor per row of opcode_table.json (30_encoding.md R113), with the operand fields
of the command word (R112) as they stand in it. -/

namespace Sys2Proof

/-- The five formats of a command word (30_encoding.md R111). -/
inductive Format where
  /-- no operand -/
  | Z
  /-- a symbol id in `OPD` -/
  | S
  /-- a bit count in `N` -/
  | N
  /-- a bit count in `N` and a value in `OPD` -/
  | NV
  /-- a byte in `OPD[7:0]` -/
  | B
  deriving DecidableEq, Repr

/-- A command (30_encoding.md R113). `n` is the field `N` (R112), `s` the field `SYM`, `v` the field `V`, `b` the field `BYTE`. -/
inductive Instr where
  | nop
  | srst
  | peek (n : BitVec 4)
  | rdb (n : BitVec 4)
  | skip (n : BitVec 4)
  | rchk
  | putb (n : BitVec 4) (v : BitVec 9)
  | flb
  | fla
  | wraw (b : BitVec 8)
  | hclr
  | hadd (s : BitVec 9)
  | hseed
  | build
  | qhist (s : BitVec 9)
  | qlen (s : BitVec 9)
  | qcode (s : BitVec 9)
  | ehdr
  | enc (s : BitVec 9)
  | dhdr
  | dec
  | decn
  | decd
  | uend
  deriving DecidableEq, Repr

/-- The format of each command (the third column of 30_encoding.md R113). -/
def Instr.format : Instr → Format
  | .nop | .srst | .rchk | .flb | .fla | .hclr | .hseed | .build
  | .ehdr | .dhdr | .dec | .decn | .decd | .uend => .Z
  | .peek _ | .rdb _ | .skip _ => .N
  | .putb _ _ => .NV
  | .wraw _ => .B
  | .hadd _ | .qhist _ | .qlen _ | .qcode _ | .enc _ => .S

end Sys2Proof
end

