-- ==== Sys2Proof/WellFormed.lean ====
section
/-! DEFINITION. Which operands a command may carry (30_encoding.md R111, R116). -/

namespace Sys2Proof

/-- The operands of the command are in the ranges of 30_encoding.md R111: a symbol id is at most 258, a bit count is 1..9,
and a `PUTB` value fits its count. -/
def Instr.wellFormed : Instr → Bool
  | .peek n | .rdb n | .skip n => decide (1 ≤ n.toNat) && decide (n.toNat ≤ 9)
  | .putb n v => decide (1 ≤ n.toNat) && decide (n.toNat ≤ 9) && decide (v.toNat < 2 ^ n.toNat)
  | .hadd s | .qhist s | .qlen s | .qcode s | .enc s => decide (s.toNat ≤ 258)
  | .nop | .srst | .rchk | .flb | .fla | .wraw _ | .hclr | .hseed | .build
  | .ehdr | .dhdr | .dec | .decn | .decd | .uend => true

end Sys2Proof
end

