-- ==== Sys2Proof/Decode.lean ====
section
/-! DEFINITION. The command decoder of 30_encoding.md R121, total on every 32-bit word, and after it the encoder. -/

namespace Sys2Proof

/-! ### The fields of a command word (30_encoding.md R110) -/

/-- `OPC`, bits 31:24. -/
def opcField (w : Word) : BitVec 8 := w.extractLsb' 24 8
/-- `RSV1`, bits 23:20. -/
def rsv1Field (w : Word) : BitVec 4 := w.extractLsb' 20 4
/-- `N`, bits 19:16. -/
def nField (w : Word) : BitVec 4 := w.extractLsb' 16 4
/-- `RSV2`, bits 15:9. -/
def rsv2Field (w : Word) : BitVec 7 := w.extractLsb' 9 7
/-- `OPD`, bits 8:0. -/
def opdField (w : Word) : BitVec 9 := w.extractLsb' 0 9

/-! ### Decoding -/

/-- The command an opcode names, with the operands of R112 taken from the fields (the opcode map, R113); `none` for the 232
reserved opcodes (R114). -/
def commandOf (opc : BitVec 8) (n : BitVec 4) (opd : BitVec 9) : Option Instr :=
  match opc.toNat with
  | 0x00 => some .nop
  | 0x01 => some .srst
  | 0x20 => some (.peek n)
  | 0x21 => some (.rdb n)
  | 0x22 => some (.skip n)
  | 0x23 => some .rchk
  | 0x30 => some (.putb n opd)
  | 0x31 => some .flb
  | 0x32 => some .fla
  | 0x33 => some (.wraw (opd.extractLsb' 0 8))
  | 0x40 => some .hclr
  | 0x41 => some (.hadd opd)
  | 0x42 => some .hseed
  | 0x43 => some .build
  | 0x44 => some (.qhist opd)
  | 0x45 => some (.qlen opd)
  | 0x46 => some (.qcode opd)
  | 0x50 => some .ehdr
  | 0x51 => some (.enc opd)
  | 0x60 => some .dhdr
  | 0x61 => some .dec
  | 0x62 => some .decn
  | 0x63 => some .decd
  | 0x64 => some .uend
  | _ => none

/-- The fields a format requires to be 0 are 0 (R115): lines 2 to 5 of R121's `decode`. -/
def layoutLegal (f : Format) (w : Word) : Bool :=
  rsv1Field w == 0 && rsv2Field w == 0 &&
  match f with
  | .Z => nField w == 0 && opdField w == 0
  | .S => nField w == 0
  | .N => opdField w == 0
  | .NV => true
  | .B => nField w == 0 && !(opdField w).getLsbD 8

/-- A bit count is 1..9 (R116, formats N and NV). -/
def countInRange (n : BitVec 4) : Bool := decide (1 ≤ n.toNat) && decide (n.toNat ≤ 9)

/-- A value fits its bit count (R116, format NV). -/
def valueInRange (n : BitVec 4) (v : BitVec 9) : Bool := decide (v.toNat < 2 ^ n.toNat)

/-- A symbol id names one of the 259 symbols (R116, format S). -/
def symbolInRange (s : BitVec 9) : Bool := decide (s.toNat ≤ 258)

/-- The operand checks of R116: the last three lines of R121's `decode` before its result. -/
def operandsInRange : Instr → Bool
  | .peek n | .rdb n | .skip n => countInRange n
  | .putb n v => countInRange n && valueInRange n v
  | .hadd s | .qhist s | .qlen s | .qcode s | .enc s => symbolInRange s
  | .nop | .srst | .rchk | .flb | .fla | .wraw _ | .hclr | .hseed | .build
  | .ehdr | .dhdr | .dec | .decn | .decd | .uend => true

/-- The three results of R121's `decode`. -/
inductive Decoded where
  /-- `ILLEGAL`: the word raises `E_ILLEGAL_CMD` -/
  | illegal
  /-- `BAD_OPERAND`: the word has this command's layout with an operand out of range, and raises `E_BAD_OPERAND` -/
  | badOperand (i : Instr)
  /-- the command with its operands -/
  | command (i : Instr)
  deriving DecidableEq, Repr

/-- Command decode (R121), its checks in the written order: the opcode, then the layout, then the operands. -/
def decode (w : Word) : Decoded :=
  match commandOf (opcField w) (nField w) (opdField w) with
  | none => .illegal
  | some i =>
    if layoutLegal i.format w then
      if operandsInRange i then .command i else .badOperand i
    else .illegal

/-- The instruction a decoder result names. A word that R121 answers `BAD_OPERAND` for has its row's opcode and layout
(opcode_table.json's match and mask), so it names that row's instruction, whose meaning raises `E_BAD_OPERAND`
(DESIGN CHOICE, log entry 14). -/
def Decoded.instr? : Decoded → Option Instr
  | .illegal => none
  | .badOperand i => some i
  | .command i => some i

/-- The instruction the decoder reads from a command whose bits, numbered as opcode_table.json numbers them, are `w`; the
bits from `nbits` on are 0. -/
def decodeTableWord (nbits w : Nat) : Option Instr :=
  (decode (BitVec.ofNat 32 (w % 2 ^ nbits))).instr?

/-! ### Encoding -/

/-- The word with these fields and zero reserved fields (R110). -/
def commandWord (opc : BitVec 8) (n : BitVec 4) (opd : BitVec 9) : Word :=
  opc ++ (0 : BitVec 4) ++ n ++ (0 : BitVec 7) ++ opd

/-- The word of a command (R110 to R113). -/
def encode : Instr → Word
  | .nop => commandWord 0x00 0 0
  | .srst => commandWord 0x01 0 0
  | .peek n => commandWord 0x20 n 0
  | .rdb n => commandWord 0x21 n 0
  | .skip n => commandWord 0x22 n 0
  | .rchk => commandWord 0x23 0 0
  | .putb n v => commandWord 0x30 n v
  | .flb => commandWord 0x31 0 0
  | .fla => commandWord 0x32 0 0
  | .wraw b => commandWord 0x33 0 ((0 : BitVec 1) ++ b)
  | .hclr => commandWord 0x40 0 0
  | .hadd s => commandWord 0x41 0 s
  | .hseed => commandWord 0x42 0 0
  | .build => commandWord 0x43 0 0
  | .qhist s => commandWord 0x44 0 s
  | .qlen s => commandWord 0x45 0 s
  | .qcode s => commandWord 0x46 0 s
  | .ehdr => commandWord 0x50 0 0
  | .enc s => commandWord 0x51 0 s
  | .dhdr => commandWord 0x60 0 0
  | .dec => commandWord 0x61 0 0
  | .decn => commandWord 0x62 0 0
  | .decd => commandWord 0x63 0 0
  | .uend => commandWord 0x64 0 0

end Sys2Proof
end

