-- ==== Sys2Proof/Machine/Ops.lean ====
section
/-! DEFINITION. The shared operations: the error codes, entering the halted state and leaving it by reset, the gate of the
halted block, the named updates of the state, and the reader and writer primitives of 20_memory.md. -/

namespace Sys2Proof.Machine

/-! ### Error codes (60_exceptions.md R300) -/

/-- The errors the block can raise. -/
inductive ErrCode where
  | illegalCmd | badOperand | countOverflow | emptyHist | noTable | symbolAbsent | rawPending | sequence
  | truncated | noMatch | emptyOrder | badCount | badSymbolId | dupSymbol | countMismatch | codeTooLong
  | oversubscribed | controlInLiteral | termMismatch
  deriving DecidableEq, Repr

/-- The code `ERR` holds for each error (60_exceptions.md R300). -/
def ErrCode.code : ErrCode → BitVec 8
  | .illegalCmd => 0x01
  | .badOperand => 0x02
  | .countOverflow => 0x03
  | .emptyHist => 0x04
  | .noTable => 0x05
  | .symbolAbsent => 0x06
  | .rawPending => 0x07
  | .sequence => 0x08
  | .truncated => 0x10
  | .noMatch => 0x11
  | .emptyOrder => 0x12
  | .badCount => 0x13
  | .badSymbolId => 0x14
  | .dupSymbol => 0x15
  | .countMismatch => 0x16
  | .codeTooLong => 0x17
  | .oversubscribed => 0x18
  | .controlInLiteral => 0x19
  | .termMismatch => 0x1A

/-! ### Entering and leaving the halted state -/

/-- Raising an error (60_exceptions.md R303): `ERR` and `ERRF` are written, the source and the sink stay as the failing
command left them, and every other element of the block holds a free value from here on. -/
def enterHalt (e : ErrCode) (s : State) : State :=
  { s with
    hist := Config.freeHist s.free
    tv := Config.freeTv s.free
    t := { k := Config.freeK s.free, order := Config.freeOrder s.free
           lcnt := Config.freeLcnt s.free, maxlen := Config.freeMaxlen s.free }
    rbuf := (Config.freeRbuf s.free).take Config.RBUF_CAP
    reof := Config.freeReof s.free
    wbuf := (Config.freeWbuf s.free).take Config.WPEND_MAX
    res := Config.freeRes s.free
    err := e.code
    errf := true
    last := Config.freeLast s.free
    lastv := Config.freeLastv s.free
    free := s.free + 1 }

/-- Reset of the block (70_reset_and_hazards.md R341, R342): every element of the block takes its reset value; the source,
the sink and the host's side are untouched. It is the only return from the halted state (60_exceptions.md R305). -/
def blockReset (s : State) : State :=
  { s with
    hist := State.reset.hist
    tv := State.reset.tv
    t := State.reset.t
    rbuf := State.reset.rbuf
    reof := State.reset.reof
    wbuf := State.reset.wbuf
    res := State.reset.res
    err := State.reset.err
    errf := State.reset.errf
    last := State.reset.last
    lastv := State.reset.lastv }

/-! ### Commands that may raise -/

/-- How a part of a command ends: with a value, or at a `raise` (00_scope.md R12), in the state reached so far. -/
inductive Ran (α : Type) where
  | done (a : α) (s : State)
  | raised (e : ErrCode) (s : State)

/-- Go on with the next part, unless the first one raised (60_exceptions.md R302: stop at the first `raise`). -/
def Ran.andThen {α β : Type} (r : Ran α) (f : α → State → Ran β) : Ran β :=
  match r with
  | .done a s => f a s
  | .raised e s => .raised e s

/-- The outcome of a whole command: the state it reached, or the halted state. -/
def Ran.outcome : Ran Unit → Host.Outcome State Fault Refusal
  | .done _ s => .next s
  | .raised e s => .next (enterHalt e s)

/-- A command other than SRST: ignored while halted (60_exceptions.md R304), else run to its end or its first `raise`. -/
def command (s : State) (body : State → Ran Unit) : Host.Outcome State Fault Refusal :=
  if s.errf then .next s else (body s).outcome

/-- A check of a command: raise `e` unless `ok`, before anything that follows. -/
def require (ok : Bool) (e : ErrCode) (s : State) (rest : State → Ran Unit) : Ran Unit :=
  if ok then rest s else .raised e s

/-! ### Named updates -/

/-- `RES <- v`. -/
def State.setRes (s : State) (v : BitVec 64) : State := { s with res := v }

/-- `LAST <- x; LASTV <- 1` (10_state.md R43). -/
def State.setLast (s : State) (x : BitVec 9) : State := { s with last := x, lastv := true }

/-- `HIST <- h`. -/
def State.setHist (s : State) (h : Vector (BitVec 32) 259) : State := { s with hist := h }

/-- `T <- t; TV <- 1`, the commit of BUILD and DHDR (10_state.md R35). -/
def State.setTable (s : State) (t : CodeTable) : State := { s with t := t, tv := true }

/-- The reader's part of the state: `RBUF`, `REOF` and the source. -/
def State.setReader (s : State) (rbuf : Bits) (reof : Bool) (source : List Byte) : State :=
  { s with rbuf := rbuf, reof := reof, source := source }

/-- The writer's part of the state: `WBUF` and the sink. -/
def State.setWriter (s : State) (wbuf : Bits) (sink : List Byte) : State := { s with wbuf := wbuf, sink := sink }

/-! ### Reader primitives (20_memory.md R83 to R87) -/

/-- The loop of `refill()` on the buffer and the source: what the buffer and the source become, and whether a `Pull()`
returned `EOS`. -/
def refillLoop : Bits → List Byte → Bits × List Byte × Bool
  | q, [] => (q, [], decide (q.length < Config.LA))
  | q, b :: bs => if q.length < Config.LA then refillLoop (q ++ byteBits b) bs else (q, b :: bs, false)

/-- `refill()` (R83). `REOF` is never cleared here (10_state.md R39). -/
def refill (s : State) : State :=
  s.setReader (refillLoop s.rbuf s.source).1 (s.reof || (refillLoop s.rbuf s.source).2.2)
    (refillLoop s.rbuf s.source).2.1

/-- `peekBits(n)` (R84). -/
def peekBits (n : Nat) (s : State) : Ran Nat :=
  if (refill s).rbuf.length < n then .raised .truncated (refill s)
  else .done (lsbVal ((refill s).rbuf.take n)) (refill s)

/-- `consume(n)` (R85). -/
def consume (n : Nat) (s : State) : State :=
  refill (s.setReader (s.rbuf.drop n) s.reof s.source)

/-- `readField(n)` (R86). -/
def readField (n : Nat) (s : State) : Ran Nat :=
  (peekBits n s).andThen fun v s1 => .done v (consume n s1)

/-- The value of `remLE8()` in a state just refilled (R87). -/
def atPadding (s : State) : Bool := s.reof && decide (s.rbuf.length ≤ Config.PAD_THRESHOLD)

/-! ### Writer primitives (20_memory.md R95 to R99) -/

/-- `Emit(b)` (R75). -/
def emit (b : Byte) (s : State) : State := s.setWriter s.wbuf (s.sink ++ [b])

/-- `pushBits(q)` (R95). -/
def pushBits (q : Bits) (s : State) : State := s.setWriter (s.wbuf ++ q) s.sink

/-- The loop of `flushWhileFull()` on the pending bits and the sink, at most `fuel` times. -/
def drainLoop : Nat → Bits → List Byte → Bits × List Byte
  | 0, q, out => (q, out)
  | fuel + 1, q, out => if 8 ≤ q.length then drainLoop fuel (q.drop 8) (out ++ [byteOf (q.take 8)]) else (q, out)

/-- `flushWhileFull()` (R96). The loop runs less often than there are pending bits. -/
def flushWhileFull (s : State) : State :=
  s.setWriter (drainLoop s.wbuf.length s.wbuf s.sink).1 (drainLoop s.wbuf.length s.wbuf s.sink).2

/-- `Emit(lsbVal(WBUF)); WBUF <- ⟨⟩` when bits are pending, the end of `flushAll()` (R97). -/
def emitRest (s : State) : State :=
  if s.wbuf = [] then s else s.setWriter [] (s.sink ++ [byteOf s.wbuf])

/-- `flushAll()` (R97). -/
def flushAll (s : State) : State := emitRest (flushWhileFull s)

/-- A push followed by the flush every pushing command ends with (R98). -/
def pushFlush (q : Bits) (s : State) : State := flushWhileFull (pushBits q s)

/-- `rawByte(b)` (R99). -/
def rawByte (b : Byte) (s : State) : State := emit b s

end Sys2Proof.Machine
end

