-- ==== Sys2Proof/Machine/Operands.lean ====
section
/-! DEFINITION. The operand forms of a command (30_encoding.md R111, R112): what each field means to a meaning, and the
check of its range (R116). A command whose operand is out of range raises `E_BAD_OPERAND` before anything else. -/

namespace Sys2Proof.Machine

/-- A symbol operand, format S: `SYM` names a symbol by its id; ids above 258 raise `E_BAD_OPERAND`. -/
def withSymbol (sym : BitVec 9) (s : State) (body : BitVec 9 → State → Ran Unit) : Ran Unit :=
  require (symbolInRange sym) .badOperand s (body sym)

/-- A bit-count operand, format N: an unsigned count 1..9; any other raises `E_BAD_OPERAND`. -/
def withCount (n : BitVec 4) (s : State) (body : Nat → State → Ran Unit) : Ran Unit :=
  require (countInRange n) .badOperand s (body n.toNat)

/-- A count and a value, format NV: the count as in format N, and a value below 2^n; the field's bits are
`lsbSeq(V, n)` (R112). -/
def withField (n : BitVec 4) (v : BitVec 9) (s : State) (body : Bits → State → Ran Unit) : Ran Unit :=
  require (countInRange n && valueInRange n v) .badOperand s (body (lsbSeq v.toNat n.toNat))

end Sys2Proof.Machine
end

