-- ==== Sys2Proof/Machine/Coder.lean ====
section
/-! DEFINITION. The histogram and code-table commands (43_coder.md). -/

namespace Sys2Proof.Machine

/-- HCLR (R210): every count becomes 0. -/
def execHclr (s : State) : Host.Outcome State Fault Refusal :=
  command s fun s => .done () (s.setHist (Vector.replicate 259 0))

/-- HADD s (R211): count one occurrence; `E_COUNT_OVERFLOW` if the sum would exceed 2^32 − 1 (00_scope.md R7; log entry 15). -/
def execHadd (sym : BitVec 9) (s : State) : Host.Outcome State Fault Refusal :=
  command s fun s => withSymbol sym s fun x s =>
    require (decide (total s.hist < Config.COUNT_MAX)) .countOverflow s fun s =>
      .done () (s.setHist (setCount s.hist x.toNat (BitVec.ofNat 32 (countOf s.hist x.toNat + 1))))

/-- The three control symbols (10_state.md R34). -/
def controlSymbols : List Nat :=
  [Config.FILENAME_END.toNat, Config.ONE_MORE_FILE.toNat, Config.ARCHIVE_END.toNat]

/-- How many control symbols have a zero count (R212). -/
def seedsNeeded (h : Vector (BitVec 32) 259) : Nat := (controlSymbols.filter fun x => countOf h x == 0).length

/-- A zero count becomes 1, any other stays (R212). -/
def seedOne (h : Vector (BitVec 32) 259) (x : Nat) : Vector (BitVec 32) 259 :=
  if countOf h x = 0 then setCount h x 1 else h

/-- HSEED (R212): force each control symbol's count to at least 1. -/
def execHseed (s : State) : Host.Outcome State Fault Refusal :=
  command s fun s =>
    require (decide (total s.hist + seedsNeeded s.hist ≤ Config.COUNT_MAX)) .countOverflow s fun s =>
      .done () (s.setHist (controlSymbols.foldl seedOne s.hist))

/-- BUILD (R213): build the code table from the histogram; `E_EMPTY_HIST` if every count is 0. -/
def execBuild (s : State) : Host.Outcome State Fault Refusal :=
  command s fun s => require (decide (total s.hist ≠ 0)) .emptyHist s fun s =>
    .done () (s.setTable (buildTable s.hist))

/-- QHIST s (R214): one count into `RES`. -/
def execQhist (sym : BitVec 9) (s : State) : Host.Outcome State Fault Refusal :=
  command s fun s => withSymbol sym s fun x s => .done () (s.setRes (BitVec.ofNat 64 (countOf s.hist x.toNat)))

/-- What a query of an absent symbol, or without a table, answers: all ones (decision D8). -/
def absentMark : BitVec 64 := BitVec.allOnes 64

/-- QLEN s (R215): a code length into `RES`. -/
def execQlen (sym : BitVec 9) (s : State) : Host.Outcome State Fault Refusal :=
  command s fun s => withSymbol sym s fun x s =>
    .done () (s.setRes (if s.tv && s.t.isPresent x then BitVec.ofNat 64 (s.t.len x) else absentMark))

/-- QCODE s (R216): a code value into `RES`. -/
def execQcode (sym : BitVec 9) (s : State) : Host.Outcome State Fault Refusal :=
  command s fun s => withSymbol sym s fun x s =>
    .done () (s.setRes (if s.tv && s.t.isPresent x then BitVec.ofNat 64 (s.t.code x) else absentMark))

end Sys2Proof.Machine
end

