-- ==== Sys2Proof/Machine/Control.lean ====
section
/-! DEFINITION. The control commands (40_control.md). -/

namespace Sys2Proof.Machine

/-- NOP (R160): nothing changes. -/
def execNop (s : State) : Host.Outcome State Fault Refusal :=
  command s fun s => .done () s

/-- SRST (R161): the reset of the block, the one command a halted block executes (60_exceptions.md R304). -/
def execSrst (s : State) : Host.Outcome State Fault Refusal := .next (blockReset s)

end Sys2Proof.Machine
end

