-- ==== Sys2Proof/Machine/Decoder.lean ====
section
/-! DEFINITION. The decoder commands (45_decoder.md). -/

namespace Sys2Proof.Machine

/-! ### Reading a header (R270) -/

/-- The loop over the symbol ids: `k` more to read, `seen` read so far, in order. -/
def readSymbols : Nat → List Nat → State → Ran (List Nat)
  | 0, seen, s => .done seen s
  | k + 1, seen, s =>
    (readField Config.SYM_W s).andThen fun x s =>
      if 258 < x then .raised .badSymbolId s
      else if x ∈ seen then .raised .dupSymbol s
      else readSymbols k (seen ++ [x]) s

/-- The loop over the length counts: at most `room` more entries, `counts` read so far, in order from length 1. -/
def readCounts (k : Nat) : Nat → List Nat → State → Ran (List Nat)
  | 0, _, s => .raised .codeTooLong s
  | room + 1, counts, s =>
    (readField Config.SYM_W s).andThen fun c s =>
      if k < counts.sum + c then .raised .countMismatch s
      else if counts.sum + c = k then .done (counts ++ [c]) s
      else readCounts k room (counts ++ [c]) s

/-- The table `T'` of a header: K, ORDER, LCNT and MAXLEN, zeros in the entries not given (R270). -/
def headerTable (syms counts : List Nat) : CodeTable :=
  { k := BitVec.ofNat 9 syms.length
    order := fillFile 259 (syms.map (BitVec.ofNat 9))
    lcnt := fillFile 50 (counts.map (BitVec.ofNat 9))
    maxlen := BitVec.ofNat 6 counts.length }

/-- The commit of a table read from a header, if its codes fit their lengths (R270). -/
def commitTable (t : CodeTable) (s : State) : Ran Unit :=
  require t.canon.isSome .oversubscribed s fun s => .done () (s.setTable t)

/-- The header after its count `k`: the symbols, then the length counts unless `k` = 1. -/
def readHeaderBody (k : Nat) (s : State) : Ran Unit :=
  (readSymbols k [] s).andThen fun syms s =>
    if k = 1 then commitTable (headerTable syms []) s
    else (readCounts k Config.MAX_CODE_LEN [] s).andThen fun counts s => commitTable (headerTable syms counts) s

/-- DHDR (R270): read a code-table header and commit it as the current table. -/
def execDhdr (s : State) : Host.Outcome State Fault Refusal :=
  command s fun s => (readField Config.SYM_W s).andThen fun k s =>
    if k = 0 then .raised .emptyOrder s
    else if 259 < k then .raised .badCount s
    else readHeaderBody k s

/-! ### Decoding a symbol (R271) -/

/-- The symbol whose code is exactly the bits `q`, if any. -/
def CodeTable.matching (t : CodeTable) (q : Bits) : Option (BitVec 9) :=
  (t.entries.find? fun e => e.len == q.length && msbSeq e.code e.len == q).map CodeEntry.sym

/-- The loop over the lengths: `room` more to try, the next one being `l`. -/
def tryLengths : Nat → Nat → State → Ran (BitVec 9)
  | 0, _, s => .raised .noMatch s
  | room + 1, l, s =>
    (peekBits l s).andThen fun v s =>
      match s.t.matching (lsbSeq v l) with
      | some x => .done x (consume l s)
      | none => tryLengths room (l + 1) s

/-- The symbol the next bits stand for: a table of one symbol reads no bit (decision D27). -/
def nextSymbol (s : State) : Ran (BitVec 9) :=
  if s.t.k = 1 then .done s.t.order[0] s else tryLengths s.t.maxlen.toNat 1 s

/-- `decodeSymbol()` (R271): the table, the symbol, then `RES`, `LAST` and `LASTV`. -/
def decodeSymbol (s : State) : Ran (BitVec 9) :=
  if s.tv then (nextSymbol s).andThen fun x s => .done x ((s.setRes (x.setWidth 64)).setLast x)
  else .raised .noTable s

/-- DEC (R272): decode one symbol. -/
def execDec (s : State) : Host.Outcome State Fault Refusal :=
  command s fun s => (decodeSymbol s).andThen fun _ s => .done () s

/-- DECN (R273): decode one symbol in a filename position, where a content terminator is an error. -/
def execDecn (s : State) : Host.Outcome State Fault Refusal :=
  command s fun s => (decodeSymbol s).andThen fun x s =>
    require (!(x == Config.ONE_MORE_FILE || x == Config.ARCHIVE_END)) .controlInLiteral s fun s => .done () s

/-- DECD (R274): decode one symbol in a content position, where `FILENAME_END` is an error. -/
def execDecd (s : State) : Host.Outcome State Fault Refusal :=
  command s fun s => (decodeSymbol s).andThen fun x s =>
    require (!(x == Config.FILENAME_END)) .controlInLiteral s fun s => .done () s

/-- The last decoded symbol is a content terminator (R275). -/
def terminatorDecoded (s : State) : Bool :=
  s.lastv && (s.last == Config.ONE_MORE_FILE || s.last == Config.ARCHIVE_END)

/-- The terminator the remaining stream length asks for, in a state just refilled (R275). -/
def expectedTerminator (s : State) : BitVec 9 := if atPadding s then Config.ARCHIVE_END else Config.ONE_MORE_FILE

/-- UEND (R275): check the content terminator against the remaining stream length. -/
def execUend (s : State) : Host.Outcome State Fault Refusal :=
  command s fun s => require (terminatorDecoded s) .sequence s fun s =>
    require ((refill s).last == expectedTerminator (refill s)) .termMismatch (refill s) fun s =>
      .done () (s.setRes (if atPadding s then 1 else 0))

end Sys2Proof.Machine
end

