-- ==== Sys2Proof/Machine/Encoder.lean ====
section
/-! DEFINITION. The encoder commands (44_encoder.md). -/

namespace Sys2Proof.Machine

/-- Push header fields one after another, each followed by the flush (R250). -/
def pushFields (fs : List Nat) (s : State) : State := fs.foldl (fun s f => pushFlush (lsbSeq f Config.SYM_W) s) s

/-- EHDR (R250): emit the header of the current table. -/
def execEhdr (s : State) : Host.Outcome State Fault Refusal :=
  command s fun s => require s.tv .noTable s fun s => .done () (pushFields s.t.headerFields s)

/-- ENC s (R251): emit the code of a symbol. -/
def execEnc (sym : BitVec 9) (s : State) : Host.Outcome State Fault Refusal :=
  command s fun s => withSymbol sym s fun x s =>
    require s.tv .noTable s fun s => require (s.t.isPresent x) .symbolAbsent s fun s =>
      .done () (pushFlush (s.t.codeBits x) s)

end Sys2Proof.Machine
end

