-- ==== Sys2Proof/Machine/Reader.lean ====
section
/-! DEFINITION. The bit-stream reader commands (41_bitreader.md). -/

namespace Sys2Proof.Machine

/-- PEEK n (R170): the next `n` stream bits into `RES`, none consumed. -/
def execPeek (n : BitVec 4) (s : State) : Host.Outcome State Fault Refusal :=
  command s fun s => withCount n s fun n s =>
    (peekBits n s).andThen fun v s => .done () (s.setRes (BitVec.ofNat 64 v))

/-- RDB n (R171): the next `n` stream bits into `RES`, consumed. -/
def execRdb (n : BitVec 4) (s : State) : Host.Outcome State Fault Refusal :=
  command s fun s => withCount n s fun n s =>
    (readField n s).andThen fun v s => .done () (s.setRes (BitVec.ofNat 64 v))

/-- SKIP n (R172): the next `n` stream bits consumed; `RES` is not written. -/
def execSkip (n : BitVec 4) (s : State) : Host.Outcome State Fault Refusal :=
  command s fun s => withCount n s fun n s =>
    (peekBits n s).andThen fun _ s => .done () (consume n s)

/-- RCHK (R173): `RES` is 1 if at most 8 stream bits remain, else 0. It refills first and consumes nothing (20_memory.md R87),
so it can pull bytes, against R170's remark that only PEEK does so without consuming (DEDUCED, log entry 22). -/
def execRchk (s : State) : Host.Outcome State Fault Refusal :=
  command s fun s => .done () ((refill s).setRes (if atPadding (refill s) then 1 else 0))

end Sys2Proof.Machine
end

