-- ==== Sys2Proof/Machine/Writer.lean ====
section
/-! DEFINITION. The bit-stream writer commands (42_bitwriter.md). -/

namespace Sys2Proof.Machine

/-- PUTB n, V (R190): push the `n`-bit field `V`, then flush whole bytes. -/
def execPutb (n : BitVec 4) (v : BitVec 9) (s : State) : Host.Outcome State Fault Refusal :=
  command s fun s => withField n v s fun q s => .done () (pushFlush q s)

/-- FLB (R191): flush whole bytes. -/
def execFlb (s : State) : Host.Outcome State Fault Refusal :=
  command s fun s => .done () (flushWhileFull s)

/-- FLA (R192): flush all pending bits, the last byte padded with zeros. -/
def execFla (s : State) : Host.Outcome State Fault Refusal :=
  command s fun s => .done () (flushAll s)

/-- WRAW b (R193): one byte straight to the sink; `E_RAW_PENDING` if any bit is pending. -/
def execWraw (b : BitVec 8) (s : State) : Host.Outcome State Fault Refusal :=
  command s fun s => require s.wbuf.isEmpty .rawPending s fun s => .done () (rawByte b s)

end Sys2Proof.Machine
end

