-- ==== Sys2Proof/Machine/Dispatch.lean ====
section
/-! DEFINITION. `exec`: one arm per command, each one direct call of its meaning. -/

namespace Sys2Proof.Machine

def exec (i : Instr) (s : State) : Host.Outcome State Fault Refusal :=
  match i with
  | .nop => Sys2Proof.Machine.execNop s
  | .srst => Sys2Proof.Machine.execSrst s
  | .peek n => Sys2Proof.Machine.execPeek n s
  | .rdb n => Sys2Proof.Machine.execRdb n s
  | .skip n => Sys2Proof.Machine.execSkip n s
  | .rchk => Sys2Proof.Machine.execRchk s
  | .putb n v => Sys2Proof.Machine.execPutb n v s
  | .flb => Sys2Proof.Machine.execFlb s
  | .fla => Sys2Proof.Machine.execFla s
  | .wraw b => Sys2Proof.Machine.execWraw b s
  | .hclr => Sys2Proof.Machine.execHclr s
  | .hadd x => Sys2Proof.Machine.execHadd x s
  | .hseed => Sys2Proof.Machine.execHseed s
  | .build => Sys2Proof.Machine.execBuild s
  | .qhist x => Sys2Proof.Machine.execQhist x s
  | .qlen x => Sys2Proof.Machine.execQlen x s
  | .qcode x => Sys2Proof.Machine.execQcode x s
  | .ehdr => Sys2Proof.Machine.execEhdr s
  | .enc x => Sys2Proof.Machine.execEnc x s
  | .dhdr => Sys2Proof.Machine.execDhdr s
  | .dec => Sys2Proof.Machine.execDec s
  | .decn => Sys2Proof.Machine.execDecn s
  | .decd => Sys2Proof.Machine.execDecd s
  | .uend => Sys2Proof.Machine.execUend s

end Sys2Proof.Machine
end

