-- ==== Sys2Proof/Machine/Flags.lean ====
section
/-! DEFINITION. The block's flags: the `STATUS` word assembled from state when it is read (10_state.md R40), and the output
signal `ERR_IRQ` (60_exceptions.md R308). -/

namespace Sys2Proof.Machine

/-- One flag as a bit of a word. -/
def flagBit (b : Bool) : BitVec 1 := BitVec.ofBool b

/-- `STATUS.RAVAIL`, the number of buffered reader bits (10_state.md R39). -/
def ravail (s : State) : BitVec 6 := BitVec.ofNat 6 s.rbuf.length

/-- `STATUS.WPEND`, the number of pending writer bits (10_state.md R44). -/
def wpend (s : State) : BitVec 3 := BitVec.ofNat 3 s.wbuf.length

/-- `STATUS` (R40), from bit 31 down: reserved, `MAXLEN`, `K`, reserved, `WPEND`, `RAVAIL`, `LASTV`, `REOF`, `ERRF`, `TV`. -/
def statusWord (s : State) : BitVec 32 :=
  (0 : BitVec 1) ++ s.t.maxlen ++ s.t.k ++ (0 : BitVec 3) ++ wpend s ++ ravail s
    ++ flagBit s.lastv ++ flagBit s.reof ++ flagBit s.errf ++ flagBit s.tv

/-- The mask of `STATUS.ERRF`, bit 1. -/
def errfMask : BitVec 32 := 2

/-- `ERR_IRQ`, equal to `ERRF` at all times (60_exceptions.md R308). -/
def errIrq (s : State) : Bool := s.errf

end Sys2Proof.Machine
end

