-- ==== Sys2Proof/Machine/HostPort.lean ====
section
/-! DEFINITION. The host's side of the block: issuing a command word (10_state.md R45, 30_encoding.md R121), the register
map (10_state.md R46, R47), the `RESET` input (70_reset_and_hazards.md R340), and presenting streams (R342). -/

namespace Sys2Proof.Machine

/-! ### The command port -/

/-- A word that decodes to no command raises its error, unless the block is halted (60_exceptions.md R304). -/
def rejectWord (e : ErrCode) (s : State) : Host.Outcome State Fault Refusal := command s fun s => .raised e s

/-- Issuing command word `w` (10_state.md R45): decode (30_encoding.md R121), then run. -/
def issue (w : Word) (s : State) : Host.Outcome State Fault Refusal :=
  match decode w with
  | .illegal => rejectWord .illegalCmd s
  | .badOperand _ => rejectWord .badOperand s
  | .command i => exec i s

/-! ### The register map (R46) -/

/-- Byte offset of `CMD`. -/
abbrev offCMD : Nat := 0x00
/-- Byte offset of `STATUS`. -/
abbrev offSTATUS : Nat := 0x04
/-- Byte offset of `RES_LO`. -/
abbrev offRES_LO : Nat := 0x08
/-- Byte offset of `RES_HI`. -/
abbrev offRES_HI : Nat := 0x0C
/-- Byte offset of `ERR`. -/
abbrev offERR : Nat := 0x10
/-- The first byte offset after the register map, whose last words are reserved (0x14–0x1F). -/
abbrev offEnd : Nat := 0x20

/-- The answer of a register read goes to the host; nothing of the block changes (R47). -/
def State.answer (s : State) (v : BitVec 32) : State := { s with rdata := v }

/-- An answer drawn from the free values (R40, R304; log entry 4): the next draw gives another. -/
def State.answerFree (s : State) (v : BitVec 32) : State := { s with rdata := v, free := s.free + 1 }

/-- A read of `STATUS` (R40): while halted only `ERRF` is specified. -/
def readStatus (s : State) : State :=
  if s.errf then s.answerFree (Config.freeRead s.free ||| errfMask) else s.answer (statusWord s)

/-- A read of one half of `RES` (R41): unspecified while halted. -/
def readRes (v : BitVec 32) (s : State) : State :=
  if s.errf then s.answerFree (Config.freeRead s.free) else s.answer v

/-- A register read at an aligned offset of the map. `CMD` (R45) and the reserved offsets read 0. -/
def readRegister (offset : Nat) (s : State) : State :=
  if offset = offSTATUS then readStatus s
  else if offset = offRES_LO then readRes (s.res.extractLsb' 0 32) s
  else if offset = offRES_HI then readRes (s.res.extractLsb' 32 32) s
  else if offset = offERR then s.answer (s.err.setWidth 32)
  else s.answer 0

/-- A register write at an aligned offset of the map: a command, or ignored (R47). -/
def writeRegister (offset : Nat) (w : Word) (s : State) : Host.Outcome State Fault Refusal :=
  if offset = offCMD then issue w s else .next s

/-- The checks of a register access: none is accepted while `RESET` is asserted (70_reset_and_hazards.md R340), and every
access is an aligned 32-bit access of the map (R46). -/
def access (offset bytes : Nat) (s : State) (body : Host.Outcome State Fault Refusal) :
    Host.Outcome State Fault Refusal :=
  if s.resetIn then .refused .accessDuringReset
  else if ¬ (bytes = 4 ∧ offset % 4 = 0) then .refused .narrowOrMisalignedAccess
  else if offEnd ≤ offset then .refused .outsideRegisterMap
  else body

/-! ### Host events -/

/-- The `RESET` input takes a level; while it is high the block stands in its reset state (70_reset_and_hazards.md R340). -/
def driveReset (level : Bool) (s : State) : State :=
  if level then { blockReset s with resetIn := true } else { s with resetIn := false }

/-- The host presents a new source or a new, empty sink (70_reset_and_hazards.md R342, R343). -/
def attachSource (bs : List Byte) (s : State) : State := { s with source := bs }

/-- A new, empty sink (70_reset_and_hazards.md R342). -/
def attachSink (s : State) : State := { s with sink := [] }

/-- One host event. -/
def handle (e : HostEvent) (s : State) : Host.Outcome State Fault Refusal :=
  match e with
  | .write offset bytes data => access offset bytes s (writeRegister offset data s)
  | .read offset bytes => access offset bytes s (.next (readRegister offset s))
  | .drive level => .next (driveReset level s)
  | .attachSource bs => .next (attachSource bs s)
  | .attachSink => .next (attachSink s)

/-- The event is no longer pending. -/
def State.setHost (s : State) (es : List HostEvent) : State := { s with host := es }

/-- What the host does next, if anything; an idle block stays as it is (60_exceptions.md R310, R315). -/
def hostStep (s : State) : Host.Outcome State Fault Refusal :=
  match s.host with
  | [] => .next s
  | e :: es => handle e (s.setHost es)

/-- The state in which the host's next access writes `w` to `CMD`, with `RESET` not asserted. -/
def placeCommand (s : State) (w : Word) : State :=
  { s with host := .write offCMD 4 w :: s.host, resetIn := false }

end Sys2Proof.Machine
end

