-- ==== Sys2Proof/Machine/Step.lean ====
section
/-! DEFINITION. One step of the machine: the host's next event, taken to its end (70_reset_and_hazards.md R352: one
transition per command). -/

namespace Sys2Proof.Machine

/-- One step (00_scope.md R15). -/
def step (s : State) : Host.Outcome State Fault Refusal := hostStep s

/-- The command whose bits are `w` (those from `nbits` on are 0) placed where the next step takes its command: as the host's
next write to `CMD`. -/
def State.withFetchWord (s : State) (nbits w : Nat) : State := placeCommand s (BitVec.ofNat 32 (w % 2 ^ nbits))

end Sys2Proof.Machine
end

