-- ==== Sys2Proof/Machine/Pseudo.lean ====
section
/-! DEFINITION. The pseudo-instructions of 30_encoding.md R120 with their expansions, the assembler text of R119, the host's
encoding program (44_encoder.md R253, R254) and its decoding loop (45_decoder.md R276). Host software: no step depends on it. -/

namespace Sys2Proof.Machine

/-- A literal symbol's id: the byte's value (10_state.md R34). -/
def literal (b : Byte) : BitVec 9 := b.setWidth 9

/-- `HADDS "str"`. -/
def hadds (str : List Byte) : List Instr := str.map fun b => .hadd (literal b)

/-- `ENCS "str"`. -/
def encs (str : List Byte) : List Instr := str.map fun b => .enc (literal b)

/-- `PUT9 v`. -/
def put9 (v : BitVec 9) : List Instr := [.putb 9 v]

/-- `RD9`. -/
def rd9 : List Instr := [.rdb 9]

/-- `ENCODE_UNIT name, data, last` (R120; the per-file sequence of 44_encoder.md R253). -/
def encodeUnit (name data : List Byte) (last : Bool) : List Instr :=
  [.hclr] ++ hadds name ++ hadds data ++ [.hseed, .build, .ehdr] ++ encs name ++ [.enc Config.FILENAME_END]
    ++ encs data ++ [.enc (if last then Config.ARCHIVE_END else Config.ONE_MORE_FILE), .flb]

/-- The mnemonic of a command (R113). -/
def mnemonic : Instr → String
  | .nop => "NOP"
  | .srst => "SRST"
  | .peek _ => "PEEK"
  | .rdb _ => "RDB"
  | .skip _ => "SKIP"
  | .rchk => "RCHK"
  | .putb _ _ => "PUTB"
  | .flb => "FLB"
  | .fla => "FLA"
  | .wraw _ => "WRAW"
  | .hclr => "HCLR"
  | .hadd _ => "HADD"
  | .hseed => "HSEED"
  | .build => "BUILD"
  | .qhist _ => "QHIST"
  | .qlen _ => "QLEN"
  | .qcode _ => "QCODE"
  | .ehdr => "EHDR"
  | .enc _ => "ENC"
  | .dhdr => "DHDR"
  | .dec => "DEC"
  | .decn => "DECN"
  | .decd => "DECD"
  | .uend => "UEND"

/-- The operands of a command as the assembler writes them, in decimal (R119). -/
def operandText : Instr → String
  | .peek n | .rdb n | .skip n => " " ++ toString n.toNat
  | .putb n v => " " ++ toString n.toNat ++ ", " ++ toString v.toNat
  | .wraw b => " " ++ toString b.toNat
  | .hadd s | .qhist s | .qlen s | .qcode s | .enc s => " " ++ toString s.toNat
  | .nop | .srst | .rchk | .flb | .fla | .hclr | .hseed | .build
  | .ehdr | .dhdr | .dec | .decn | .decd | .uend => ""

/-- One line of assembler (R119): the mnemonic, then the operands separated by commas. -/
def assemblerLine (i : Instr) : String := mnemonic i ++ operandText i

/-! ### The host's programs -/

/-- A file as the host sees it: the bytes of its name and of its content. -/
abbrev File := List Byte × List Byte

/-- The commands that encode an archive (44_encoder.md R253, R254): one unit per file, in order, then FLA. For no files the
spec gives no program (30_encoding.md R143 and R254 have at least one unit, 60_exceptions.md R317 leaves the usage error to the
host); FLA alone is the model's choice (DESIGN CHOICE, log entry 21). -/
def archiveProgram : List File → List Instr
  | [] => [.fla]
  | [f] => encodeUnit f.1 f.2 true ++ [.fla]
  | f :: g :: rest => encodeUnit f.1 f.2 false ++ archiveProgram (g :: rest)

/-- One command; `none` if the block is halted afterwards. -/
def runCommand (i : Instr) (s : State) : Option State :=
  match exec i s with
  | .next u => if u.errf then none else some u
  | .fault _ => none
  | .refused _ => none

/-- Commands one after another; `none` at the first error. -/
def runProgram : List Instr → State → Option State
  | [], s => some s
  | i :: is, s => (runCommand i s).bind fun u => runProgram is u

/-- Repeat a decoding command until it returns a symbol that ends the sequence: the literal bytes before that symbol. At most
`fuel` commands. -/
def literalLoop (i : Instr) (ends : BitVec 64 → Bool) : Nat → State → Option (List Byte × State)
  | 0, _ => none
  | fuel + 1, s => (runCommand i s).bind fun u =>
      if ends u.res then some ([], u)
      else (literalLoop i ends fuel u).map fun r => (u.res.setWidth 8 :: r.1, r.2)

/-- The name ends at `FILENAME_END` (R276). -/
def endsName (v : BitVec 64) : Bool := v == 256

/-- The content ends at `ONE_MORE_FILE` or `ARCHIVE_END` (R276). -/
def endsContent (v : BitVec 64) : Bool := v == 257 || v == 258

/-- The decoding loop (45_decoder.md R276), at most `fuel` times and as many symbols in each literal loop: the files of the
archive, or `none` at an error. -/
def decodeArchive : Nat → State → Option (List File)
  | 0, _ => none
  | fuel + 1, s => (runCommand .rchk s).bind fun s1 =>
      if s1.res = 1 then some []
      else (runCommand .dhdr s1).bind fun s2 =>
        (literalLoop .decn endsName fuel s2).bind fun name =>
          (literalLoop .decd endsContent fuel name.2).bind fun content =>
            (runCommand .uend content.2).bind fun s5 =>
              if s5.res = 1 then some [(name.1, content.1)]
              else (decodeArchive fuel s5).map fun rest => (name.1, content.1) :: rest

end Sys2Proof.Machine
end

