-- ==== Sys2Proof/Safety.lean ====
section
/-! DEFINITION. The terms the claims are made in: the unconsumed and the written bit stream, what a valid code table is
(10_state.md R37), the invariants of the machine, and the frames (what a command leaves unchanged). -/

namespace Sys2Proof.Machine

/-! ### The two bit streams -/

/-- The stream bits not yet consumed, first bit first: those buffered, then those of the bytes not yet pulled
(20_memory.md R77). -/
def State.input (s : State) : Bits := s.rbuf ++ streamBits s.source

/-- The stream bits written so far: those of the emitted bytes, then those pending. -/
def State.output (s : State) : Bits := streamBits s.sink ++ s.wbuf

/-! ### A valid code table -/

/-- Σ T.LCNT[l]·2^(50−l), the Kraft sum of a table's lengths in units of 2^−50 (43_coder.md R229). -/
def CodeTable.kraft (t : CodeTable) : Nat := ((List.range 50).map fun j => t.lcntAt (j + 1) * 2 ^ (50 - (j + 1))).sum

/-- Σ_{l=1}^{50} T.LCNT[l]. -/
def CodeTable.lcntSum (t : CodeTable) : Nat := ((List.range 50).map fun j => t.lcntAt (j + 1)).sum

/-- The invariant of 10_state.md R37, with the zero entries of `T.ORDER` from R36. -/
structure CodeTable.Valid (t : CodeTable) : Prop where
  /-- 1 ≤ K ≤ 259 -/
  k_range : 1 ≤ t.k.toNat ∧ t.k.toNat ≤ 259
  /-- the present symbols are pairwise distinct -/
  distinct : t.symbols.Nodup
  /-- each present symbol is at most 258 -/
  symbol_ids : ∀ x ∈ t.symbols, x.toNat ≤ 258
  /-- entries of `T.ORDER` from K on are 0 (R36) -/
  order_zero : ∀ i : Fin 259, t.k.toNat ≤ i.val → t.order[i] = 0
  /-- one symbol: no length counts -/
  single : t.k = 1 → t.maxlen = 0 ∧ ∀ l, t.lcntAt l = 0
  /-- several symbols: the lengths 1..MAXLEN ≤ 50 are those present and account for every symbol -/
  several : 2 ≤ t.k.toNat → (1 ≤ t.maxlen.toNat ∧ t.maxlen.toNat ≤ 50) ∧ 1 ≤ t.lcntAt t.maxlen.toNat
    ∧ (∀ l, t.maxlen.toNat < l → t.lcntAt l = 0) ∧ t.lcntSum = t.k.toNat
  /-- `canon(T)` completes without `F_OVERSUBSCRIBED` -/
  canon_fits : t.canon.isSome = true

/-! ### Invariants -/

/-- The codes of 60_exceptions.md R300, `NONE` among them. -/
def definedCodes : List (BitVec 8) :=
  [0x00, 0x01, 0x02, 0x03, 0x04, 0x05, 0x06, 0x07, 0x08,
   0x10, 0x11, 0x12, 0x13, 0x14, 0x15, 0x16, 0x17, 0x18, 0x19, 0x1A]

/-- The buffers stay within their capacities in every state between commands (20_memory.md R81, R98; in a halted block, whose
buffers the spec leaves unspecified, by log entry 5), `ERR` holds a defined code and `ERRF` says whether it is an error (10_state.md R42, 60_exceptions.md R300), and while not halted the counts stay
within 2^32 − 1 (10_state.md R33). -/
structure BlockInv (s : State) : Prop where
  rbuf_cap : s.rbuf.length ≤ 57
  wbuf_cap : s.wbuf.length ≤ 7
  err_defined : s.err ∈ definedCodes
  errf_iff : s.errf = true ↔ s.err ≠ 0
  count_cap : s.errf = false → total s.hist ≤ 4294967295

/-- While not halted: a table marked valid is valid (10_state.md R35, R37), without one `T` is as after reset, and the last
decoded symbol is a symbol of the alphabet (R43). -/
structure TableInv (s : State) : Prop where
  valid : s.errf = false → s.tv = true → s.t.Valid
  none : s.errf = false → s.tv = false → s.t = CodeTable.reset
  last_symbol : s.errf = false → s.last.toNat ≤ 258

/-! ### Frames -/

/-- `HIST` is unchanged. -/
def KeepsHist (s t : State) : Prop := t.hist = s.hist

/-- `T` and `TV` are unchanged. -/
def KeepsTable (s t : State) : Prop := t.tv = s.tv ∧ t.t = s.t

/-- `RBUF`, `REOF` and the source are unchanged. -/
def KeepsReader (s t : State) : Prop := t.rbuf = s.rbuf ∧ t.reof = s.reof ∧ t.source = s.source

/-- The fewest whole bytes that leave at least 50 bits buffered, when `n` of the bits to come are consumed and `buffered` bits
are in the buffer (20_memory.md R88). -/
def bytesAhead (n buffered : Nat) : Nat := (50 + n - buffered + 7) / 8

/-- What a reader command that consumes `n` bits leaves of the reader (20_memory.md R83, R85, R88): it has pulled the fewest
bytes that leave 50 bits buffered, or the whole source; the bits buffered and pulled are buffered, without the first `n`; and
`REOF` is set if fewer than 50 are left, and otherwise is what it was. -/
structure LooksAhead (n : Nat) (s t : State) : Prop where
  source : t.source = s.source.drop (bytesAhead n s.rbuf.length)
  rbuf : t.rbuf = (s.rbuf ++ streamBits (s.source.take (bytesAhead n s.rbuf.length))).drop n
  reof : t.reof = (s.reof || decide (t.rbuf.length < 50))

/-- `WBUF` and the sink are unchanged. -/
def KeepsWriter (s t : State) : Prop := t.wbuf = s.wbuf ∧ t.sink = s.sink

/-- `RES` is unchanged. -/
def KeepsRes (s t : State) : Prop := t.res = s.res

/-- `LAST` and `LASTV` are unchanged. -/
def KeepsLast (s t : State) : Prop := t.last = s.last ∧ t.lastv = s.lastv

/-- `ERR` and `ERRF` are unchanged. -/
def KeepsErr (s t : State) : Prop := t.err = s.err ∧ t.errf = s.errf

/-- What is not the block's: the `RESET` level, what the host does next, the last answer, and the model's counter. -/
def KeepsHostSide (s t : State) : Prop :=
  t.resetIn = s.resetIn ∧ t.host = s.host ∧ t.rdata = s.rdata ∧ t.free = s.free

/-- The halted state an error leaves (60_exceptions.md R303): `ERR` holds its code, `ERRF` is 1, the failing command emitted
nothing, and the bytes it pulled are a prefix of the source. Nothing is said of any other element. -/
def HaltsWith (code : BitVec 8) (s t : State) : Prop :=
  t.err = code ∧ t.errf = true ∧ t.sink = s.sink ∧ (∃ pulled, s.source = pulled ++ t.source)
    ∧ t.resetIn = s.resetIn ∧ t.host = s.host ∧ t.rdata = s.rdata

/-- The same, for a command that raises after consuming `n` bits and looking ahead: the bytes it pulled are exactly those
(60_exceptions.md R303, 93_implementation_defined.md U3). -/
def HaltsAfter (code : BitVec 8) (n : Nat) (s t : State) : Prop :=
  HaltsWith code s t ∧ t.source = s.source.drop (bytesAhead n s.rbuf.length)

/-! ### The fields of a command word as numbers (30_encoding.md R110), read without the decoder -/

/-- `OPC` of a word. -/
def wordOPC (w : Word) : Nat := w.toNat / 2 ^ 24
/-- `RSV1` of a word. -/
def wordRSV1 (w : Word) : Nat := w.toNat / 2 ^ 20 % 16
/-- `N` of a word. -/
def wordN (w : Word) : Nat := w.toNat / 2 ^ 16 % 16
/-- `RSV2` of a word. -/
def wordRSV2 (w : Word) : Nat := w.toNat / 2 ^ 9 % 128
/-- `OPD` of a word. -/
def wordOPD (w : Word) : Nat := w.toNat % 512

/-- The opcodes of each format (30_encoding.md R113). -/
def opcodesOf : Format → List Nat
  | .Z => [0x00, 0x01, 0x23, 0x31, 0x32, 0x40, 0x42, 0x43, 0x50, 0x60, 0x61, 0x62, 0x63, 0x64]
  | .S => [0x41, 0x44, 0x45, 0x46, 0x51]
  | .N => [0x20, 0x21, 0x22]
  | .NV => [0x30]
  | .B => [0x33]

/-- The opcode is in R113's table. -/
def OpcodeDefined (w : Word) : Prop := ∃ f, wordOPC w ∈ opcodesOf f

/-- A bit is set in a field the word's format requires to be 0 (R115). -/
def LayoutBroken (w : Word) : Prop :=
  wordRSV1 w ≠ 0 ∨ wordRSV2 w ≠ 0
    ∨ ((wordOPC w ∈ opcodesOf .Z ∨ wordOPC w ∈ opcodesOf .S ∨ wordOPC w ∈ opcodesOf .B) ∧ wordN w ≠ 0)
    ∨ ((wordOPC w ∈ opcodesOf .Z ∨ wordOPC w ∈ opcodesOf .N) ∧ wordOPD w ≠ 0)
    ∨ (wordOPC w ∈ opcodesOf .B ∧ 256 ≤ wordOPD w)

/-- An operand of the word's format is out of range (R116). -/
def OperandBroken (w : Word) : Prop :=
  (wordOPC w ∈ opcodesOf .S ∧ 258 < wordOPD w)
    ∨ ((wordOPC w ∈ opcodesOf .N ∨ wordOPC w ∈ opcodesOf .NV) ∧ (wordN w = 0 ∨ 9 < wordN w))
    ∨ (wordOPC w ∈ opcodesOf .NV ∧ 2 ^ wordN w ≤ wordOPD w)

/-- The host is about to write `w` to `CMD`, then to go on with `es`; `RESET` is not asserted. -/
def Issues (w : Word) (es : List HostEvent) (s : State) : Prop := s.host = .write 0 4 w :: es ∧ s.resetIn = false

/-- The host is about to read the register at `offset`, then to go on with `es`; `RESET` is not asserted. -/
def Reads (offset : Nat) (es : List HostEvent) (s : State) : Prop := s.host = .read offset 4 :: es ∧ s.resetIn = false

/-! ### Reset values (10_state.md R51) -/

/-- Every state element of the block has its value of R51. -/
structure ResetValues (s : State) : Prop where
  hist : ∀ x, x ≤ 258 → countOf s.hist x = 0
  tv : s.tv = false
  k : s.t.k = 0
  order : ∀ i : Fin 259, s.t.order[i] = 0
  lcnt : ∀ l, s.t.lcntAt l = 0
  maxlen : s.t.maxlen = 0
  rbuf : s.rbuf = []
  reof : s.reof = false
  wbuf : s.wbuf = []
  res : s.res = 0
  err : s.err = 0
  errf : s.errf = false
  last : s.last = 0
  lastv : s.lastv = false

/-! ### Which commands may write what (10_state.md R32, R35, R39, R41, R43, R50) -/

/-- The commands that write `HIST`. -/
def mayWriteHist : Instr → Bool
  | .hclr | .hadd _ | .hseed | .srst => true
  | _ => false

/-- The commands that set `TV` and write `T`. -/
def mayCommitTable : Instr → Bool
  | .build | .dhdr => true
  | _ => false

/-- The commands that run `refill()`. -/
def mayRead : Instr → Bool
  | .peek _ | .rdb _ | .skip _ | .rchk | .dhdr | .dec | .decn | .decd | .uend => true
  | _ => false

/-- The commands that change the pending writer bits. -/
def mayChangePending : Instr → Bool
  | .putb _ _ | .fla | .ehdr | .enc _ => true
  | _ => false

/-- The commands that write `RES`. -/
def mayWriteRes : Instr → Bool
  | .peek _ | .rdb _ | .rchk | .qhist _ | .qlen _ | .qcode _ | .dec | .decn | .decd | .uend => true
  | _ => false

/-- The commands that write `LAST` and `LASTV`. -/
def mayDecode : Instr → Bool
  | .dec | .decn | .decd => true
  | _ => false

/-! ### The tree construction as the spec words it -/

/-- The loop of 43_coder.md R223 on a queue without any order: extract the node with the least (w, seq), extract the least
of the rest, add their parent, until one node is left. `j` counts the merges. -/
inductive TreeRun : Nat → List QNode → QNode → Prop where
  | root (j : Nat) (n : QNode) : TreeRun j [n] n
  | merge (j : Nat) (q : List QNode) (a b n : QNode) (ha : a ∈ q) (hmin : ∀ x ∈ q, a.le x = true)
      (hb : b ∈ q.erase a) (hmin2 : ∀ x ∈ q.erase a, b.le x = true)
      (rest : TreeRun (j + 1) (mergeNode j a b :: (q.erase a).erase b) n) : TreeRun j q n

end Sys2Proof.Machine
end

