-- ==== Sys2Proof/Certificates/Slice0/Obligations.lean ====
section
/-! DEFINITION. The statements about the block, from the numbered rules of the spec. -/

open Sys2Proof Sys2Proof.Machine

/-! ## Encoding -/

/-- 30_encoding.md R110 to R113: words written out from the opcode map decode to their commands (sanity). -/
def Obligations.WordsFromTheOpcodeMapDecode : Prop :=
  decode 0x00000000 = .command .nop ∧ decode 0x20090000 = .command (.peek 9)
    ∧ decode 0x30030005 = .command (.putb 3 5) ∧ decode 0x33000041 = .command (.wraw 0x41)
    ∧ decode 0x41000061 = .command (.hadd 97) ∧ decode 0x51000102 = .command (.enc 258)
    ∧ decode 0x64000000 = .command .uend

/-- 30_encoding.md R110 to R113, R121: decoding the word of any command with operands in range gives that command back. -/
def Obligations.DecodeOfEncodeIsTheCommand : Prop :=
  ∀ i : Instr, i.wellFormed = true → decode (encode i) = .command i

/-- 30_encoding.md R117, R121: a word that decodes to a command is the one word of that command, and its operands are in
range; so no two words mean the same command. -/
def Obligations.AcceptedWordIsTheEncoding : Prop :=
  ∀ (w : Word) (i : Instr), decode w = .command i → encode i = w ∧ i.wellFormed = true

/-- 30_encoding.md R114: a reserved opcode raises `E_ILLEGAL_CMD` and has no other effect (60_exceptions.md R303). -/
def Obligations.ReservedOpcodeRaisesIllegal : Prop :=
  ∀ (s : State) (w : Word), s.errf = false → ¬ OpcodeDefined w →
    ∃ u, issue w s = .next u ∧ HaltsWith 0x01 s u ∧ u.source = s.source

/-- 30_encoding.md R115: a defined opcode with a bit set in a field its format requires to be 0 raises `E_ILLEGAL_CMD`. -/
def Obligations.BrokenLayoutRaisesIllegal : Prop :=
  ∀ (s : State) (w : Word), s.errf = false → OpcodeDefined w → LayoutBroken w →
    ∃ u, issue w s = .next u ∧ HaltsWith 0x01 s u ∧ u.source = s.source

/-- 30_encoding.md R116: a well-formed layout with an operand out of range raises `E_BAD_OPERAND`. -/
def Obligations.BrokenOperandRaisesBadOperand : Prop :=
  ∀ (s : State) (w : Word), s.errf = false → OpcodeDefined w → ¬ LayoutBroken w → OperandBroken w →
    ∃ u, issue w s = .next u ∧ HaltsWith 0x02 s u ∧ u.source = s.source

/-- 30_encoding.md R121: every other word is accepted: it decodes to a command. -/
def Obligations.UnbrokenWordIsAccepted : Prop :=
  ∀ w : Word, OpcodeDefined w → ¬ LayoutBroken w → ¬ OperandBroken w → ∃ i, decode w = .command i

/-! ## The step, halting and reset -/

/-- 10_state.md R45, 30_encoding.md R121: a write of a word to `CMD` issues it, and a word that decodes to `i` runs `i`. When that
write is the host's next access, the step is the issue, and so `exec i`, with the access no longer pending (that the host's
accesses stand in a list is the model's choice, log entry 1). -/
def Obligations.StepRunsTheDecodedCommand : Prop :=
  ∀ (s : State) (w : Word) (es : List HostEvent), Issues w es s →
    step s = issue w (s.setHost es) ∧ ∀ i : Instr, decode w = .command i → step s = exec i (s.setHost es)

/-- 60_exceptions.md R304: a halted block ignores every word but 0x01000000; `ERR` and `ERRF` read their held values. -/
def Obligations.HaltedBlockIgnoresAllButReset : Prop :=
  ∀ (s : State) (es : List HostEvent), s.errf = true →
    (∀ w, Issues w es s → w ≠ 0x01000000 → step s = .next (s.setHost es))
    ∧ (Reads 0x10 es s → step s = .next ((s.setHost es).answer (s.err.setWidth 32)))
    ∧ (Reads 0x04 es s → ∃ u, step s = .next u ∧ u.rdata.getLsbD 1 = true ∧ KeepsErr s u)

/-- 10_state.md R51, 70_reset_and_hazards.md R341: the reset state, SRST and the `RESET` input give every element its
reset value; the source and the sink are untouched (R342). -/
def Obligations.ResetGivesResetValues : Prop :=
  ResetValues State.reset
    ∧ (∀ s : State, ∃ u, exec .srst s = .next u ∧ ResetValues u ∧ u.source = s.source ∧ u.sink = s.sink
        ∧ KeepsHostSide s u)
    ∧ (∀ (s : State) (es : List HostEvent), s.host = .drive true :: es →
        ∃ u, step s = .next u ∧ ResetValues u ∧ u.source = s.source ∧ u.sink = s.sink ∧ u.resetIn = true)

/-- 70_reset_and_hazards.md R340, R342, R343: the first step after `RESET` was asserted and released sees the reset state;
releasing it changes nothing of the block, and presenting a source or a sink changes only that stream. That `RESET` is a level
and that these are steps of their own is the model's choice (log entries 1, 9 and 10). -/
def Obligations.ReleasedResetShowsTheResetState : Prop :=
  ∀ (s : State) (es : List HostEvent),
    (s.host = .drive true :: .drive false :: es →
      ∃ u v, step s = .next u ∧ step u = .next v ∧ ResetValues v ∧ v.resetIn = false ∧ v.host = es
        ∧ v.source = s.source ∧ v.sink = s.sink)
    ∧ (s.host = .drive false :: es → step s = .next { s with host := es, resetIn := false })
    ∧ (∀ bs, s.host = .attachSource bs :: es → step s = .next { s with host := es, source := bs })
    ∧ (s.host = .attachSink :: es → step s = .next { s with host := es, sink := [] })

/-- 60_exceptions.md R305, R306: a step that leaves the halted state is SRST or `RESET`; either gives every element its reset
value and no byte back to the source; any other step of a halted block keeps the recorded error. -/
def Obligations.HaltedStateIsLeftOnlyByReset : Prop :=
  ∀ s u : State, step s = .next u → s.errf = true →
    (u.errf = false → ∃ es, s.host = .drive true :: es ∨ s.host = .write 0 4 0x01000000 :: es)
    ∧ (∀ es, s.host = .drive true :: es ∨ s.host = .write 0 4 0x01000000 :: es → ResetValues u ∧ u.source = s.source)
    ∧ (u.errf = true → u.err = s.err)

/-- 20_memory.md R81, R98; 10_state.md R33, R42: every step keeps `RBUF` within 57 bits and `WBUF` within 7, `ERR` at a
defined code with `ERRF` saying whether it is an error, and, while not halted, the sum of the counts within 2^32 − 1. That the
buffers of a halted block keep these bounds is the model's (R55 and R303 leave them unspecified): log entry 5, DEDUCED. -/
def Obligations.StepKeepsBlockInv : Prop :=
  ∀ s u : State, BlockInv s → step s = .next u → BlockInv u

/-- 10_state.md R51: the reset state meets the invariant of buffers, error register and counts. -/
def Obligations.ResetMeetsBlockInv : Prop := BlockInv State.reset

/-- 10_state.md R35, R37, R43: every step of a block that meets the block invariant keeps the table valid while not halted:
whatever table BUILD or DHDR commits satisfies R37; without a table `T` is as after reset; `LAST` is a symbol id. -/
def Obligations.StepKeepsTableInv : Prop :=
  ∀ s u : State, BlockInv s → TableInv s → step s = .next u → TableInv u

/-- 10_state.md R51: the reset state meets the table invariant. -/
def Obligations.ResetMeetsTableInv : Prop := TableInv State.reset

/-- 10_state.md R50 (with R32, R41, R43): a command that completes without error changes only what it is listed for; reset
is the one command that clears. -/
def Obligations.OnlyListedCommandsWrite : Prop :=
  ∀ (i : Instr) (s u : State), s.wbuf.length ≤ 7 → s.errf = false → exec i s = .next u → u.errf = false →
    (u.hist ≠ s.hist → mayWriteHist i = true)
    ∧ (u.tv ≠ s.tv → (mayCommitTable i = true ∧ u.tv = true) ∨ (i = .srst ∧ u.tv = false))
    ∧ (u.t ≠ s.t → mayCommitTable i = true ∨ i = .srst)
    ∧ (u.reof ≠ s.reof → (mayRead i = true ∧ u.reof = true) ∨ (i = .srst ∧ u.reof = false))
    ∧ (u.rbuf ≠ s.rbuf → mayRead i = true ∨ i = .srst)
    ∧ (u.source ≠ s.source → mayRead i = true)
    ∧ (u.wbuf ≠ s.wbuf → mayChangePending i = true ∨ i = .srst)
    ∧ (u.sink ≠ s.sink → mayChangePending i = true ∨ ∃ b, i = .wraw b)
    ∧ (u.res ≠ s.res → mayWriteRes i = true ∨ i = .srst)
    ∧ (u.last ≠ s.last → mayDecode i = true ∨ i = .srst)
    ∧ (u.lastv ≠ s.lastv → (mayDecode i = true ∧ u.lastv = true) ∨ (i = .srst ∧ u.lastv = false))

/-- 20_memory.md R73, R76, R80: a command only takes bytes from the front of the source and only appends to the sink, and a
command that raises emits nothing. -/
def Obligations.StreamsOnlyMoveForward : Prop :=
  ∀ (i : Instr) (s u : State), exec i s = .next u →
    (∃ pulled, s.source = pulled ++ u.source) ∧ (∃ emitted, u.sink = s.sink ++ emitted)
    ∧ (s.errf = false → u.errf = true → u.sink = s.sink)

/-- 40_control.md R160: NOP leaves every state element unchanged, halted or not. -/
def Obligations.NopChangesNothing : Prop := ∀ s : State, exec .nop s = .next s

/-! ## The bit-stream reader -/

/-- 20_memory.md R81, R83, R88: `refill()` keeps the stream, ends with 50 bits buffered or at the end of the source, sets
`REOF` exactly if fewer are buffered, and pulls exactly the fewest whole bytes that buffer 50 bits, or the whole source. -/
def Obligations.RefillPullsTheFewestBytes : Prop :=
  ∀ s : State, (refill s).input = s.input
    ∧ (50 ≤ (refill s).rbuf.length ∨ (refill s).reof = true)
    ∧ (refill s).reof = (s.reof || decide ((refill s).rbuf.length < 50))
    ∧ (s.rbuf.length ≤ 57 → (refill s).rbuf.length ≤ 57)
    ∧ s.source.length - (refill s).source.length = min s.source.length ((50 - s.rbuf.length + 7) / 8)
    ∧ (refill s).source = s.source.drop (min s.source.length ((50 - s.rbuf.length + 7) / 8))

/-- 41_bitreader.md R170, 20_memory.md R83, R88: PEEK n returns the next n stream bits, least significant first, and consumes
none; it only looks ahead. -/
def Obligations.PeekReturnsTheNextBits : Prop :=
  ∀ (s : State) (n : BitVec 4), s.errf = false → 1 ≤ n.toNat → n.toNat ≤ 9 → n.toNat ≤ s.input.length →
    ∃ u, exec (.peek n) s = .next u ∧ u.res.toNat = lsbVal (s.input.take n.toNat) ∧ u.input = s.input
      ∧ LooksAhead 0 s u
      ∧ KeepsHist s u ∧ KeepsTable s u ∧ KeepsWriter s u ∧ KeepsLast s u ∧ KeepsErr s u ∧ KeepsHostSide s u

/-- 41_bitreader.md R171, 20_memory.md R85, R88: RDB n returns the next n stream bits, consumes them and looks ahead. -/
def Obligations.RdbReturnsAndConsumes : Prop :=
  ∀ (s : State) (n : BitVec 4), s.errf = false → 1 ≤ n.toNat → n.toNat ≤ 9 → n.toNat ≤ s.input.length →
    ∃ u, exec (.rdb n) s = .next u ∧ u.res.toNat = lsbVal (s.input.take n.toNat) ∧ u.input = s.input.drop n.toNat
      ∧ LooksAhead n.toNat s u
      ∧ KeepsHist s u ∧ KeepsTable s u ∧ KeepsWriter s u ∧ KeepsLast s u ∧ KeepsErr s u ∧ KeepsHostSide s u

/-- 41_bitreader.md R172, 20_memory.md R85, R88: SKIP n consumes the next n stream bits, looks ahead, and does not write
`RES`. -/
def Obligations.SkipOnlyConsumes : Prop :=
  ∀ (s : State) (n : BitVec 4), s.errf = false → 1 ≤ n.toNat → n.toNat ≤ 9 → n.toNat ≤ s.input.length →
    ∃ u, exec (.skip n) s = .next u ∧ u.input = s.input.drop n.toNat ∧ LooksAhead n.toNat s u
      ∧ KeepsRes s u ∧ KeepsHist s u ∧ KeepsTable s u ∧ KeepsWriter s u ∧ KeepsLast s u ∧ KeepsErr s u
      ∧ KeepsHostSide s u

/-- 20_memory.md R84: PEEK, RDB and SKIP raise `F_TRUNCATED` when fewer than n bits remain in the whole source. -/
def Obligations.ShortStreamTruncates : Prop :=
  ∀ (s : State) (n : BitVec 4) (i : Instr), s.errf = false → 1 ≤ n.toNat → n.toNat ≤ 9 → s.input.length < n.toNat →
    i = .peek n ∨ i = .rdb n ∨ i = .skip n →
    ∃ u, exec i s = .next u ∧ HaltsWith 0x10 s u ∧ u.source = []

/-- 41_bitreader.md R173, 20_memory.md R87, R88: RCHK answers 1 exactly when at most 8 stream bits remain, and consumes none;
it only looks ahead (that it does, against a remark of R170, is log entry 22, DEDUCED). -/
def Obligations.RchkTestsForPadding : Prop :=
  ∀ s : State, s.errf = false →
    ∃ u, exec .rchk s = .next u ∧ u.res = (if s.input.length ≤ 8 then 1 else 0) ∧ u.input = s.input
      ∧ LooksAhead 0 s u
      ∧ KeepsHist s u ∧ KeepsTable s u ∧ KeepsWriter s u ∧ KeepsLast s u ∧ KeepsErr s u ∧ KeepsHostSide s u

/-! ## The bit-stream writer -/

/-- 42_bitwriter.md R190: PUTB n, V appends the field's bits to the output stream, least significant first; the pending
count is taken modulo 8. -/
def Obligations.PutbAppendsTheField : Prop :=
  ∀ (s : State) (n : BitVec 4) (v : BitVec 9), s.errf = false → 1 ≤ n.toNat → n.toNat ≤ 9 → v.toNat < 2 ^ n.toNat →
    ∃ u, exec (.putb n v) s = .next u ∧ u.output = s.output ++ lsbSeq v.toNat n.toNat
      ∧ u.wbuf.length = (s.wbuf.length + n.toNat) % 8
      ∧ u.sink.length = s.sink.length + (s.wbuf.length + n.toNat) / 8
      ∧ KeepsHist s u ∧ KeepsTable s u ∧ KeepsReader s u ∧ KeepsRes s u ∧ KeepsLast s u ∧ KeepsErr s u
      ∧ KeepsHostSide s u

/-- 42_bitwriter.md R191, R192: FLB changes nothing (at most 7 bits are ever pending); FLA emits the pending bits in one
byte whose other, high-order bits are 0, and nothing when none is pending. -/
def Obligations.FlushesEmitWholeAndPaddedBytes : Prop :=
  ∀ s : State, s.errf = false → s.wbuf.length ≤ 7 →
    exec .flb s = .next s
    ∧ ∃ u, exec .fla s = .next u ∧ u.wbuf = [] ∧ (s.wbuf = [] → u.sink = s.sink)
      ∧ (s.wbuf ≠ [] → ∃ b : Byte, u.sink = s.sink ++ [b]
          ∧ byteBits b = s.wbuf ++ List.replicate (8 - s.wbuf.length) false)
      ∧ KeepsHist s u ∧ KeepsTable s u ∧ KeepsReader s u ∧ KeepsRes s u ∧ KeepsLast s u ∧ KeepsErr s u
      ∧ KeepsHostSide s u

/-- 20_memory.md R96, R98: whatever is pending, `flushWhileFull()` keeps the output stream and leaves at most 7 bits. -/
def Obligations.FlushWhileFullKeepsTheStream : Prop :=
  ∀ s : State, (flushWhileFull s).output = s.output ∧ (flushWhileFull s).wbuf.length = s.wbuf.length % 8
    ∧ ∃ emitted, (flushWhileFull s).sink = s.sink ++ emitted ∧ emitted.length = s.wbuf.length / 8

/-- 42_bitwriter.md R193: WRAW b emits exactly the byte b when no bit is pending, and raises `E_RAW_PENDING` otherwise. -/
def Obligations.WrawNeedsAnEmptyBuffer : Prop :=
  ∀ (s : State) (b : BitVec 8), s.errf = false →
    (s.wbuf = [] → ∃ u, exec (.wraw b) s = .next u ∧ u.sink = s.sink ++ [b] ∧ u.wbuf = []
      ∧ KeepsHist s u ∧ KeepsTable s u ∧ KeepsReader s u ∧ KeepsRes s u ∧ KeepsLast s u ∧ KeepsErr s u
      ∧ KeepsHostSide s u)
    ∧ (s.wbuf ≠ [] → ∃ u, exec (.wraw b) s = .next u ∧ HaltsWith 0x07 s u ∧ u.source = s.source)

/-! ## The histogram and the code table -/

/-- 43_coder.md R210: HCLR makes every count 0 and touches nothing else, the table included. -/
def Obligations.HclrClearsEveryCount : Prop :=
  ∀ s : State, s.errf = false →
    ∃ u, exec .hclr s = .next u ∧ (∀ x, countOf u.hist x = 0) ∧ total u.hist = 0
      ∧ KeepsTable s u ∧ KeepsReader s u ∧ KeepsWriter s u ∧ KeepsRes s u ∧ KeepsLast s u ∧ KeepsErr s u
      ∧ KeepsHostSide s u

/-- 43_coder.md R211: HADD s adds 1 to one count and to the sum, or raises `E_COUNT_OVERFLOW` when the sum is 2^32 − 1. -/
def Obligations.HaddCountsOneOccurrence : Prop :=
  ∀ (s : State) (x : BitVec 9), s.errf = false → x.toNat ≤ 258 →
    (total s.hist < 4294967295 → ∃ u, exec (.hadd x) s = .next u
      ∧ (∀ y, countOf u.hist y = if y = x.toNat then countOf s.hist y + 1 else countOf s.hist y)
      ∧ total u.hist = total s.hist + 1
      ∧ KeepsTable s u ∧ KeepsReader s u ∧ KeepsWriter s u ∧ KeepsRes s u ∧ KeepsLast s u ∧ KeepsErr s u
      ∧ KeepsHostSide s u)
    ∧ (total s.hist = 4294967295 → ∃ u, exec (.hadd x) s = .next u ∧ HaltsWith 0x03 s u ∧ u.source = s.source)

/-- 43_coder.md R212: HSEED raises each zero control count to 1 and leaves every other count, or raises
`E_COUNT_OVERFLOW` when the sum would exceed 2^32 − 1. -/
def Obligations.HseedForcesControlCounts : Prop :=
  ∀ s : State, s.errf = false →
    (total s.hist + (([256, 257, 258].filter fun c => countOf s.hist c = 0).length) ≤ 4294967295 →
      ∃ u, exec .hseed s = .next u
      ∧ (∀ y, countOf u.hist y = if y ∈ [256, 257, 258] ∧ countOf s.hist y = 0 then 1 else countOf s.hist y)
      ∧ total u.hist = total s.hist + ([256, 257, 258].filter fun c => countOf s.hist c = 0).length
      ∧ KeepsTable s u ∧ KeepsReader s u ∧ KeepsWriter s u ∧ KeepsRes s u ∧ KeepsLast s u ∧ KeepsErr s u
      ∧ KeepsHostSide s u)
    ∧ (4294967295 < total s.hist + (([256, 257, 258].filter fun c => countOf s.hist c = 0).length) →
      ∃ u, exec .hseed s = .next u ∧ HaltsWith 0x03 s u ∧ u.source = s.source)

/-- 43_coder.md R214: QHIST s returns the count of s. -/
def Obligations.QhistReturnsTheCount : Prop :=
  ∀ (s : State) (x : BitVec 9), s.errf = false → x.toNat ≤ 258 →
    ∃ u, exec (.qhist x) s = .next u ∧ u.res.toNat = countOf s.hist x.toNat
      ∧ KeepsHist s u ∧ KeepsTable s u ∧ KeepsReader s u ∧ KeepsWriter s u ∧ KeepsLast s u ∧ KeepsErr s u
      ∧ KeepsHostSide s u

/-- 43_coder.md R215, R216: QLEN and QCODE complete whatever the table; they return the length and the code of a present
symbol of a valid table, and all ones for an absent symbol or without a table. -/
def Obligations.QueriesReturnLengthAndCode : Prop :=
  ∀ (s : State) (x : BitVec 9), s.errf = false → x.toNat ≤ 258 →
    (∃ u, exec (.qlen x) s = .next u
      ∧ (s.tv = true → s.t.Valid → x ∈ s.t.symbols → u.res.toNat = s.t.len x)
      ∧ (s.tv = false ∨ x ∉ s.t.symbols → u.res = 0xFFFFFFFFFFFFFFFF)
      ∧ KeepsHist s u ∧ KeepsTable s u ∧ KeepsReader s u ∧ KeepsWriter s u ∧ KeepsLast s u ∧ KeepsErr s u
      ∧ KeepsHostSide s u)
    ∧ (∃ u, exec (.qcode x) s = .next u
      ∧ (s.tv = true → s.t.Valid → x ∈ s.t.symbols → u.res.toNat = s.t.code x)
      ∧ (s.tv = false ∨ x ∉ s.t.symbols → u.res = 0xFFFFFFFFFFFFFFFF)
      ∧ KeepsHist s u ∧ KeepsTable s u ∧ KeepsReader s u ∧ KeepsWriter s u ∧ KeepsLast s u ∧ KeepsErr s u
      ∧ KeepsHostSide s u)

/-- 43_coder.md R213, R220, R226, R227: BUILD commits a valid table of exactly the symbols with a non-zero count, each with its
depth in the tree as its length, in order of (length, symbol id), with its length counts and the largest length; `HIST` is not
changed. -/
def Obligations.BuildCommitsTheCanonicalTable : Prop :=
  ∀ s : State, s.errf = false → total s.hist ≠ 0 → total s.hist ≤ 4294967295 →
    ∃ u, exec .build s = .next u ∧ u.tv = true
      ∧ (∀ x : BitVec 9, x ∈ u.t.symbols ↔ countOf s.hist x.toNat ≠ 0)
      ∧ u.t.Valid ∧ u.t.symbols.length = u.t.k.toNat
      ∧ (∀ x ∈ codeLengths s.hist, u.t.len (BitVec.ofNat 9 x.sym) = x.len)
      ∧ u.t.symbols.Pairwise (fun x y => u.t.len x < u.t.len y ∨ (u.t.len x = u.t.len y ∧ x.toNat < y.toNat))
      ∧ (∀ i : Fin 259, u.t.k.toNat ≤ i.val → u.t.order[i] = 0)
      ∧ (∀ l, 1 ≤ l → l ≤ 50 → u.t.lcntAt l = (u.t.symbols.filter fun x => u.t.len x = l).length)
      ∧ (∀ x ∈ u.t.symbols, u.t.len x ≤ u.t.maxlen.toNat) ∧ (∃ x ∈ u.t.symbols, u.t.len x = u.t.maxlen.toNat)
      ∧ KeepsHist s u ∧ KeepsReader s u ∧ KeepsWriter s u ∧ KeepsRes s u ∧ KeepsLast s u ∧ KeepsErr s u
      ∧ KeepsHostSide s u

/-- 43_coder.md R221: BUILD of an all-zero histogram raises `E_EMPTY_HIST`. -/
def Obligations.BuildOfNothingRaisesEmptyHist : Prop :=
  ∀ s : State, s.errf = false → (∀ x, x ≤ 258 → countOf s.hist x = 0) →
    ∃ u, exec .build s = .next u ∧ HaltsWith 0x04 s u ∧ u.source = s.source

/-- 43_coder.md R223, R225: the code lengths are the leaf depths of a tree the spec's extraction loop makes. -/
def Obligations.CodeLengthsComeFromTheTreeLoop : Prop :=
  ∀ h : Vector (BitVec 32) 259, total h ≠ 0 →
    ∃ root, TreeRun 0 ((present h).map (leafNode h)) root ∧ codeLengths h = root.tree.depths 0

/-- 43_coder.md R222: one present symbol has length 0; with two or more every length is at least 1; with three or more
the largest is at least 2. -/
def Obligations.LengthsOfSmallAlphabets : Prop :=
  ∀ h : Vector (BitVec 32) 259,
    ((present h).length = 1 → codeLengths h = (present h).map fun x => ⟨0, x⟩)
    ∧ (2 ≤ (present h).length → ∀ x ∈ codeLengths h, 1 ≤ x.len)
    ∧ (3 ≤ (present h).length → ∃ x ∈ codeLengths h, 2 ≤ x.len)

/-- 43_coder.md R224: a leaf at depth d needs a total weight of at least F(d + 2), so with a sum of at most 2^32 − 1 no leaf is
deeper than 45; the bound is reached. -/
def Obligations.TreeDepthIsAtMost45 : Prop :=
  (∀ h : Vector (BitVec 32) 259, ∀ x ∈ codeLengths h, Nat.fib (x.len + 2) ≤ total h)
    ∧ (∀ h : Vector (BitVec 32) 259, total h ≤ 4294967295 → ∀ x ∈ codeLengths h, x.len ≤ 45)
    ∧ ∃ h : Vector (BitVec 32) 259, total h ≤ 4294967295 ∧ ∃ x ∈ codeLengths h, x.len = 45

/-- 43_coder.md R229: a table BUILD commits for at least two symbols is complete: its Kraft sum is exactly 1. -/
def Obligations.BuiltCodeIsComplete : Prop :=
  ∀ h : Vector (BitVec 32) 259, total h ≤ 4294967295 → 2 ≤ (present h).length → (buildTable h).kraft = 2 ^ 50

/-- 43_coder.md R229: `canon(T)` fails exactly when the Kraft sum of the length counts exceeds 1. -/
def Obligations.CanonFailsIffKraftExceedsOne : Prop :=
  ∀ t : CodeTable, 2 ≤ t.k.toNat → t.k.toNat ≤ 259 → t.maxlen.toNat ≤ 50 →
    (∀ l, t.maxlen.toNat < l → t.lcntAt l = 0) → t.lcntSum = t.k.toNat →
    (t.canon = none ↔ 2 ^ 50 < t.kraft)

/-- 43_coder.md R229, 10_state.md R38: in a valid table the codes of different symbols are prefix-free, first bit first, and
every code fits its length, which is at most 50. -/
def Obligations.ValidTableIsPrefixFree : Prop :=
  ∀ t : CodeTable, t.Valid →
    (∀ x ∈ t.symbols, t.len x ≤ 50 ∧ t.code x < 2 ^ t.len x)
    ∧ ∀ x ∈ t.symbols, ∀ y ∈ t.symbols, x ≠ y → ¬ t.codeBits x <+: t.codeBits y

/-! ## The encoder -/

/-- 44_encoder.md R250: EHDR appends exactly `header(T)` to the output stream. -/
def Obligations.EhdrEmitsTheHeader : Prop :=
  ∀ s : State, s.errf = false → s.tv = true → s.t.Valid →
    ∃ u, exec .ehdr s = .next u ∧ u.output = s.output ++ s.t.header
      ∧ u.wbuf.length = (s.wbuf.length + 9 * (1 + s.t.k.toNat + s.t.maxlen.toNat)) % 8
      ∧ KeepsHist s u ∧ KeepsTable s u ∧ KeepsReader s u ∧ KeepsRes s u ∧ KeepsLast s u ∧ KeepsErr s u
      ∧ KeepsHostSide s u

/-- 44_encoder.md R251: ENC s appends the code of a present symbol of a valid table, most significant bit first; an absent
symbol raises `E_SYMBOL_ABSENT`. -/
def Obligations.EncEmitsTheCode : Prop :=
  ∀ (s : State) (x : BitVec 9), s.errf = false → s.tv = true → x.toNat ≤ 258 →
    (s.t.Valid → x ∈ s.t.symbols → ∃ u, exec (.enc x) s = .next u ∧ u.output = s.output ++ msbSeq (s.t.code x) (s.t.len x)
      ∧ u.wbuf.length = (s.wbuf.length + s.t.len x) % 8
      ∧ KeepsHist s u ∧ KeepsTable s u ∧ KeepsReader s u ∧ KeepsRes s u ∧ KeepsLast s u ∧ KeepsErr s u
      ∧ KeepsHostSide s u)
    ∧ (x ∉ s.t.symbols → ∃ u, exec (.enc x) s = .next u ∧ HaltsWith 0x06 s u ∧ u.source = s.source)

/-- 10_state.md R35: EHDR, ENC, DEC, DECN and DECD raise `E_NO_TABLE` without a table, before anything is read. -/
def Obligations.CommandsWithoutTableRaiseNoTable : Prop :=
  ∀ (s : State) (i : Instr) (x : BitVec 9), s.errf = false → s.tv = false → x.toNat ≤ 258 →
    i = .ehdr ∨ i = .enc x ∨ i = .dec ∨ i = .decn ∨ i = .decd →
    ∃ u, exec i s = .next u ∧ HaltsWith 0x05 s u ∧ u.source = s.source

/-! ## The decoder -/

/-- 45_decoder.md R270, 30_encoding.md R140: DHDR of a stream that begins with the header of a valid table commits exactly
that table, consumes exactly the header and looks ahead (20_memory.md R88). -/
def Obligations.DhdrAcceptsEveryValidHeader : Prop :=
  ∀ (s : State) (t : CodeTable) (rest : Bits), s.errf = false → t.Valid → s.input = t.header ++ rest →
    ∃ u, exec .dhdr s = .next u ∧ u.t = t ∧ u.tv = true ∧ u.input = rest ∧ LooksAhead t.header.length s u
      ∧ KeepsHist s u ∧ KeepsWriter s u ∧ KeepsRes s u ∧ KeepsLast s u ∧ KeepsErr s u ∧ KeepsHostSide s u

/-- 45_decoder.md R270: whatever DHDR commits is a valid table whose header is exactly the bits it consumed; otherwise it
raises one of the errors the rule lists. -/
def Obligations.DhdrCommitsOnlyValidTables : Prop :=
  ∀ s u : State, s.errf = false → exec .dhdr s = .next u →
    (u.errf = false → u.tv = true ∧ u.t.Valid ∧ s.input = u.t.header ++ u.input
      ∧ LooksAhead u.t.header.length s u)
    ∧ (u.errf = true → u.err ∈ [0x10, 0x12, 0x13, 0x14, 0x15, 0x16, 0x17, 0x18])

/-- 45_decoder.md R270: the errors of a header's first field and of its symbol ids, at the first field that is wrong or that
the stream ends in; and the bytes pulled until then (60_exceptions.md R303). -/
def Obligations.DhdrRejectsBadCountsAndSymbols : Prop :=
  ∀ s : State, s.errf = false →
    (s.input.length < 9 → ∃ u, exec .dhdr s = .next u ∧ HaltsWith 0x10 s u ∧ u.source = [])
    ∧ ∀ (k : Nat) (rest : Bits), k < 512 → s.input = lsbSeq k 9 ++ rest →
      (k = 0 → ∃ u, exec .dhdr s = .next u ∧ HaltsAfter 0x12 9 s u)
      ∧ (259 < k → ∃ u, exec .dhdr s = .next u ∧ HaltsAfter 0x13 9 s u)
      ∧ (1 ≤ k → k ≤ 259 → ∀ (ids : List Nat) (tail : Bits), ids.length < k → ids.Nodup → (∀ y ∈ ids, y ≤ 258) →
          rest = ids.flatMap (fun y => lsbSeq y 9) ++ tail →
          (tail.length < 9 → ∃ u, exec .dhdr s = .next u ∧ HaltsWith 0x10 s u ∧ u.source = [])
          ∧ ∀ (x : Nat) (tail' : Bits), x < 512 → tail = lsbSeq x 9 ++ tail' →
            (258 < x → ∃ u, exec .dhdr s = .next u ∧ HaltsAfter 0x14 (9 * (ids.length + 2)) s u)
            ∧ (x ∈ ids → ∃ u, exec .dhdr s = .next u ∧ HaltsAfter 0x15 (9 * (ids.length + 2)) s u))

/-- 45_decoder.md R270: the errors of a header's length counts, after k distinct symbol ids: fifty counts that do not reach k
(raised before a further field is read), a stream that ends inside a count, a count that passes k, and counts whose codes do
not fit; and the bytes pulled until then (60_exceptions.md R303). -/
def Obligations.DhdrRejectsBadLengthCounts : Prop :=
  ∀ (s : State) (ids counts : List Nat) (tail : Bits), s.errf = false → 2 ≤ ids.length →
    ids.Nodup → (∀ y ∈ ids, y ≤ 258) → (∀ y ∈ counts, y < 512) → counts.sum < ids.length →
    s.input = lsbSeq ids.length 9 ++ ids.flatMap (fun y => lsbSeq y 9) ++ counts.flatMap (fun y => lsbSeq y 9) ++ tail →
    (counts.length = 50 → ∃ u, exec .dhdr s = .next u ∧ HaltsAfter 0x17 (9 * (ids.length + 51)) s u)
    ∧ (counts.length < 50 → tail.length < 9 → ∃ u, exec .dhdr s = .next u ∧ HaltsWith 0x10 s u ∧ u.source = [])
    ∧ ∀ (c : Nat) (tail' : Bits), c < 512 → tail = lsbSeq c 9 ++ tail' → counts.length < 50 →
      (ids.length < counts.sum + c →
        ∃ u, exec .dhdr s = .next u ∧ HaltsAfter 0x16 (9 * (ids.length + counts.length + 2)) s u)
      ∧ (counts.sum + c = ids.length →
        2 ^ 50 < ((List.range (counts ++ [c]).length).map fun j => (counts ++ [c])[j]?.getD 0 * 2 ^ (50 - (j + 1))).sum →
        ∃ u, exec .dhdr s = .next u ∧ HaltsAfter 0x18 (9 * (ids.length + counts.length + 2)) s u)

/-- 45_decoder.md R271 to R274: with a valid table, DEC, DECN and DECD of a stream that begins with the code of a symbol
that position accepts return the symbol, record it, consume exactly its code and look ahead; a table of one symbol reads nothing. -/
def Obligations.DecodersReturnTheCodedSymbol : Prop :=
  ∀ (s : State) (x : BitVec 9) (rest : Bits) (i : Instr), s.errf = false → s.tv = true → s.t.Valid → x ∈ s.t.symbols →
    s.input = s.t.codeBits x ++ rest →
    i = .dec ∨ (i = .decn ∧ x ≠ 257 ∧ x ≠ 258) ∨ (i = .decd ∧ x ≠ 256) →
    ∃ u, exec i s = .next u ∧ u.res.toNat = x.toNat ∧ u.last = x ∧ u.lastv = true ∧ u.input = rest
      ∧ (s.t.k = 1 → KeepsReader s u) ∧ (s.t.k ≠ 1 → LooksAhead (s.t.len x) s u)
      ∧ KeepsHist s u ∧ KeepsTable s u ∧ KeepsWriter s u ∧ KeepsErr s u ∧ KeepsHostSide s u

/-- 45_decoder.md R273, R274: a content terminator in a filename position, and `FILENAME_END` in a content position, raise
`F_CONTROL_IN_LITERAL`, after the symbol's code is consumed. -/
def Obligations.ControlSymbolsAreRejectedInLiterals : Prop :=
  ∀ (s : State) (x : BitVec 9) (rest : Bits) (i : Instr), s.errf = false → s.tv = true → s.t.Valid → x ∈ s.t.symbols →
    s.input = s.t.codeBits x ++ rest →
    (i = .decn ∧ (x = 257 ∨ x = 258)) ∨ (i = .decd ∧ x = 256) →
    ∃ u, exec i s = .next u ∧ HaltsWith 0x19 s u
      ∧ u.source = if s.t.k = 1 then s.source else s.source.drop (bytesAhead (s.t.len x) s.rbuf.length)

/-- 45_decoder.md R271: when no code begins the stream, the decoders raise `F_TRUNCATED` if the stream is shorter than the
longest code, and `F_NO_MATCH` if it is not. -/
def Obligations.DecodersRejectUnknownBits : Prop :=
  ∀ (s : State) (i : Instr), s.errf = false → s.tv = true → s.t.Valid →
    (∀ x ∈ s.t.symbols, ¬ s.t.codeBits x <+: s.input) → i = .dec ∨ i = .decn ∨ i = .decd →
    (s.input.length < s.t.maxlen.toNat → ∃ u, exec i s = .next u ∧ HaltsWith 0x10 s u ∧ u.source = [])
    ∧ (s.t.maxlen.toNat ≤ s.input.length → ∃ u, exec i s = .next u ∧ HaltsAfter 0x11 0 s u)

/-- 45_decoder.md R275: UEND answers 1 for ARCHIVE_END with at most 8 bits left and 0 for ONE_MORE_FILE with more, raises
`F_TERM_MISMATCH` for the other two cases, and `E_SEQUENCE` when no content terminator was decoded last; but for that last case it looks ahead. -/
def Obligations.UendChecksTheTerminator : Prop :=
  ∀ s : State, s.errf = false →
    (s.lastv = false ∨ (s.last ≠ 257 ∧ s.last ≠ 258) →
      ∃ u, exec .uend s = .next u ∧ HaltsWith 0x08 s u ∧ u.source = s.source)
    ∧ (s.lastv = true → (s.last = 258 ∧ s.input.length ≤ 8) ∨ (s.last = 257 ∧ 8 < s.input.length) →
      ∃ u, exec .uend s = .next u ∧ u.res = (if s.last = 258 then 1 else 0) ∧ u.input = s.input
        ∧ LooksAhead 0 s u
        ∧ KeepsHist s u ∧ KeepsTable s u ∧ KeepsWriter s u ∧ KeepsLast s u ∧ KeepsErr s u ∧ KeepsHostSide s u)
    ∧ (s.lastv = true → (s.last = 258 ∧ 8 < s.input.length) ∨ (s.last = 257 ∧ s.input.length ≤ 8) →
      ∃ u, exec .uend s = .next u ∧ HaltsAfter 0x1A 0 s u)

/-! ## The register map -/

/-- 10_state.md R40: a read of `STATUS` while not halted answers the flags and counts at their places, reserved bits 0; while
halted only `ERRF` is specified. -/
def Obligations.StatusReadGivesTheLayout : Prop :=
  ∀ (s : State) (es : List HostEvent), Reads 0x04 es s → BlockInv s →
    (s.errf = false → ∃ u, step s = .next u
      ∧ u.rdata.toNat = s.tv.toNat + 2 * s.errf.toNat + 4 * s.reof.toNat + 8 * s.lastv.toNat + 16 * s.rbuf.length
          + 1024 * s.wbuf.length + 65536 * s.t.k.toNat + 33554432 * s.t.maxlen.toNat
      ∧ u = (s.setHost es).answer u.rdata)
    ∧ (s.errf = true → ∃ u, step s = .next u ∧ u.rdata.getLsbD 1 = true ∧ KeepsErr s u)

/-- 10_state.md R45, R46: reads of `CMD`, `RES_LO`, `RES_HI`, `ERR` and the reserved offsets while not halted. -/
def Obligations.RegisterReadsFollowTheMap : Prop :=
  ∀ (s : State) (es : List HostEvent), s.errf = false →
    (Reads 0x08 es s → ∃ v, step s = .next ((s.setHost es).answer v) ∧ v.toNat = s.res.toNat % 2 ^ 32)
    ∧ (Reads 0x0C es s → ∃ v, step s = .next ((s.setHost es).answer v) ∧ v.toNat = s.res.toNat / 2 ^ 32)
    ∧ (Reads 0x10 es s → ∃ v, step s = .next ((s.setHost es).answer v) ∧ v.toNat = s.err.toNat)
    ∧ (∀ o ∈ [0x00, 0x14, 0x18, 0x1C], Reads o es s → step s = .next ((s.setHost es).answer 0))

/-- 10_state.md R47: a register read changes no state of the block and neither stream, halted or not; a write to a read-only
register or to a reserved offset is ignored. -/
def Obligations.ReadsAndIgnoredWritesHaveNoEffect : Prop :=
  ∀ (s : State) (es : List HostEvent) (o : Nat), s.resetIn = false → o % 4 = 0 → o < 0x20 →
    (s.host = .read o 4 :: es → ∃ u, step s = .next u ∧ KeepsHist s u ∧ KeepsTable s u ∧ KeepsReader s u
      ∧ KeepsWriter s u ∧ KeepsRes s u ∧ KeepsLast s u ∧ KeepsErr s u ∧ u.resetIn = s.resetIn ∧ u.host = es)
    ∧ (∀ w, o ≠ 0 → s.host = .write o 4 w :: es → step s = .next (s.setHost es))

/-- 10_state.md R46, 70_reset_and_hazards.md R340 (93_implementation_defined.md U8, U9): the accesses the spec leaves
outside are refused, each under its own name, and no other aligned access is. The refusals' names, their order, and that an
offset outside the map is refused are the model's choice (log entry 7). -/
def Obligations.OnlyUnspecifiedAccessesAreRefused : Prop :=
  ∀ (s : State) (es : List HostEvent) (o n : Nat) (w : Word) (e : HostEvent),
    e = .read o n ∨ e = .write o n w → s.host = e :: es →
    (s.resetIn = true → step s = .refused .accessDuringReset)
    ∧ (s.resetIn = false → ¬ (n = 4 ∧ o % 4 = 0) → step s = .refused .narrowOrMisalignedAccess)
    ∧ (s.resetIn = false → n = 4 → o % 4 = 0 → 0x20 ≤ o → step s = .refused .outsideRegisterMap)
    ∧ (s.resetIn = false → n = 4 → o % 4 = 0 → o < 0x20 → ∃ u, step s = .next u)

/-! ## The host's programs over the block -/

/-- 44_encoder.md R252, R253, 30_encoding.md R142: the commands of `ENCODE_UNIT` complete for every name and content whose
counts fit, and append exactly one encoding unit to the output stream, coded with the table they build. -/
def Obligations.EncodeUnitEmitsTheUnit : Prop :=
  ∀ (s : State) (name data : List Byte) (last : Bool), s.errf = false → name.length + data.length + 3 ≤ 4294967295 →
    ∃ u, runProgram (encodeUnit name data last) s = some u ∧ u.errf = false ∧ u.tv = true ∧ u.t.Valid
      ∧ u.output = s.output ++ u.t.unitBits name data (if last then 258 else 257)

/-- 45_decoder.md R278, the round trip: the archive the encoding program writes is decoded by the decoding loop to the same
names and contents, in the same order. Both sides may start in any running state with empty buffers; each file's length is
within what the 32-bit counts hold, which the rule does not say; that no file at all is encoded by FLA alone is the model's
choice (log entry 21). -/
def Obligations.DecodingAnArchiveReturnsItsFiles : Prop :=
  ∀ (s d : State) (files : List File), s.errf = false → s.wbuf = [] → s.sink = [] →
    (∀ f ∈ files, f.1.length + f.2.length + 3 ≤ 4294967295) →
    ∃ u, runProgram (archiveProgram files) s = some u ∧ u.wbuf = []
      ∧ (d.errf = false → d.rbuf = [] → d.source = u.sink → ∃ fuel, decodeArchive fuel d = some files)
end

