-- ==== Sys2Proof/Laws/State.lean ====
section
/-! SUPPORT. One lemma per field per named update of the state, each true by definition, so that no later proof unfolds a
record update; the same for the halted state and for the reset. -/

namespace Sys2Proof.Machine

variable (s : State)

/-! ### setRes -/

@[simp] theorem State.setRes_hist (v : BitVec 64) : (s.setRes v).hist = s.hist := rfl
@[simp] theorem State.setRes_tv (v : BitVec 64) : (s.setRes v).tv = s.tv := rfl
@[simp] theorem State.setRes_t (v : BitVec 64) : (s.setRes v).t = s.t := rfl
@[simp] theorem State.setRes_rbuf (v : BitVec 64) : (s.setRes v).rbuf = s.rbuf := rfl
@[simp] theorem State.setRes_reof (v : BitVec 64) : (s.setRes v).reof = s.reof := rfl
@[simp] theorem State.setRes_wbuf (v : BitVec 64) : (s.setRes v).wbuf = s.wbuf := rfl
@[simp] theorem State.setRes_res (v : BitVec 64) : (s.setRes v).res = v := rfl
@[simp] theorem State.setRes_err (v : BitVec 64) : (s.setRes v).err = s.err := rfl
@[simp] theorem State.setRes_errf (v : BitVec 64) : (s.setRes v).errf = s.errf := rfl
@[simp] theorem State.setRes_last (v : BitVec 64) : (s.setRes v).last = s.last := rfl
@[simp] theorem State.setRes_lastv (v : BitVec 64) : (s.setRes v).lastv = s.lastv := rfl
@[simp] theorem State.setRes_source (v : BitVec 64) : (s.setRes v).source = s.source := rfl
@[simp] theorem State.setRes_sink (v : BitVec 64) : (s.setRes v).sink = s.sink := rfl
@[simp] theorem State.setRes_resetIn (v : BitVec 64) : (s.setRes v).resetIn = s.resetIn := rfl
@[simp] theorem State.setRes_host (v : BitVec 64) : (s.setRes v).host = s.host := rfl
@[simp] theorem State.setRes_rdata (v : BitVec 64) : (s.setRes v).rdata = s.rdata := rfl
@[simp] theorem State.setRes_free (v : BitVec 64) : (s.setRes v).free = s.free := rfl

/-! ### setLast -/

@[simp] theorem State.setLast_hist (x : BitVec 9) : (s.setLast x).hist = s.hist := rfl
@[simp] theorem State.setLast_tv (x : BitVec 9) : (s.setLast x).tv = s.tv := rfl
@[simp] theorem State.setLast_t (x : BitVec 9) : (s.setLast x).t = s.t := rfl
@[simp] theorem State.setLast_rbuf (x : BitVec 9) : (s.setLast x).rbuf = s.rbuf := rfl
@[simp] theorem State.setLast_reof (x : BitVec 9) : (s.setLast x).reof = s.reof := rfl
@[simp] theorem State.setLast_wbuf (x : BitVec 9) : (s.setLast x).wbuf = s.wbuf := rfl
@[simp] theorem State.setLast_res (x : BitVec 9) : (s.setLast x).res = s.res := rfl
@[simp] theorem State.setLast_err (x : BitVec 9) : (s.setLast x).err = s.err := rfl
@[simp] theorem State.setLast_errf (x : BitVec 9) : (s.setLast x).errf = s.errf := rfl
@[simp] theorem State.setLast_last (x : BitVec 9) : (s.setLast x).last = x := rfl
@[simp] theorem State.setLast_lastv (x : BitVec 9) : (s.setLast x).lastv = true := rfl
@[simp] theorem State.setLast_source (x : BitVec 9) : (s.setLast x).source = s.source := rfl
@[simp] theorem State.setLast_sink (x : BitVec 9) : (s.setLast x).sink = s.sink := rfl
@[simp] theorem State.setLast_resetIn (x : BitVec 9) : (s.setLast x).resetIn = s.resetIn := rfl
@[simp] theorem State.setLast_host (x : BitVec 9) : (s.setLast x).host = s.host := rfl
@[simp] theorem State.setLast_rdata (x : BitVec 9) : (s.setLast x).rdata = s.rdata := rfl
@[simp] theorem State.setLast_free (x : BitVec 9) : (s.setLast x).free = s.free := rfl

/-! ### setHist -/

@[simp] theorem State.setHist_hist (h : Vector (BitVec 32) 259) : (s.setHist h).hist = h := rfl
@[simp] theorem State.setHist_tv (h : Vector (BitVec 32) 259) : (s.setHist h).tv = s.tv := rfl
@[simp] theorem State.setHist_t (h : Vector (BitVec 32) 259) : (s.setHist h).t = s.t := rfl
@[simp] theorem State.setHist_rbuf (h : Vector (BitVec 32) 259) : (s.setHist h).rbuf = s.rbuf := rfl
@[simp] theorem State.setHist_reof (h : Vector (BitVec 32) 259) : (s.setHist h).reof = s.reof := rfl
@[simp] theorem State.setHist_wbuf (h : Vector (BitVec 32) 259) : (s.setHist h).wbuf = s.wbuf := rfl
@[simp] theorem State.setHist_res (h : Vector (BitVec 32) 259) : (s.setHist h).res = s.res := rfl
@[simp] theorem State.setHist_err (h : Vector (BitVec 32) 259) : (s.setHist h).err = s.err := rfl
@[simp] theorem State.setHist_errf (h : Vector (BitVec 32) 259) : (s.setHist h).errf = s.errf := rfl
@[simp] theorem State.setHist_last (h : Vector (BitVec 32) 259) : (s.setHist h).last = s.last := rfl
@[simp] theorem State.setHist_lastv (h : Vector (BitVec 32) 259) : (s.setHist h).lastv = s.lastv := rfl
@[simp] theorem State.setHist_source (h : Vector (BitVec 32) 259) : (s.setHist h).source = s.source := rfl
@[simp] theorem State.setHist_sink (h : Vector (BitVec 32) 259) : (s.setHist h).sink = s.sink := rfl
@[simp] theorem State.setHist_resetIn (h : Vector (BitVec 32) 259) : (s.setHist h).resetIn = s.resetIn := rfl
@[simp] theorem State.setHist_host (h : Vector (BitVec 32) 259) : (s.setHist h).host = s.host := rfl
@[simp] theorem State.setHist_rdata (h : Vector (BitVec 32) 259) : (s.setHist h).rdata = s.rdata := rfl
@[simp] theorem State.setHist_free (h : Vector (BitVec 32) 259) : (s.setHist h).free = s.free := rfl

/-! ### setTable -/

@[simp] theorem State.setTable_hist (t : CodeTable) : (s.setTable t).hist = s.hist := rfl
@[simp] theorem State.setTable_tv (t : CodeTable) : (s.setTable t).tv = true := rfl
@[simp] theorem State.setTable_t (t : CodeTable) : (s.setTable t).t = t := rfl
@[simp] theorem State.setTable_rbuf (t : CodeTable) : (s.setTable t).rbuf = s.rbuf := rfl
@[simp] theorem State.setTable_reof (t : CodeTable) : (s.setTable t).reof = s.reof := rfl
@[simp] theorem State.setTable_wbuf (t : CodeTable) : (s.setTable t).wbuf = s.wbuf := rfl
@[simp] theorem State.setTable_res (t : CodeTable) : (s.setTable t).res = s.res := rfl
@[simp] theorem State.setTable_err (t : CodeTable) : (s.setTable t).err = s.err := rfl
@[simp] theorem State.setTable_errf (t : CodeTable) : (s.setTable t).errf = s.errf := rfl
@[simp] theorem State.setTable_last (t : CodeTable) : (s.setTable t).last = s.last := rfl
@[simp] theorem State.setTable_lastv (t : CodeTable) : (s.setTable t).lastv = s.lastv := rfl
@[simp] theorem State.setTable_source (t : CodeTable) : (s.setTable t).source = s.source := rfl
@[simp] theorem State.setTable_sink (t : CodeTable) : (s.setTable t).sink = s.sink := rfl
@[simp] theorem State.setTable_resetIn (t : CodeTable) : (s.setTable t).resetIn = s.resetIn := rfl
@[simp] theorem State.setTable_host (t : CodeTable) : (s.setTable t).host = s.host := rfl
@[simp] theorem State.setTable_rdata (t : CodeTable) : (s.setTable t).rdata = s.rdata := rfl
@[simp] theorem State.setTable_free (t : CodeTable) : (s.setTable t).free = s.free := rfl

/-! ### setReader -/

@[simp] theorem State.setReader_hist (q : Bits) (e : Bool) (bs : List Byte) : (s.setReader q e bs).hist = s.hist := rfl
@[simp] theorem State.setReader_tv (q : Bits) (e : Bool) (bs : List Byte) : (s.setReader q e bs).tv = s.tv := rfl
@[simp] theorem State.setReader_t (q : Bits) (e : Bool) (bs : List Byte) : (s.setReader q e bs).t = s.t := rfl
@[simp] theorem State.setReader_rbuf (q : Bits) (e : Bool) (bs : List Byte) : (s.setReader q e bs).rbuf = q := rfl
@[simp] theorem State.setReader_reof (q : Bits) (e : Bool) (bs : List Byte) : (s.setReader q e bs).reof = e := rfl
@[simp] theorem State.setReader_wbuf (q : Bits) (e : Bool) (bs : List Byte) : (s.setReader q e bs).wbuf = s.wbuf := rfl
@[simp] theorem State.setReader_res (q : Bits) (e : Bool) (bs : List Byte) : (s.setReader q e bs).res = s.res := rfl
@[simp] theorem State.setReader_err (q : Bits) (e : Bool) (bs : List Byte) : (s.setReader q e bs).err = s.err := rfl
@[simp] theorem State.setReader_errf (q : Bits) (e : Bool) (bs : List Byte) : (s.setReader q e bs).errf = s.errf := rfl
@[simp] theorem State.setReader_last (q : Bits) (e : Bool) (bs : List Byte) : (s.setReader q e bs).last = s.last := rfl
@[simp] theorem State.setReader_lastv (q : Bits) (e : Bool) (bs : List Byte) : (s.setReader q e bs).lastv = s.lastv := rfl
@[simp] theorem State.setReader_source (q : Bits) (e : Bool) (bs : List Byte) : (s.setReader q e bs).source = bs := rfl
@[simp] theorem State.setReader_sink (q : Bits) (e : Bool) (bs : List Byte) : (s.setReader q e bs).sink = s.sink := rfl
@[simp] theorem State.setReader_resetIn (q : Bits) (e : Bool) (bs : List Byte) : (s.setReader q e bs).resetIn = s.resetIn := rfl
@[simp] theorem State.setReader_host (q : Bits) (e : Bool) (bs : List Byte) : (s.setReader q e bs).host = s.host := rfl
@[simp] theorem State.setReader_rdata (q : Bits) (e : Bool) (bs : List Byte) : (s.setReader q e bs).rdata = s.rdata := rfl
@[simp] theorem State.setReader_free (q : Bits) (e : Bool) (bs : List Byte) : (s.setReader q e bs).free = s.free := rfl

/-! ### setWriter -/

@[simp] theorem State.setWriter_hist (q : Bits) (bs : List Byte) : (s.setWriter q bs).hist = s.hist := rfl
@[simp] theorem State.setWriter_tv (q : Bits) (bs : List Byte) : (s.setWriter q bs).tv = s.tv := rfl
@[simp] theorem State.setWriter_t (q : Bits) (bs : List Byte) : (s.setWriter q bs).t = s.t := rfl
@[simp] theorem State.setWriter_rbuf (q : Bits) (bs : List Byte) : (s.setWriter q bs).rbuf = s.rbuf := rfl
@[simp] theorem State.setWriter_reof (q : Bits) (bs : List Byte) : (s.setWriter q bs).reof = s.reof := rfl
@[simp] theorem State.setWriter_wbuf (q : Bits) (bs : List Byte) : (s.setWriter q bs).wbuf = q := rfl
@[simp] theorem State.setWriter_res (q : Bits) (bs : List Byte) : (s.setWriter q bs).res = s.res := rfl
@[simp] theorem State.setWriter_err (q : Bits) (bs : List Byte) : (s.setWriter q bs).err = s.err := rfl
@[simp] theorem State.setWriter_errf (q : Bits) (bs : List Byte) : (s.setWriter q bs).errf = s.errf := rfl
@[simp] theorem State.setWriter_last (q : Bits) (bs : List Byte) : (s.setWriter q bs).last = s.last := rfl
@[simp] theorem State.setWriter_lastv (q : Bits) (bs : List Byte) : (s.setWriter q bs).lastv = s.lastv := rfl
@[simp] theorem State.setWriter_source (q : Bits) (bs : List Byte) : (s.setWriter q bs).source = s.source := rfl
@[simp] theorem State.setWriter_sink (q : Bits) (bs : List Byte) : (s.setWriter q bs).sink = bs := rfl
@[simp] theorem State.setWriter_resetIn (q : Bits) (bs : List Byte) : (s.setWriter q bs).resetIn = s.resetIn := rfl
@[simp] theorem State.setWriter_host (q : Bits) (bs : List Byte) : (s.setWriter q bs).host = s.host := rfl
@[simp] theorem State.setWriter_rdata (q : Bits) (bs : List Byte) : (s.setWriter q bs).rdata = s.rdata := rfl
@[simp] theorem State.setWriter_free (q : Bits) (bs : List Byte) : (s.setWriter q bs).free = s.free := rfl

/-! ### answer -/

@[simp] theorem State.answer_hist (v : BitVec 32) : (s.answer v).hist = s.hist := rfl
@[simp] theorem State.answer_tv (v : BitVec 32) : (s.answer v).tv = s.tv := rfl
@[simp] theorem State.answer_t (v : BitVec 32) : (s.answer v).t = s.t := rfl
@[simp] theorem State.answer_rbuf (v : BitVec 32) : (s.answer v).rbuf = s.rbuf := rfl
@[simp] theorem State.answer_reof (v : BitVec 32) : (s.answer v).reof = s.reof := rfl
@[simp] theorem State.answer_wbuf (v : BitVec 32) : (s.answer v).wbuf = s.wbuf := rfl
@[simp] theorem State.answer_res (v : BitVec 32) : (s.answer v).res = s.res := rfl
@[simp] theorem State.answer_err (v : BitVec 32) : (s.answer v).err = s.err := rfl
@[simp] theorem State.answer_errf (v : BitVec 32) : (s.answer v).errf = s.errf := rfl
@[simp] theorem State.answer_last (v : BitVec 32) : (s.answer v).last = s.last := rfl
@[simp] theorem State.answer_lastv (v : BitVec 32) : (s.answer v).lastv = s.lastv := rfl
@[simp] theorem State.answer_source (v : BitVec 32) : (s.answer v).source = s.source := rfl
@[simp] theorem State.answer_sink (v : BitVec 32) : (s.answer v).sink = s.sink := rfl
@[simp] theorem State.answer_resetIn (v : BitVec 32) : (s.answer v).resetIn = s.resetIn := rfl
@[simp] theorem State.answer_host (v : BitVec 32) : (s.answer v).host = s.host := rfl
@[simp] theorem State.answer_rdata (v : BitVec 32) : (s.answer v).rdata = v := rfl
@[simp] theorem State.answer_free (v : BitVec 32) : (s.answer v).free = s.free := rfl

/-! ### answerFree -/

@[simp] theorem State.answerFree_hist (v : BitVec 32) : (s.answerFree v).hist = s.hist := rfl
@[simp] theorem State.answerFree_tv (v : BitVec 32) : (s.answerFree v).tv = s.tv := rfl
@[simp] theorem State.answerFree_t (v : BitVec 32) : (s.answerFree v).t = s.t := rfl
@[simp] theorem State.answerFree_rbuf (v : BitVec 32) : (s.answerFree v).rbuf = s.rbuf := rfl
@[simp] theorem State.answerFree_reof (v : BitVec 32) : (s.answerFree v).reof = s.reof := rfl
@[simp] theorem State.answerFree_wbuf (v : BitVec 32) : (s.answerFree v).wbuf = s.wbuf := rfl
@[simp] theorem State.answerFree_res (v : BitVec 32) : (s.answerFree v).res = s.res := rfl
@[simp] theorem State.answerFree_err (v : BitVec 32) : (s.answerFree v).err = s.err := rfl
@[simp] theorem State.answerFree_errf (v : BitVec 32) : (s.answerFree v).errf = s.errf := rfl
@[simp] theorem State.answerFree_last (v : BitVec 32) : (s.answerFree v).last = s.last := rfl
@[simp] theorem State.answerFree_lastv (v : BitVec 32) : (s.answerFree v).lastv = s.lastv := rfl
@[simp] theorem State.answerFree_source (v : BitVec 32) : (s.answerFree v).source = s.source := rfl
@[simp] theorem State.answerFree_sink (v : BitVec 32) : (s.answerFree v).sink = s.sink := rfl
@[simp] theorem State.answerFree_resetIn (v : BitVec 32) : (s.answerFree v).resetIn = s.resetIn := rfl
@[simp] theorem State.answerFree_host (v : BitVec 32) : (s.answerFree v).host = s.host := rfl
@[simp] theorem State.answerFree_rdata (v : BitVec 32) : (s.answerFree v).rdata = v := rfl
@[simp] theorem State.answerFree_free (v : BitVec 32) : (s.answerFree v).free = s.free + 1 := rfl

/-! ### setHost -/

@[simp] theorem State.setHost_hist (es : List HostEvent) : (s.setHost es).hist = s.hist := rfl
@[simp] theorem State.setHost_tv (es : List HostEvent) : (s.setHost es).tv = s.tv := rfl
@[simp] theorem State.setHost_t (es : List HostEvent) : (s.setHost es).t = s.t := rfl
@[simp] theorem State.setHost_rbuf (es : List HostEvent) : (s.setHost es).rbuf = s.rbuf := rfl
@[simp] theorem State.setHost_reof (es : List HostEvent) : (s.setHost es).reof = s.reof := rfl
@[simp] theorem State.setHost_wbuf (es : List HostEvent) : (s.setHost es).wbuf = s.wbuf := rfl
@[simp] theorem State.setHost_res (es : List HostEvent) : (s.setHost es).res = s.res := rfl
@[simp] theorem State.setHost_err (es : List HostEvent) : (s.setHost es).err = s.err := rfl
@[simp] theorem State.setHost_errf (es : List HostEvent) : (s.setHost es).errf = s.errf := rfl
@[simp] theorem State.setHost_last (es : List HostEvent) : (s.setHost es).last = s.last := rfl
@[simp] theorem State.setHost_lastv (es : List HostEvent) : (s.setHost es).lastv = s.lastv := rfl
@[simp] theorem State.setHost_source (es : List HostEvent) : (s.setHost es).source = s.source := rfl
@[simp] theorem State.setHost_sink (es : List HostEvent) : (s.setHost es).sink = s.sink := rfl
@[simp] theorem State.setHost_resetIn (es : List HostEvent) : (s.setHost es).resetIn = s.resetIn := rfl
@[simp] theorem State.setHost_host (es : List HostEvent) : (s.setHost es).host = es := rfl
@[simp] theorem State.setHost_rdata (es : List HostEvent) : (s.setHost es).rdata = s.rdata := rfl
@[simp] theorem State.setHost_free (es : List HostEvent) : (s.setHost es).free = s.free := rfl

/-! ### enterHalt: what 60_exceptions.md R303 fixes -/

@[simp] theorem enterHalt_err (e : ErrCode) : (enterHalt e s).err = e.code := rfl
@[simp] theorem enterHalt_errf (e : ErrCode) : (enterHalt e s).errf = true := rfl
@[simp] theorem enterHalt_source (e : ErrCode) : (enterHalt e s).source = s.source := rfl
@[simp] theorem enterHalt_sink (e : ErrCode) : (enterHalt e s).sink = s.sink := rfl
@[simp] theorem enterHalt_resetIn (e : ErrCode) : (enterHalt e s).resetIn = s.resetIn := rfl
@[simp] theorem enterHalt_host (e : ErrCode) : (enterHalt e s).host = s.host := rfl
@[simp] theorem enterHalt_rdata (e : ErrCode) : (enterHalt e s).rdata = s.rdata := rfl
@[simp] theorem enterHalt_free (e : ErrCode) : (enterHalt e s).free = s.free + 1 := rfl

/-! ### blockReset (10_state.md R51, 70_reset_and_hazards.md R342) -/

@[simp] theorem blockReset_hist : (blockReset s).hist = Vector.replicate 259 0 := rfl
@[simp] theorem blockReset_tv : (blockReset s).tv = false := rfl
@[simp] theorem blockReset_t : (blockReset s).t = CodeTable.reset := rfl
@[simp] theorem blockReset_rbuf : (blockReset s).rbuf = [] := rfl
@[simp] theorem blockReset_reof : (blockReset s).reof = false := rfl
@[simp] theorem blockReset_wbuf : (blockReset s).wbuf = [] := rfl
@[simp] theorem blockReset_res : (blockReset s).res = 0 := rfl
@[simp] theorem blockReset_err : (blockReset s).err = 0 := rfl
@[simp] theorem blockReset_errf : (blockReset s).errf = false := rfl
@[simp] theorem blockReset_last : (blockReset s).last = 0 := rfl
@[simp] theorem blockReset_lastv : (blockReset s).lastv = false := rfl
@[simp] theorem blockReset_source : (blockReset s).source = s.source := rfl
@[simp] theorem blockReset_sink : (blockReset s).sink = s.sink := rfl
@[simp] theorem blockReset_resetIn : (blockReset s).resetIn = s.resetIn := rfl
@[simp] theorem blockReset_host : (blockReset s).host = s.host := rfl
@[simp] theorem blockReset_rdata : (blockReset s).rdata = s.rdata := rfl
@[simp] theorem blockReset_free : (blockReset s).free = s.free := rfl

end Sys2Proof.Machine
end

