-- ==== Sys2Proof/Laws/Ops.lean ====
section
/-! SUPPORT. What each shared operation can do, said once: the conversions of bit sequences, a command's outcome, the reader
and writer primitives. Later proofs cite these and do not unfold the operations. -/

namespace Sys2Proof.Machine

/-! ### Bit sequences -/

@[simp] theorem length_lsbSeq (v n : Nat) : (lsbSeq v n).length = n := by simp [lsbSeq]

@[simp] theorem length_msbSeq (c l : Nat) : (msbSeq c l).length = l := by simp [msbSeq]

@[simp] theorem length_byteBits (b : Byte) : (byteBits b).length = 8 := by simp [byteBits]

theorem streamBits_append (xs ys : List Byte) : streamBits (xs ++ ys) = streamBits xs ++ streamBits ys := by
  simp [streamBits]

theorem length_streamBits (bs : List Byte) : (streamBits bs).length = 8 * bs.length := by
  induction bs with
  | nil => rfl
  | cons b bs ih => simp [streamBits] at ih ⊢; omega

theorem lsbSeq_succ (v n : Nat) : lsbSeq v (n + 1) = v.testBit 0 :: lsbSeq (v / 2) n := by
  simp [lsbSeq, List.range_succ_eq_map, Nat.testBit_succ]

theorem lsbSeq_lsbVal (q : Bits) : lsbSeq (lsbVal q) q.length = q := by
  induction q with
  | nil => rfl
  | cons b q ih =>
    have h2 : (b.toNat + 2 * lsbVal q) / 2 = lsbVal q := by cases b <;> simp <;> omega
    have h0 : (b.toNat + 2 * lsbVal q).testBit 0 = b := by cases b <;> simp [Nat.testBit_zero]
    simp only [lsbVal, List.length_cons, lsbSeq_succ, h2, h0, ih]

theorem lsbVal_lt (q : Bits) : lsbVal q < 2 ^ q.length := by
  induction q with
  | nil => decide
  | cons b q ih =>
    have : b.toNat ≤ 1 := by cases b <;> decide
    simp only [lsbVal, List.length_cons, Nat.pow_succ]; omega

theorem lsbVal_lsbSeq (v n : Nat) : lsbVal (lsbSeq v n) = v % 2 ^ n := by
  induction n generalizing v with
  | zero => simp [lsbSeq, lsbVal, Nat.mod_one]
  | succ n ih =>
    have hm : v % 2 ^ (n + 1) = v % 2 + 2 * (v / 2 % 2 ^ n) := by
      rw [Nat.pow_succ, Nat.mul_comm, Nat.mod_mul]
    have hb : (v.testBit 0).toNat = v % 2 := by
      rw [Nat.testBit_zero]; rcases Nat.mod_two_eq_zero_or_one v with h | h <;> simp [h]
    rw [lsbSeq_succ, lsbVal, ih, hm, hb]

/-- The bits of the byte formed from eight bits are those bits (20_memory.md R71, both directions). -/
theorem byteBits_byteOf {q : Bits} (h : q.length = 8) : byteBits (byteOf q) = q := by
  have hlt := lsbVal_lt q
  have : lsbVal q % 256 = lsbVal q := Nat.mod_eq_of_lt (by simpa [h] using hlt)
  have hq := lsbSeq_lsbVal q
  rw [h] at hq
  simp [byteBits, byteOf, this, hq]

/-! ### Commands -/

@[simp] theorem Ran.andThen_done {α β : Type} (a : α) (s : State) (f : α → State → Ran β) :
    (Ran.done a s).andThen f = f a s := rfl

@[simp] theorem Ran.andThen_raised {α β : Type} (e : ErrCode) (s : State) (f : α → State → Ran β) :
    (Ran.raised e s : Ran α).andThen f = .raised e s := rfl

@[simp] theorem Ran.outcome_done (s : State) : (Ran.done () s).outcome = .next s := rfl

@[simp] theorem Ran.outcome_raised (e : ErrCode) (s : State) :
    (Ran.raised e s : Ran Unit).outcome = .next (enterHalt e s) := rfl

theorem Ran.andThen_eq_done {α β : Type} {r : Ran α} {f : α → State → Ran β} {b : β} {t : State}
    (h : r.andThen f = .done b t) : ∃ a u, r = .done a u ∧ f a u = .done b t := by
  cases r with
  | done a u => exact ⟨a, u, rfl, h⟩
  | raised e u => cases h

theorem Ran.andThen_eq_raised {α β : Type} {r : Ran α} {f : α → State → Ran β} {e : ErrCode} {t : State}
    (h : r.andThen f = .raised e t) : r = .raised e t ∨ ∃ a u, r = .done a u ∧ f a u = .raised e t := by
  cases r with
  | done a u => exact .inr ⟨a, u, rfl, h⟩
  | raised e' u => cases h; exact .inl rfl

theorem command_halted {s : State} (h : s.errf = true) (body : State → Ran Unit) : command s body = .next s := by
  simp [command, h]

theorem command_running {s : State} (h : s.errf = false) (body : State → Ran Unit) :
    command s body = (body s).outcome := by simp [command, h]

/-- All that a command can do: nothing while halted, its whole body, or the halted state at a raise. -/
theorem command_cases {s t : State} {body : State → Ran Unit} (h : command s body = .next t) :
    (s.errf = true ∧ t = s) ∨ (s.errf = false ∧ body s = .done () t)
      ∨ (s.errf = false ∧ ∃ e u, body s = .raised e u ∧ t = enterHalt e u) := by
  cases hs : s.errf with
  | true => rw [command_halted hs] at h; cases h; exact .inl ⟨rfl, rfl⟩
  | false =>
    rw [command_running hs] at h
    cases hb : body s with
    | done a u => rw [hb] at h; cases h; exact .inr (.inl ⟨rfl, rfl⟩)
    | raised e u => rw [hb] at h; cases h; exact .inr (.inr ⟨rfl, e, u, rfl, rfl⟩)

@[simp] theorem require_true (e : ErrCode) (s : State) (rest : State → Ran Unit) : require true e s rest = rest s := rfl

@[simp] theorem require_false (e : ErrCode) (s : State) (rest : State → Ran Unit) :
    require false e s rest = .raised e s := rfl

theorem require_eq_done {ok : Bool} {e : ErrCode} {s t : State} {rest : State → Ran Unit}
    (h : require ok e s rest = .done () t) : ok = true ∧ rest s = .done () t := by
  cases ok with
  | true => exact ⟨rfl, h⟩
  | false => cases h

theorem require_eq_raised {ok : Bool} {e e' : ErrCode} {s t : State} {rest : State → Ran Unit}
    (h : require ok e s rest = .raised e' t) : (ok = false ∧ e' = e ∧ t = s) ∨ (ok = true ∧ rest s = .raised e' t) := by
  cases ok with
  | true => exact .inr ⟨rfl, h⟩
  | false => cases h; exact .inl ⟨rfl, rfl, rfl⟩

/-! ### The reader -/

/-- Everything the loop of `refill()` does: it moves whole bytes from the source to the buffer, keeps the stream, and stops
with 50 bits buffered or, having met the end, with an empty source. -/
theorem refillLoop_spec (q : Bits) (bs : List Byte) :
    ∃ pulled, bs = pulled ++ (refillLoop q bs).2.1
      ∧ (refillLoop q bs).1 = q ++ streamBits pulled
      ∧ ((refillLoop q bs).2.2 = true → (refillLoop q bs).2.1 = [] ∧ (refillLoop q bs).1.length < 50)
      ∧ ((refillLoop q bs).2.2 = false → 50 ≤ (refillLoop q bs).1.length)
      ∧ ((refillLoop q bs).1.length ≤ 57 ∨ (refillLoop q bs).1 = q) := by
  induction bs generalizing q with
  | nil => exact ⟨[], by simp [refillLoop, streamBits]⟩
  | cons b bs ih =>
    by_cases h : q.length < 50
    · obtain ⟨p, h1, h2, h3, h4, h5⟩ := ih (q ++ byteBits b)
      have he : refillLoop q (b :: bs) = refillLoop (q ++ byteBits b) bs := by simp [refillLoop, h]
      refine ⟨b :: p, ?_, ?_, ?_, ?_, ?_⟩
      · rw [he, List.cons_append, ← h1]
      · rw [he, h2]; simp [streamBits]
      · rw [he]; exact h3
      · rw [he]; exact h4
      · rw [he]; rcases h5 with h5 | h5
        · exact .inl h5
        · left; rw [h5]; simp; omega
    · exact ⟨[], by simp [refillLoop, h, streamBits]; omega⟩

theorem refill_hist (s : State) : (refill s).hist = s.hist := rfl
theorem refill_tv (s : State) : (refill s).tv = s.tv := rfl
theorem refill_t (s : State) : (refill s).t = s.t := rfl
theorem refill_wbuf (s : State) : (refill s).wbuf = s.wbuf := rfl
theorem refill_sink (s : State) : (refill s).sink = s.sink := rfl
theorem refill_res (s : State) : (refill s).res = s.res := rfl
theorem refill_err (s : State) : (refill s).err = s.err := rfl
theorem refill_errf (s : State) : (refill s).errf = s.errf := rfl
theorem refill_last (s : State) : (refill s).last = s.last := rfl
theorem refill_lastv (s : State) : (refill s).lastv = s.lastv := rfl
theorem refill_resetIn (s : State) : (refill s).resetIn = s.resetIn := rfl
theorem refill_host (s : State) : (refill s).host = s.host := rfl
theorem refill_rdata (s : State) : (refill s).rdata = s.rdata := rfl
theorem refill_free (s : State) : (refill s).free = s.free := rfl

/-- `refill()` keeps the stream: it only moves bits from the source to the buffer. -/
theorem refill_input (s : State) : (refill s).input = s.input := by
  obtain ⟨p, h1, h2, -⟩ := refillLoop_spec s.rbuf s.source
  simp only [State.input, refill, State.setReader_rbuf, State.setReader_source, h2]
  conv_rhs => rw [h1]
  simp [streamBits_append]

/-- `refill()` pulls a prefix of the source. -/
theorem refill_pulls (s : State) : ∃ pulled, s.source = pulled ++ (refill s).source := by
  obtain ⟨p, h1, -⟩ := refillLoop_spec s.rbuf s.source
  exact ⟨p, h1⟩

/-- After `refill()` 50 bits are buffered, or the source has ended and the flag says so. -/
theorem refill_full (s : State) :
    50 ≤ (refill s).rbuf.length ∨ ((refill s).reof = true ∧ (refill s).source = [] ∧ (refill s).rbuf.length < 50) := by
  obtain ⟨p, -, -, h3, h4, -⟩ := refillLoop_spec s.rbuf s.source
  cases he : (refillLoop s.rbuf s.source).2.2 with
  | true => right; simp [refill, he, h3 he]
  | false => left; simpa [refill] using h4 he

theorem refill_cap {s : State} (h : s.rbuf.length ≤ 57) : (refill s).rbuf.length ≤ 57 := by
  obtain ⟨p, -, -, -, -, h5⟩ := refillLoop_spec s.rbuf s.source
  rcases h5 with h5 | h5
  · exact h5
  · show (refillLoop s.rbuf s.source).1.length ≤ 57
    rw [h5]; exact h

theorem refill_reof_mono {s : State} (h : s.reof = true) : (refill s).reof = true := by simp [refill, h]

/-- What `peekBits(n)` does (20_memory.md R84), n ≤ 50: it refills, and answers the next `n` stream bits or, if fewer are
left in the whole source, raises with the source at its end. -/
theorem peekBits_spec {n : Nat} (hn : n ≤ 50) (s : State) :
    (n ≤ s.input.length ∧ peekBits n s = .done (lsbVal (s.input.take n)) (refill s) ∧ n ≤ (refill s).rbuf.length)
      ∨ (s.input.length < n ∧ peekBits n s = .raised .truncated (refill s) ∧ (refill s).source = []) := by
  have hi := refill_input s
  by_cases h : (refill s).rbuf.length < n
  · rcases refill_full s with hf | ⟨-, hs, -⟩
    · omega
    · right
      refine ⟨?_, by simp [peekBits, h], hs⟩
      rw [← hi]; simpa [State.input, hs, streamBits] using h
  · left
    have ht : s.input.take n = (refill s).rbuf.take n := by
      rw [← hi, State.input, List.take_append_of_le_length (by omega)]
    refine ⟨?_, by simp [peekBits, h, ht], by omega⟩
    rw [← hi]; simp [State.input]; omega

/-- `consume(n)` drops the first `n` stream bits, all of them buffered (20_memory.md R85). -/
theorem consume_input {n : Nat} {s : State} (h : n ≤ s.rbuf.length) : (consume n s).input = s.input.drop n := by
  rw [consume, refill_input]
  simp [State.input, List.drop_append_of_le_length h]

theorem consume_cap {n : Nat} {s : State} (h : s.rbuf.length ≤ 57) : (consume n s).rbuf.length ≤ 57 :=
  refill_cap (by simp; omega)

/-- What `readField(n)` does (20_memory.md R86). -/
theorem readField_spec {n : Nat} (hn : n ≤ 50) (s : State) :
    (n ≤ s.input.length ∧ readField n s = .done (lsbVal (s.input.take n)) (consume n (refill s))
        ∧ (consume n (refill s)).input = s.input.drop n)
      ∨ (s.input.length < n ∧ readField n s = .raised .truncated (refill s) ∧ (refill s).source = []) := by
  rcases peekBits_spec hn s with ⟨h1, h2, h3⟩ | ⟨h1, h2, h3⟩
  · exact .inl ⟨h1, by simp [readField, h2], by rw [consume_input h3, refill_input]⟩
  · exact .inr ⟨h1, by simp [readField, h2], h3⟩

/-- `remLE8()` is exact (20_memory.md R87): it says whether at most 8 stream bits are left. -/
theorem atPadding_refill (s : State) : atPadding (refill s) = decide (s.input.length ≤ 8) := by
  have hi := refill_input s
  rcases refill_full s with hf | ⟨he, hs, -⟩
  · have : 8 < s.input.length := by rw [← hi]; simp [State.input]; omega
    have h1 : ¬ (refill s).rbuf.length ≤ 8 := by omega
    have h2 : ¬ s.input.length ≤ 8 := by omega
    simp [atPadding, h1, h2]
  · have : s.input.length = (refill s).rbuf.length := by rw [← hi]; simp [State.input, hs, streamBits]
    simp [atPadding, he, this]

/-! ### The writer -/

/-- Everything the loop of `flushWhileFull()` does: it keeps the bits in order and stops with fewer than 8 pending. -/
theorem drainLoop_spec (fuel : Nat) (q : Bits) (out : List Byte) (h : q.length ≤ fuel) :
    streamBits (drainLoop fuel q out).2 ++ (drainLoop fuel q out).1 = streamBits out ++ q
      ∧ (drainLoop fuel q out).1.length < 8 ∧ ∃ emitted, (drainLoop fuel q out).2 = out ++ emitted := by
  induction fuel generalizing q out with
  | zero =>
    have : q = [] := List.length_eq_zero_iff.mp (by omega)
    subst this
    simp [drainLoop]
  | succ fuel ih =>
    by_cases h8 : 8 ≤ q.length
    · obtain ⟨h1, h2, e, h3⟩ := ih (q.drop 8) (out ++ [byteOf (q.take 8)]) (by simp; omega)
      have he : drainLoop (fuel + 1) q out = drainLoop fuel (q.drop 8) (out ++ [byteOf (q.take 8)]) := by
        simp [drainLoop, h8]
      refine ⟨?_, by rw [he]; exact h2, byteOf (q.take 8) :: e, by rw [he, h3]; simp⟩
      have hb : byteBits (byteOf (q.take 8)) = q.take 8 := byteBits_byteOf (by simp; omega)
      rw [he, h1, streamBits_append]
      simp [streamBits, hb]
    · have he : drainLoop (fuel + 1) q out = (q, out) := by simp [drainLoop, h8]
      exact ⟨by rw [he], by rw [he]; simpa using h8, [], by rw [he]; simp⟩

/-- `flushWhileFull()` keeps the output stream (20_memory.md R98). -/
theorem flushWhileFull_output (s : State) : (flushWhileFull s).output = s.output := by
  simpa [State.output, flushWhileFull] using (drainLoop_spec s.wbuf.length s.wbuf s.sink le_rfl).1

theorem flushWhileFull_wbuf_lt (s : State) : (flushWhileFull s).wbuf.length < 8 := by
  simpa [flushWhileFull] using (drainLoop_spec s.wbuf.length s.wbuf s.sink le_rfl).2.1

theorem flushWhileFull_appends (s : State) : ∃ emitted, (flushWhileFull s).sink = s.sink ++ emitted := by
  simpa [flushWhileFull] using (drainLoop_spec s.wbuf.length s.wbuf s.sink le_rfl).2.2

/-- With fewer than 8 bits pending `flushWhileFull()` does nothing (42_bitwriter.md R191). -/
theorem flushWhileFull_of_lt {s : State} (h : s.wbuf.length < 8) : flushWhileFull s = s := by
  have : drainLoop s.wbuf.length s.wbuf s.sink = (s.wbuf, s.sink) := by
    cases hl : s.wbuf.length with
    | zero => rfl
    | succ n => simp [drainLoop]; omega
  simp [flushWhileFull, this, State.setWriter]

/-- A push followed by its flush appends the bits to the output stream. -/
theorem pushFlush_output (q : Bits) (s : State) : (pushFlush q s).output = s.output ++ q := by
  rw [pushFlush, flushWhileFull_output]
  simp [pushBits, State.output]

theorem pushFlush_wbuf_lt (q : Bits) (s : State) : (pushFlush q s).wbuf.length < 8 := flushWhileFull_wbuf_lt _

end Sys2Proof.Machine
end

