-- ==== Sys2Proof/Laws/Canon.lean ====
section
/-! SUPPORT. The canonical code assignment (43_coder.md R228), said once: in units of 2^-50 each code takes the interval of the
unit interval that follows its predecessor's; it fails when those intervals do not fit. -/

namespace Sys2Proof.Machine

/-- What the codes up to `prev` take of the unit interval. -/
def used : Option (Nat × Nat) → Nat
  | none => 0
  | some (c, p) => (c + 1) * 2 ^ (50 - p)

/-- What codes of the given lengths take together: their Kraft sum. -/
def weights (ls : List Nat) : Nat := (ls.map fun l => 2 ^ (50 - l)).sum

/-- Where the interval of a code begins. -/
def codeStart (e : CodeEntry) : Nat := e.code * 2 ^ (50 - e.len)

/-- Where the interval of a code ends. -/
def codeStop (e : CodeEntry) : Nat := (e.code + 1) * 2 ^ (50 - e.len)

/-- The next code begins where the codes before it end. -/
theorem nextCode_used {prev : Option (Nat × Nat)} {l : Nat} (hl : l ≤ 50) (hp : ∀ c p, prev = some (c, p) → p ≤ l) :
    nextCode prev l * 2 ^ (50 - l) = used prev := by
  cases prev with
  | none => simp [nextCode, used]
  | some cp =>
    obtain ⟨c, p⟩ := cp
    have := hp c p rfl
    simp only [nextCode, used, Nat.shiftLeft_eq, Nat.mul_assoc, ← Nat.pow_add]
    congr 2; omega

/-- Everything `assignCodes` does on ascending lengths: it fails exactly when the Kraft sum exceeds 1, and otherwise gives every
symbol its length and an interval after those of its predecessors. -/
theorem assignCodes_spec (l : List (BitVec 9 × Nat)) :
    ∀ prev : Option (Nat × Nat), (l.map Prod.snd).Pairwise (· ≤ ·) → (∀ x ∈ l, x.2 ≤ 50) →
    (∀ c p, prev = some (c, p) → ∀ x ∈ l, p ≤ x.2) → used prev ≤ 2^50 →
    (assignCodes prev l = none ↔ 2^50 < used prev + weights (l.map Prod.snd)) ∧
    ∀ es, assignCodes prev l = some es → es.map (fun e => (e.sym, e.len)) = l
      ∧ es.Pairwise (fun a b => codeStop a ≤ codeStart b) ∧ (∀ e ∈ es, used prev ≤ codeStart e) := by
  induction l with
  | nil =>
    intro prev _ _ _ hu
    refine ⟨by simp [assignCodes, weights]; omega, fun es h => ?_⟩
    cases h; simp
  | cons a l ih =>
    obtain ⟨x, k⟩ := a
    intro prev hs hb hp hu
    simp only [List.map_cons, List.pairwise_cons] at hs
    have hk : k ≤ 50 := hb (x,k) (by simp)
    have hn := nextCode_used (prev := prev) hk (fun c p h => hp c p h (x,k) (by simp))
    have h2 : 2^k * 2^(50-k) = 2^50 := by rw [← Nat.pow_add]; congr 1; omega
    have hpos : 0 < 2^(50-k) := Nat.pow_pos (by omega)
    have hw : weights (List.map Prod.snd ((x,k)::l)) = 2^(50-k) + weights (l.map Prod.snd) := by simp [weights]
    by_cases hc : 2^k ≤ nextCode prev k
    · have : 2^50 ≤ used prev := by rw [← hn, ← h2]; exact Nat.mul_le_mul_right _ hc
      refine ⟨by simp only [assignCodes, hc, if_true, hw, true_iff]; omega, fun es h => ?_⟩
      simp [assignCodes, hc] at h
    · have hu' : used (some (nextCode prev k, k)) = used prev + 2^(50-k) := by
        simp only [used, Nat.add_mul, hn]; omega
      have hle : used (some (nextCode prev k, k)) ≤ 2^50 := by
        rw [← h2]; exact Nat.mul_le_mul_right _ (by omega)
      obtain ⟨i1, i2⟩ := ih (some (nextCode prev k, k)) hs.2 (fun y hy => hb y (by simp [hy])) (by
        intro c p h y hy; cases h; exact hs.1 _ (List.mem_map_of_mem hy)) hle
      refine ⟨?_, fun es h => ?_⟩
      · simp only [assignCodes, hc, if_false, Option.map_eq_none_iff, i1, hw, hu']; omega
      · simp only [assignCodes, hc, if_false, Option.map_eq_some_iff] at h
        obtain ⟨es', h1, rfl⟩ := h
        obtain ⟨j1, j2, j3⟩ := i2 es' h1
        refine ⟨by simp [j1], ?_, ?_⟩
        · rw [List.pairwise_cons]; exact ⟨fun e he => j3 e he, j2⟩
        · intro e he
          rcases List.mem_cons.mp he with rfl | he
          · simp only [codeStart, hn]; omega
          · have := j3 e he; omega

/-- The lengths of a table by position ascend and lie in 1..MAXLEN. -/
theorem lengthsUpTo_sorted (f : Nat → Nat) (n : Nat) :
    ((List.range n).flatMap fun j => List.replicate (f (j+1)) (j+1)).Pairwise (· ≤ ·)
      ∧ ∀ l ∈ ((List.range n).flatMap fun j => List.replicate (f (j+1)) (j+1)), 1 ≤ l ∧ l ≤ n := by
  induction n with
  | zero => simp
  | succ n ih =>
    rw [List.range_succ, List.flatMap_append]
    refine ⟨?_, ?_⟩
    · rw [List.pairwise_append]
      refine ⟨ih.1, by simp [List.pairwise_replicate], ?_⟩
      intro a ha b hb
      have := ih.2 a ha
      simp at hb; omega
    · intro l hl
      rcases List.mem_append.mp hl with h | h
      · have := ih.2 l h; omega
      · simp at h; omega

/-- There are as many positions as the length counts say. -/
theorem length_lengthsUpTo (f : Nat → Nat) (n : Nat) :
    ((List.range n).flatMap fun j => List.replicate (f (j+1)) (j+1)).length =
      ((List.range n).map fun j => f (j+1)).sum := by
  induction n with
  | zero => simp
  | succ n ih => rw [List.range_succ, List.flatMap_append, List.map_append, List.length_append, ih]; simp

/-- The Kraft sum by positions is the one by lengths. -/
theorem weights_lengthsUpTo (f : Nat → Nat) (n : Nat) :
    weights ((List.range n).flatMap fun j => List.replicate (f (j+1)) (j+1)) =
      ((List.range n).map fun j => f (j+1) * 2^(50-(j+1))).sum := by
  induction n with
  | zero => simp [weights]
  | succ n ih => 
    rw [List.range_succ, List.flatMap_append, List.map_append, List.sum_append, ← ih]; simp [weights]

/-- The lengths `canon` meets. -/
theorem zip_snd {t : CodeTable} (h : t.lengths.length ≤ 259) :
    (t.order.toList.zip t.lengths).map Prod.snd = t.lengths := by
  rw [← List.unzip_snd, List.unzip_zip_right]; simpa using h

/-- The symbols `canon` meets. -/
theorem zip_fst {t : CodeTable} (h : t.lengths.length = t.k.toNat) :
    (t.order.toList.zip t.lengths).map Prod.fst = t.symbols := by
  have hk : t.k.toNat ≤ 259 ∨ 259 < t.k.toNat := by omega
  rw [CodeTable.symbols, ← h]
  apply List.ext_getElem
  · simp; omega
  · intro i h1 h2; simp

/-- With distinct symbols a symbol has one entry. -/
theorem find_entry {es : List CodeEntry} (hn : (es.map CodeEntry.sym).Nodup) {e : CodeEntry} (h : e ∈ es) :
    es.find? (fun f => f.sym == e.sym) = some e := by
  induction es with
  | nil => simp at h
  | cons a es ih =>
    simp only [List.map_cons, List.nodup_cons] at hn
    rcases List.mem_cons.mp h with rfl | h
    · simp
    · have : a.sym ≠ e.sym := fun hh => hn.1 (hh ▸ List.mem_map_of_mem h)
      rw [List.find?_cons_of_neg (by simpa using this)]; exact ih hn.2 h

/-- A code whose bits begin another code is that code without its last bits. -/
theorem msbSeq_prefix {c l c' l' : Nat} (h : msbSeq c l <+: msbSeq c' l') (hc : c < 2^l) (hc' : c' < 2^l') :
    l ≤ l' ∧ c' / 2^(l'-l) = c := by
  have hl := h.length_le
  simp at hl
  refine ⟨hl, ?_⟩
  unfold msbSeq at h
  rw [List.reverse_prefix] at h
  have e : lsbSeq c l = (lsbSeq c' l').drop (l' - l) := by
    rw [List.suffix_iff_eq_drop] at h; simpa using h
  have e2 : lsbSeq c' l' = lsbSeq c' (l'-l) ++ lsbSeq (c' / 2^(l'-l)) l := by
    obtain ⟨d, rfl⟩ := Nat.exists_eq_add_of_le hl
    simp only [Nat.add_sub_cancel_left, lsbSeq]
    rw [Nat.add_comm, List.range_add, List.map_append, List.map_map]
    congr 1; apply List.map_congr_left; intro i _; simp [Nat.testBit_div_two_pow, Nat.add_comm]
  rw [e2, List.drop_left' (by simp)] at e
  have := congrArg lsbVal e
  rw [lsbVal_lsbSeq, lsbVal_lsbSeq, Nat.mod_eq_of_lt hc, Nat.mod_eq_of_lt] at this
  · exact this.symm
  · rw [Nat.div_lt_iff_lt_mul (Nat.pow_pos (by omega)), ← Nat.pow_add]; rwa [show l + (l'-l) = l' by omega]

end Sys2Proof.Machine
end

