-- ==== Sys2Proof/Laws/Histogram.lean ====
section
/-! SUPPORT. The histogram: reading a count after writing one, and what a write does to the sum. -/

namespace Sys2Proof.Machine

theorem countOf_of_le {h : Vector (BitVec 32) 259} {x : Nat} (hx : 259 ≤ x) : countOf h x = 0 := by
  have : ¬ x < 259 := by omega
  simp [countOf, this]

theorem countOf_of_lt {h : Vector (BitVec 32) 259} {x : Nat} (hx : x < 259) : countOf h x = h[x].toNat := by
  simp [countOf, hx]

theorem countOf_setCount_self {h : Vector (BitVec 32) 259} {x : Nat} (hx : x < 259) (c : BitVec 32) :
    countOf (setCount h x c) x = c.toNat := by
  simp [countOf_of_lt hx, setCount]

theorem countOf_setCount_ne {h : Vector (BitVec 32) 259} {x y : Nat} (hxy : x ≠ y) (c : BitVec 32) :
    countOf (setCount h x c) y = countOf h y := by
  by_cases hy : y < 259
  · simp [countOf_of_lt hy, setCount, hxy]
  · rw [countOf_of_le (by omega), countOf_of_le (by omega)]

theorem sum_set (l : List Nat) (i a : Nat) (hi : i < l.length) : (l.set i a).sum + l[i] = l.sum + a := by
  induction l generalizing i with
  | nil => simp at hi
  | cons b l ih =>
    cases i with
    | zero => simp; omega
    | succ i =>
      have := ih i (by simpa using hi)
      simp; omega

/-- A write replaces one summand of the sum. -/
theorem total_setCount {h : Vector (BitVec 32) 259} {x : Nat} (hx : x < 259) (c : BitVec 32) :
    total (setCount h x c) + countOf h x = total h + c.toNat := by
  have hl : (setCount h x c).toList = h.toList.set x c := by simp [setCount, Vector.toList]
  have hg : (h.toList.map BitVec.toNat)[x]'(by simp [hx]) = h[x].toNat := by simp
  have := sum_set (h.toList.map BitVec.toNat) x c.toNat (by simp [hx])
  rw [hg] at this
  rw [total, hl, countOf_of_lt hx, List.map_set, total]
  exact this

theorem le_sum_of_mem {l : List Nat} {a : Nat} (h : a ∈ l) : a ≤ l.sum := by
  induction l with
  | nil => simp at h
  | cons b l ih =>
    rcases List.mem_cons.mp h with rfl | h
    · simp
    · have := ih h; simp; omega

/-- No count exceeds the sum (43_coder.md R211). -/
theorem countOf_le_total (h : Vector (BitVec 32) 259) (x : Nat) : countOf h x ≤ total h := by
  by_cases hx : x < 259
  · rw [countOf_of_lt hx]
    exact le_sum_of_mem (List.mem_map.mpr ⟨h[x], by simp [Vector.toList], rfl⟩)
  · rw [countOf_of_le (by omega)]; omega

/-- The sum is 0 exactly when every count is (43_coder.md R221). -/
theorem total_eq_zero_iff (h : Vector (BitVec 32) 259) : total h = 0 ↔ ∀ x, x ≤ 258 → countOf h x = 0 := by
  constructor
  · intro ht x _
    have := countOf_le_total h x
    omega
  · intro hz
    rw [total, List.sum_eq_zero_iff]
    intro n hn
    obtain ⟨b, hb, rfl⟩ := List.mem_map.mp hn
    obtain ⟨i, hi, rfl⟩ := List.getElem_of_mem hb
    have hi' : i < 259 := by simpa using hi
    have := hz i (by omega)
    rw [countOf_of_lt hi'] at this
    simpa using this

theorem countOf_replicate_zero (x : Nat) : countOf (Vector.replicate 259 0) x = 0 := by
  by_cases hx : x < 259
  · simp [countOf_of_lt hx]
  · exact countOf_of_le (by omega)

theorem total_replicate_zero : total (Vector.replicate 259 0) = 0 :=
  (total_eq_zero_iff _).mpr fun x _ => countOf_replicate_zero x

/-- HADD's write: one count and the sum grow by 1 (43_coder.md R211). -/
theorem total_add_one {h : Vector (BitVec 32) 259} {x : Nat} (hx : x < 259) (ht : total h < 4294967295) :
    total (setCount h x (BitVec.ofNat 32 (countOf h x + 1))) = total h + 1 := by
  have h1 := total_setCount (h := h) hx (BitVec.ofNat 32 (countOf h x + 1))
  have h2 := countOf_le_total h x
  have h3 : (BitVec.ofNat 32 (countOf h x + 1)).toNat = countOf h x + 1 := by
    simp only [BitVec.toNat_ofNat]; omega
  omega

/-- One step of HSEED raises the sum by 1 if the count was 0 (43_coder.md R212). -/
theorem total_seedOne {h : Vector (BitVec 32) 259} {x : Nat} (hx : x < 259) :
    total (seedOne h x) = total h + if countOf h x = 0 then 1 else 0 := by
  unfold seedOne
  split
  · have h1 := total_setCount (h := h) hx 1
    have h2 : (1 : BitVec 32).toNat = 1 := rfl
    omega
  · rfl

theorem countOf_seedOne_self {h : Vector (BitVec 32) 259} {x : Nat} (hx : x < 259) :
    countOf (seedOne h x) x = if countOf h x = 0 then 1 else countOf h x := by
  unfold seedOne
  split
  · rw [countOf_setCount_self hx]; rfl
  · rfl

theorem countOf_seedOne_ne {h : Vector (BitVec 32) 259} {x y : Nat} (hxy : x ≠ y) :
    countOf (seedOne h x) y = countOf h y := by
  unfold seedOne
  split
  · exact countOf_setCount_ne hxy 1
  · rfl

end Sys2Proof.Machine
end

