-- ==== Sys2Proof/Laws/Reader.lean ====
section
/-! SUPPORT. What any part of a command made of reader primitives can do: it changes the reader's part of the state and
nothing else, takes bytes only from the front of the source, keeps the buffer within its capacity, and never clears `REOF`.
The same for the writer. Every loop of the decoder is such a part. -/

namespace Sys2Proof.Machine

/-! ### The reader -/

/-- `t` is `s` after some reader primitives. -/
structure ReaderStep (s t : State) : Prop where
  rest : t = s.setReader t.rbuf t.reof t.source
  pulls : ∃ pulled, s.source = pulled ++ t.source
  cap : s.rbuf.length ≤ 57 → t.rbuf.length ≤ 57
  reof : s.reof = true → t.reof = true

theorem ReaderStep.refl (s : State) : ReaderStep s s := ⟨rfl, ⟨[], rfl⟩, id, id⟩

theorem ReaderStep.trans {s t u : State} (h1 : ReaderStep s t) (h2 : ReaderStep t u) : ReaderStep s u := by
  obtain ⟨p1, e1⟩ := h1.pulls
  obtain ⟨p2, e2⟩ := h2.pulls
  refine ⟨?_, ⟨p1 ++ p2, by rw [e1, e2, List.append_assoc]⟩, h2.cap ∘ h1.cap, h2.reof ∘ h1.reof⟩
  conv_lhs => rw [h2.rest, h1.rest]
  rfl

theorem refill_reader (s : State) : ReaderStep s (refill s) :=
  ⟨rfl, refill_pulls s, refill_cap, refill_reof_mono⟩

theorem consume_reader (n : Nat) (s : State) : ReaderStep s (consume n s) :=
  ReaderStep.trans (t := s.setReader (s.rbuf.drop n) s.reof s.source)
    ⟨rfl, ⟨[], rfl⟩, fun h => by simp; omega, id⟩ (refill_reader _)

/-- The state in which a part of a command ends, at its end or at a raise. -/
def Ran.state {α : Type} : Ran α → State
  | .done _ s => s
  | .raised _ s => s

@[simp] theorem Ran.state_done {α : Type} (a : α) (s : State) : (Ran.done a s).state = s := rfl

@[simp] theorem Ran.state_raised {α : Type} (e : ErrCode) (s : State) : (Ran.raised e s : Ran α).state = s := rfl

/-- Two parts one after another reach what the second reaches from where the first ended, or end with the first. -/
theorem ReaderStep.andThen {α β : Type} {s : State} {r : Ran α} {f : α → State → Ran β} (h1 : ReaderStep s r.state)
    (h2 : ∀ a t, r = .done a t → ReaderStep t (f a t).state) : ReaderStep s (r.andThen f).state := by
  cases r with
  | done a t => exact h1.trans (h2 a t rfl)
  | raised e t => exact h1

theorem peekBits_reader (n : Nat) (s : State) : ReaderStep s (peekBits n s).state := by
  unfold peekBits
  split <;> exact refill_reader s

theorem readField_reader (n : Nat) (s : State) : ReaderStep s (readField n s).state :=
  (peekBits_reader n s).andThen fun _ t _ => consume_reader n t

theorem readSymbols_reader (k : Nat) (seen : List Nat) (s : State) : ReaderStep s (readSymbols k seen s).state := by
  induction k generalizing seen s with
  | zero => exact .refl s
  | succ k ih =>
    refine (readField_reader 9 s).andThen fun x t _ => ?_
    split
    · exact .refl t
    · split
      · exact .refl t
      · exact ih _ t

theorem readCounts_reader (k room : Nat) (counts : List Nat) (s : State) :
    ReaderStep s (readCounts k room counts s).state := by
  induction room generalizing counts s with
  | zero => exact .refl s
  | succ room ih =>
    refine (readField_reader 9 s).andThen fun x t _ => ?_
    split
    · exact .refl t
    · split
      · exact .refl t
      · exact ih _ t

theorem tryLengths_reader (room l : Nat) (s : State) : ReaderStep s (tryLengths room l s).state := by
  induction room generalizing l s with
  | zero => exact .refl s
  | succ room ih =>
    refine (peekBits_reader l s).andThen fun v t _ => ?_
    split
    · exact consume_reader l t
    · exact ih _ t

theorem nextSymbol_reader (s : State) : ReaderStep s (nextSymbol s).state := by
  unfold nextSymbol
  split
  · exact .refl s
  · exact tryLengths_reader _ _ s

/-! ### The look-ahead (20_memory.md R88) -/

/-- The loop of `refill()` in closed form: it moves the fewest bytes that leave 50 bits buffered, or all there are. -/
theorem refillLoop_closed (q : Bits) (bs : List Byte) :
    (refillLoop q bs).1 = q ++ streamBits (bs.take (bytesAhead 0 q.length))
      ∧ (refillLoop q bs).2.1 = bs.drop (bytesAhead 0 q.length)
      ∧ (refillLoop q bs).2.2 = decide ((refillLoop q bs).1.length < 50) := by
  induction bs generalizing q with
  | nil => exact ⟨by simp [refillLoop, streamBits], by simp [refillLoop], rfl⟩
  | cons b bs ih =>
    by_cases h : q.length < 50
    · have hk : bytesAhead 0 q.length = bytesAhead 0 (q ++ byteBits b).length + 1 := by simp [bytesAhead]; omega
      have he : refillLoop q (b :: bs) = refillLoop (q ++ byteBits b) bs := by simp [refillLoop, h]
      obtain ⟨h1, h2, h3⟩ := ih (q ++ byteBits b)
      rw [he, hk]
      exact ⟨by rw [h1]; simp [streamBits], h2, h3⟩
    · have hk : bytesAhead 0 q.length = 0 := by simp [bytesAhead]; omega
      simp [refillLoop, h, hk, streamBits]

/-- `refill()` looks ahead and consumes nothing. -/
theorem refill_looksAhead (s : State) : LooksAhead 0 s (refill s) := by
  obtain ⟨h1, h2, h3⟩ := refillLoop_closed s.rbuf s.source
  exact ⟨h2, h1, by rw [refill, State.setReader_reof, h3]; rfl⟩

/-- What is left in the buffer, in bits. -/
theorem LooksAhead.length {n : Nat} {s t : State} (h : LooksAhead n s t) :
    t.rbuf.length = s.rbuf.length + 8 * min (bytesAhead n s.rbuf.length) s.source.length - n := by
  rw [h.rbuf]; simp [length_streamBits]

theorem length_input (s : State) : s.input.length = s.rbuf.length + 8 * s.source.length := by
  simp [State.input, length_streamBits]

/-- Looking ahead after consuming `n` bits keeps the rest of the stream. -/
theorem LooksAhead.input {n : Nat} {s t : State} (h : LooksAhead n s t) (hn : n ≤ s.input.length) :
    t.input = s.input.drop n := by
  have hb : n ≤ (s.rbuf ++ streamBits (s.source.take (bytesAhead n s.rbuf.length))).length := by
    rw [length_input] at hn
    simp [length_streamBits, bytesAhead]; omega
  rw [State.input, State.input, h.rbuf, h.source, ← List.drop_append_of_le_length hb, List.append_assoc,
    ← streamBits_append, List.take_append_drop]

/-- One reader part after another consumes what both consume, and the look-ahead is that of the whole. -/
theorem LooksAhead.trans {n m : Nat} {s t u : State} (h1 : LooksAhead n s t) (h2 : LooksAhead m t u)
    (hn : n ≤ s.input.length) : LooksAhead (n + m) s u := by
  have hl := h1.length
  have hi := hn
  rw [length_input] at hi
  have hk : s.source.length ≤ bytesAhead n s.rbuf.length ∧ s.source.length ≤ bytesAhead (n + m) s.rbuf.length
      ∨ bytesAhead (n + m) s.rbuf.length = bytesAhead n s.rbuf.length + bytesAhead m t.rbuf.length := by
    simp only [bytesAhead] at hl ⊢; omega
  have hb : n ≤ (s.rbuf ++ streamBits (s.source.take (bytesAhead n s.rbuf.length))).length := by
    simp [length_streamBits, bytesAhead]; omega
  refine ⟨?_, ?_, ?_⟩
  · rw [h2.source, h1.source, List.drop_drop]
    rcases hk with ⟨k1, k2⟩ | k
    · rw [List.drop_of_length_le (by omega), List.drop_of_length_le k2]
    · rw [k]
  · rw [h2.rbuf, h1.source]
    conv_lhs => rw [h1.rbuf]
    rw [← List.drop_append_of_le_length hb, List.drop_drop, List.append_assoc, ← streamBits_append]
    congr 3
    rcases hk with ⟨k1, k2⟩ | k
    · rw [List.take_of_length_le k1, List.take_of_length_le k2, List.drop_of_length_le k1]; simp
    · rw [k, List.take_add, h1.rbuf]
  · have h2l := h2.length
    have hs : t.source.length = s.source.length - bytesAhead n s.rbuf.length := by rw [h1.source, List.length_drop]
    have : t.rbuf.length < 50 → u.rbuf.length < 50 := by
      intro ht
      have h0 : t.source.length = 0 := by simp only [bytesAhead] at hl hs; omega
      rw [h0] at h2l; omega
    rw [h2.reof, h1.reof, Bool.or_assoc]
    congr 1
    by_cases ht : t.rbuf.length < 50
    · simp [ht, this ht]
    · simp [ht]

/-- A state that has looked ahead has nothing more to look ahead to. -/
theorem LooksAhead.settled {n : Nat} {s t : State} (h : LooksAhead n s t) : LooksAhead 0 t t := by
  have hl := h.length
  have hs : t.source.length = s.source.length - bytesAhead n s.rbuf.length := by rw [h.source, List.length_drop]
  have hk : t.source.length = 0 ∨ bytesAhead 0 t.rbuf.length = 0 := by simp only [bytesAhead] at hl hs ⊢; omega
  refine ⟨?_, ?_, ?_⟩
  · rcases hk with hk | hk
    · simp [List.length_eq_zero_iff.mp hk]
    · rw [hk, List.drop_zero]
  · rcases hk with hk | hk
    · simp [List.length_eq_zero_iff.mp hk, streamBits]
    · simp [hk, streamBits]
  · have := h.reof
    by_cases ht : t.rbuf.length < 50
    · simp [ht] at this; simp [ht, this]
    · simp [ht]

/-- `consume(n)` of buffered bits, after `refill()`, looks ahead. -/
theorem consume_looksAhead {n : Nat} {s : State} (hn : n ≤ (refill s).rbuf.length) : LooksAhead n s (consume n (refill s)) := by
  have h0 := refill_looksAhead s
  have hi : n ≤ (refill s).input.length := by rw [length_input]; omega
  have h1 : LooksAhead n (refill s) (consume n (refill s)) := by
    obtain ⟨a, b, c⟩ := refill_looksAhead ((refill s).setReader ((refill s).rbuf.drop n) (refill s).reof (refill s).source)
    have hk : bytesAhead 0 ((refill s).rbuf.drop n).length = bytesAhead n (refill s).rbuf.length := by
      simp [bytesAhead]; omega
    simp only [State.setReader_rbuf, State.setReader_source, State.setReader_reof, hk] at a b c
    exact ⟨a, by rw [List.drop_append_of_le_length hn]; exact b, c⟩
  simpa using h0.trans h1 (by omega)

/-- A field that was read was consumed, and the reader looks ahead. -/
theorem readField_looksAhead {n v : Nat} {s t : State} (hn : n ≤ 50) (h : readField n s = .done v t) : LooksAhead n s t := by
  rcases peekBits_spec hn s with ⟨-, h2, h3⟩ | ⟨-, h2, -⟩
  · simp only [readField, h2, Ran.andThen_done, Ran.done.injEq] at h
    rw [← h.2]
    exact consume_looksAhead h3
  · simp [readField, h2] at h

/-- The symbol found is the one whose code the next bits are; they are consumed, and the reader looks ahead. -/
theorem tryLengths_done {room l : Nat} {s u : State} {x : BitVec 9} (hl : l + room ≤ 51)
    (h : tryLengths room l s = .done x u) :
    ∃ n, l ≤ n ∧ n ≤ s.input.length ∧ s.t.matching (s.input.take n) = some x ∧ LooksAhead n s u := by
  induction room generalizing l s with
  | zero => cases h
  | succ room ih =>
    rcases peekBits_spec (n := l) (by omega) s with ⟨h1, h2, h3⟩ | ⟨-, h2, -⟩
    · have hb := lsbSeq_lsbVal (s.input.take l)
      rw [List.length_take, Nat.min_eq_left h1] at hb
      simp only [tryLengths, h2, Ran.andThen_done, hb, refill_t] at h
      split at h
      · next hm => cases h; exact ⟨l, Nat.le_refl _, h1, hm, consume_looksAhead h3⟩
      · obtain ⟨n, g1, g2, g3, g4⟩ := ih (by omega) h
        rw [refill_input] at g2 g3
        exact ⟨n, by omega, g2, g3, by simpa using (refill_looksAhead s).trans g4 (Nat.zero_le _)⟩
    · simp [tryLengths, h2] at h

/-- A search that fails has met the end of the source, or has tried every length and looked ahead. -/
theorem tryLengths_raised {room l : Nat} {s u : State} {e : ErrCode} (hl : l + room ≤ 51) (hr : 0 < room)
    (h : tryLengths room l s = .raised e u) :
    (e = .truncated ∧ u.source = []) ∨ (e = .noMatch ∧ LooksAhead 0 s u) := by
  induction room generalizing l s with
  | zero => cases hr
  | succ room ih =>
    rcases peekBits_spec (n := l) (by omega) s with ⟨h1, h2, h3⟩ | ⟨-, h2, h3⟩
    · simp only [tryLengths, h2, Ran.andThen_done] at h
      split at h
      · cases h
      · rcases Nat.eq_zero_or_pos room with rfl | hpos
        · cases h; exact .inr ⟨rfl, refill_looksAhead s⟩
        · rcases ih (by omega) hpos h with g | ⟨g1, g2⟩
          · exact .inl g
          · exact .inr ⟨g1, by simpa using (refill_looksAhead s).trans g2 (Nat.zero_le _)⟩
    · simp only [tryLengths, h2, Ran.andThen_raised, Ran.raised.injEq] at h
      obtain ⟨rfl, rfl⟩ := h
      exact .inl ⟨rfl, h3⟩

/-! ### The writer -/

/-- `t` is `s` after some writer primitives: only `WBUF` and the sink change, the sink by appending, and whatever is pending
afterwards is less than a byte or what was pending before. -/
structure WriterStep (s t : State) : Prop where
  rest : t = s.setWriter t.wbuf t.sink
  emits : ∃ emitted, t.sink = s.sink ++ emitted
  pending : t.wbuf.length ≤ 7 ∨ t.wbuf = s.wbuf

theorem WriterStep.refl (s : State) : WriterStep s s := ⟨rfl, ⟨[], by simp⟩, .inr rfl⟩

theorem WriterStep.trans {s t u : State} (h1 : WriterStep s t) (h2 : WriterStep t u) : WriterStep s u := by
  obtain ⟨p1, e1⟩ := h1.emits
  obtain ⟨p2, e2⟩ := h2.emits
  refine ⟨?_, ⟨p1 ++ p2, by rw [e2, e1, List.append_assoc]⟩, ?_⟩
  · conv_lhs => rw [h2.rest, h1.rest]
    rfl
  · rcases h2.pending with h | h
    · exact .inl h
    · rw [h]; exact h1.pending

theorem pushFlush_writer (q : Bits) (s : State) : WriterStep s (pushFlush q s) := by
  refine ⟨rfl, ?_, .inl (Nat.lt_succ_iff.mp (pushFlush_wbuf_lt q s))⟩
  obtain ⟨e, he⟩ := flushWhileFull_appends (pushBits q s)
  exact ⟨e, by rw [pushFlush, he]; rfl⟩

theorem flushWhileFull_writer (s : State) : WriterStep s (flushWhileFull s) :=
  ⟨rfl, flushWhileFull_appends s, .inl (Nat.lt_succ_iff.mp (flushWhileFull_wbuf_lt s))⟩

theorem emitRest_writer (s : State) : WriterStep s (emitRest s) := by
  unfold emitRest
  split
  · exact .refl s
  · exact ⟨rfl, ⟨_, rfl⟩, .inl (by simp)⟩

theorem flushAll_writer (s : State) : WriterStep s (flushAll s) :=
  (flushWhileFull_writer s).trans (emitRest_writer _)

theorem rawByte_writer (b : Byte) (s : State) : WriterStep s (rawByte b s) := ⟨rfl, ⟨[b], rfl⟩, .inr rfl⟩

theorem pushFields_writer (fs : List Nat) (s : State) : WriterStep s (pushFields fs s) := by
  induction fs generalizing s with
  | nil => exact .refl s
  | cons f fs ih => exact (pushFlush_writer _ s).trans (ih _)

/-- Pushing header fields appends their bits to the output stream, in order (44_encoder.md R250). -/
theorem pushFields_output (fs : List Nat) (s : State) :
    (pushFields fs s).output = s.output ++ fs.flatMap (fun f => lsbSeq f 9) := by
  induction fs generalizing s with
  | nil => simp [pushFields]
  | cons f fs ih =>
    have : pushFields (f :: fs) s = pushFields fs (pushFlush (lsbSeq f 9) s) := rfl
    rw [this, ih, pushFlush_output]
    simp

end Sys2Proof.Machine
end

