-- ==== Sys2Proof/Laws/Exec.lean ====
section
/-! SUPPORT. What one command can do, said once: the gate of the halted block, the reset, a raise after some reader
primitives, or the command's own effect. -/

namespace Sys2Proof.Machine

/-- The own effect of a command that completes in state `u` from state `s`, by the part of the state it writes. -/
inductive Effect (i : Instr) (s : State) : State → Prop where
  | nop (hi : i = .nop) : Effect i s s
  /-- SKIP: only the reader moves -/
  | read {t : State} (hi : mayRead i = true) (h : ReaderStep s t) : Effect i s t
  /-- PEEK, RDB, RCHK, UEND: the reader moves and `RES` is written -/
  | readResult {t : State} (v : BitVec 64) (hi : mayRead i = true) (hr : mayWriteRes i = true) (h : ReaderStep s t) :
      Effect i s (t.setRes v)
  /-- DEC, DECN, DECD: a symbol of the table is returned and recorded -/
  | decoded {t : State} (x : BitVec 9) (hi : mayDecode i = true) (htv : s.tv = true) (h : nextSymbol s = .done x t) :
      Effect i s ((t.setRes (x.setWidth 64)).setLast x)
  /-- DHDR: a table read from the stream is committed -/
  | committed {r : State} (t : CodeTable) (hi : i = .dhdr) (h : ReaderStep s r) : Effect i s (r.setTable t)
  /-- BUILD -/
  | built (hi : i = .build) (ht : total s.hist ≠ 0) : Effect i s (s.setTable (buildTable s.hist))
  /-- HCLR, HADD, HSEED: counts whose sum stays within 2^32 − 1 -/
  | counted (h : Vector (BitVec 32) 259) (hi : mayWriteHist i = true) (hs : i ≠ .srst) (ht : total h ≤ 4294967295) :
      Effect i s (s.setHist h)
  /-- QHIST, QLEN, QCODE -/
  | queried (v : BitVec 64) (hi : mayWriteRes i = true) : Effect i s (s.setRes v)
  /-- PUTB, FLA, EHDR, ENC: the writer moves -/
  | pushed {t : State} (hi : mayChangePending i = true) (h : WriterStep s t) : Effect i s t
  /-- FLB: nothing when less than a byte is pending -/
  | flushed {t : State} (hi : i = .flb) (h : WriterStep s t) (hn : s.wbuf.length < 8 → t = s) : Effect i s t
  /-- WRAW: one byte to the sink -/
  | raw (b : BitVec 8) (hi : i = .wraw b) (hw : s.wbuf = []) : Effect i s (rawByte b s)

theorem withSymbol_done {x : BitVec 9} {s t : State} {body : BitVec 9 → State → Ran Unit}
    (h : withSymbol x s body = .done () t) : x.toNat ≤ 258 ∧ body x s = .done () t := by
  obtain ⟨h1, h2⟩ := require_eq_done h
  exact ⟨by simpa [symbolInRange] using h1, h2⟩

theorem withCount_done {n : BitVec 4} {s t : State} {body : Nat → State → Ran Unit}
    (h : withCount n s body = .done () t) : (1 ≤ n.toNat ∧ n.toNat ≤ 9) ∧ body n.toNat s = .done () t := by
  obtain ⟨h1, h2⟩ := require_eq_done h
  exact ⟨by simpa [countInRange] using h1, h2⟩

/-- What HSEED's writes leave of the sum. -/
theorem total_hseed (h : Vector (BitVec 32) 259) :
    total (controlSymbols.foldl seedOne h) = total h + seedsNeeded h := by
  have e : controlSymbols = [256, 257, 258] := rfl
  have h1 : countOf (seedOne h 256) 257 = countOf h 257 := countOf_seedOne_ne (by decide)
  have h2 : countOf (seedOne (seedOne h 256) 257) 258 = countOf h 258 := by
    rw [countOf_seedOne_ne (by decide), countOf_seedOne_ne (by decide)]
  simp only [e, List.foldl, seedsNeeded, total_seedOne (by decide : 258 < 259), total_seedOne (by decide : 257 < 259),
    total_seedOne (by decide : 256 < 259), h1, h2]
  by_cases a : countOf h 256 = 0 <;> by_cases b : countOf h 257 = 0 <;> by_cases c : countOf h 258 = 0 <;>
    simp [a, b, c]

/-- The body of a header ends in a commit of some table. -/
theorem readHeaderBody_done {k : Nat} {s t : State} (h : readHeaderBody k s = .done () t) :
    ∃ r tbl, ReaderStep s r ∧ tbl.canon.isSome = true ∧ t = r.setTable tbl := by
  obtain ⟨syms, u, hu, h⟩ := Ran.andThen_eq_done h
  have hr : ReaderStep s u := by simpa [hu] using readSymbols_reader k [] s
  split at h
  · obtain ⟨h1, h2⟩ := require_eq_done h
    cases h2
    exact ⟨u, _, hr, h1, rfl⟩
  · obtain ⟨counts, v, hv, h⟩ := Ran.andThen_eq_done h
    have hv' : ReaderStep u v := by simpa [hv] using readCounts_reader k Config.MAX_CODE_LEN [] u
    obtain ⟨h1, h2⟩ := require_eq_done h
    cases h2
    exact ⟨v, _, hr.trans hv', h1, rfl⟩

theorem decodeSymbol_done {s t : State} {x : BitVec 9} (h : decodeSymbol s = .done x t) :
    s.tv = true ∧ ∃ r, nextSymbol s = .done x r ∧ t = (r.setRes (x.setWidth 64)).setLast x := by
  unfold decodeSymbol at h
  split at h
  · rename_i htv
    obtain ⟨y, r, hr, h⟩ := Ran.andThen_eq_done h
    cases h
    exact ⟨htv, r, hr, rfl⟩
  · cases h

/-- A command that completes has its own effect. -/
theorem body_effect {i : Instr} {s u : State} (hs : i ≠ .srst) (hrun : s.errf = false) (h : exec i s = .next u)
    (hu : u.errf = false) : Effect i s u := by
  have key : ∀ body : State → Ran Unit, command s body = .next u → body s = .done () u := by
    intro body hb
    rcases command_cases hb with ⟨h1, -⟩ | ⟨-, h1⟩ | ⟨-, e, t, -, h1⟩
    · rw [hrun] at h1; cases h1
    · exact h1
    · rw [h1] at hu; cases hu
  cases i <;> simp only [exec] at h
  case srst => exact absurd rfl hs
  case nop => cases key _ h; exact .nop rfl
  case peek n =>
    obtain ⟨-, h⟩ := withCount_done (key _ h)
    obtain ⟨v, t, ht, h⟩ := Ran.andThen_eq_done h
    cases h
    exact .readResult _ rfl rfl (by simpa [ht] using peekBits_reader n.toNat s)
  case rdb n =>
    obtain ⟨-, h⟩ := withCount_done (key _ h)
    obtain ⟨v, t, ht, h⟩ := Ran.andThen_eq_done h
    cases h
    exact .readResult _ rfl rfl (by simpa [ht] using readField_reader n.toNat s)
  case skip n =>
    obtain ⟨-, h⟩ := withCount_done (key _ h)
    obtain ⟨v, t, ht, h⟩ := Ran.andThen_eq_done h
    cases h
    have : ReaderStep s t := by simpa [ht] using peekBits_reader n.toNat s
    exact .read rfl (this.trans (consume_reader _ t))
  case rchk => cases key _ h; exact .readResult _ rfl rfl (refill_reader s)
  case putb n v =>
    obtain ⟨-, h⟩ := require_eq_done (key _ h)
    cases h
    exact .pushed rfl (pushFlush_writer _ s)
  case flb => cases key _ h; exact .flushed rfl (flushWhileFull_writer s) flushWhileFull_of_lt
  case fla => cases key _ h; exact .pushed rfl (flushAll_writer s)
  case wraw b =>
    obtain ⟨hw, h⟩ := require_eq_done (key _ h)
    cases h
    exact .raw b rfl (by simpa using hw)
  case hclr => cases key _ h; exact .counted _ rfl (by decide) (by rw [total_replicate_zero]; omega)
  case hadd x =>
    obtain ⟨hx, h⟩ := withSymbol_done (key _ h)
    obtain ⟨ht, h⟩ := require_eq_done h
    cases h
    have ht : total s.hist < 4294967295 := of_decide_eq_true ht
    exact .counted _ rfl (by simp) (by rw [total_add_one (by omega) ht]; omega)
  case hseed =>
    obtain ⟨ht, h⟩ := require_eq_done (key _ h)
    cases h
    exact .counted _ rfl (by decide) (by rw [total_hseed]; exact of_decide_eq_true ht)
  case build =>
    obtain ⟨ht, h⟩ := require_eq_done (key _ h)
    cases h
    exact .built rfl (of_decide_eq_true ht)
  case qhist x => obtain ⟨-, h⟩ := withSymbol_done (key _ h); cases h; exact .queried _ rfl
  case qlen x => obtain ⟨-, h⟩ := withSymbol_done (key _ h); cases h; exact .queried _ rfl
  case qcode x => obtain ⟨-, h⟩ := withSymbol_done (key _ h); cases h; exact .queried _ rfl
  case ehdr =>
    obtain ⟨-, h⟩ := require_eq_done (key _ h)
    cases h
    exact .pushed rfl (pushFields_writer _ s)
  case enc x =>
    obtain ⟨-, h⟩ := withSymbol_done (key _ h)
    obtain ⟨-, h⟩ := require_eq_done h
    obtain ⟨-, h⟩ := require_eq_done h
    cases h
    exact .pushed rfl (pushFlush_writer _ s)
  case dhdr =>
    obtain ⟨k, t, ht, h⟩ := Ran.andThen_eq_done (key _ h)
    have hr : ReaderStep s t := by simpa [ht] using readField_reader 9 s
    split at h
    · cases h
    · split at h
      · cases h
      · obtain ⟨r, tbl, h1, -, h2⟩ := readHeaderBody_done h
        rw [h2]
        exact .committed tbl rfl (hr.trans h1)
  case dec =>
    obtain ⟨x, t, ht, h⟩ := Ran.andThen_eq_done (key _ h)
    cases h
    obtain ⟨htv, r, hr, rfl⟩ := decodeSymbol_done ht
    exact .decoded x rfl htv hr
  case decn =>
    obtain ⟨x, t, ht, h⟩ := Ran.andThen_eq_done (key _ h)
    obtain ⟨-, h⟩ := require_eq_done h
    cases h
    obtain ⟨htv, r, hr, rfl⟩ := decodeSymbol_done ht
    exact .decoded x rfl htv hr
  case decd =>
    obtain ⟨x, t, ht, h⟩ := Ran.andThen_eq_done (key _ h)
    obtain ⟨-, h⟩ := require_eq_done h
    cases h
    obtain ⟨htv, r, hr, rfl⟩ := decodeSymbol_done ht
    exact .decoded x rfl htv hr
  case uend =>
    obtain ⟨-, h⟩ := require_eq_done (key _ h)
    obtain ⟨-, h⟩ := require_eq_done h
    cases h
    exact .readResult _ rfl rfl (refill_reader s)

/-! ### Raises -/

/-- What holds of the state at a raise: nothing was emitted, source bytes were only taken from the front, and the host's side
is as it was (60_exceptions.md R303). -/
structure Quiet (s t : State) : Prop where
  sink : t.sink = s.sink
  pulls : ∃ pulled, s.source = pulled ++ t.source
  resetIn : t.resetIn = s.resetIn
  host : t.host = s.host
  rdata : t.rdata = s.rdata

theorem Quiet.refl (s : State) : Quiet s s := ⟨rfl, ⟨[], rfl⟩, rfl, rfl, rfl⟩

theorem Quiet.trans {s t u : State} (h1 : Quiet s t) (h2 : Quiet t u) : Quiet s u := by
  obtain ⟨p1, e1⟩ := h1.pulls
  obtain ⟨p2, e2⟩ := h2.pulls
  exact ⟨h2.sink.trans h1.sink, ⟨p1 ++ p2, by rw [e1, e2, List.append_assoc]⟩, h2.resetIn.trans h1.resetIn,
    h2.host.trans h1.host, h2.rdata.trans h1.rdata⟩

theorem ReaderStep.quiet {s t : State} (h : ReaderStep s t) : Quiet s t := by
  refine ⟨?_, h.pulls, ?_, ?_, ?_⟩ <;> rw [h.rest] <;> rfl

/-- Raising `e` in a state that is still quiet halts the block with `e`'s code. -/
theorem Quiet.halts {s t : State} (h : Quiet s t) (e : ErrCode) : HaltsWith e.code s (enterHalt e t) :=
  ⟨rfl, rfl, h.sink, h.pulls, h.resetIn, h.host, h.rdata⟩

theorem nextSymbol_raised {s t : State} {e : ErrCode} (h : nextSymbol s = .raised e t) : Quiet s t := by
  have := nextSymbol_reader s
  rw [h] at this
  exact this.quiet

theorem decodeSymbol_raised {s t : State} {e : ErrCode} (h : decodeSymbol s = .raised e t) : Quiet s t := by
  unfold decodeSymbol at h
  split at h
  · rcases Ran.andThen_eq_raised h with h | ⟨x, r, -, h⟩
    · exact nextSymbol_raised h
    · cases h
  · cases h; exact .refl s

theorem decodeSymbol_quiet {s t : State} {x : BitVec 9} (h : decodeSymbol s = .done x t) : Quiet s t := by
  obtain ⟨-, r, hr, rfl⟩ := decodeSymbol_done h
  have := nextSymbol_reader s
  rw [hr] at this
  exact this.quiet.trans ⟨rfl, ⟨[], rfl⟩, rfl, rfl, rfl⟩

theorem readHeaderBody_raised {k : Nat} {s t : State} {e : ErrCode} (h : readHeaderBody k s = .raised e t) : Quiet s t := by
  have key : ∀ tbl r, commitTable tbl r = .raised e t → t = r := by
    intro tbl r hc
    rcases require_eq_raised hc with ⟨-, -, rfl⟩ | ⟨-, hc⟩
    · rfl
    · cases hc
  have h0 := (readSymbols_reader k [] s).quiet
  rcases Ran.andThen_eq_raised h with h1 | ⟨syms, u, hu, h⟩
  · rw [h1] at h0; exact h0
  · rw [hu] at h0
    split at h
    · rw [key _ _ h]; exact h0
    · have h2 := (readCounts_reader k Config.MAX_CODE_LEN [] u).quiet
      rcases Ran.andThen_eq_raised h with h3 | ⟨counts, v, hv, h⟩
      · rw [h3] at h2; exact h0.trans h2
      · rw [hv] at h2
        rw [key _ _ h]; exact h0.trans h2

/-- What the body of a command with a checked operand raises: the operand's error at once, or what follows. -/
theorem withSymbol_raised {x : BitVec 9} {s t : State} {e : ErrCode} {body : BitVec 9 → State → Ran Unit}
    (h : withSymbol x s body = .raised e t) : t = s ∨ body x s = .raised e t := by
  rcases require_eq_raised h with ⟨-, -, h⟩ | ⟨-, h⟩
  · exact .inl h
  · exact .inr h

theorem withCount_raised {n : BitVec 4} {s t : State} {e : ErrCode} {body : Nat → State → Ran Unit}
    (h : withCount n s body = .raised e t) : t = s ∨ body n.toNat s = .raised e t := by
  rcases require_eq_raised h with ⟨-, -, h⟩ | ⟨-, h⟩
  · exact .inl h
  · exact .inr h

/-- A command that raises halts the block from a quiet state. -/
theorem body_raise {i : Instr} {s u : State} (hrun : s.errf = false) (h : exec i s = .next u) (hu : u.errf = true) :
    ∃ e t, Quiet s t ∧ u = enterHalt e t := by
  have key : ∀ body : State → Ran Unit, command s body = .next u →
      (∀ t, body s = .done () t → t.errf = false) → ∃ e t, body s = .raised e t ∧ u = enterHalt e t := by
    intro body hb hd
    rcases command_cases hb with ⟨h1, -⟩ | ⟨-, h1⟩ | ⟨-, e, t, h1, h2⟩
    · rw [hrun] at h1; cases h1
    · rw [hd u h1] at hu; cases hu
    · exact ⟨e, t, h1, h2⟩
  have rd : ∀ {t}, ReaderStep s t → t.errf = false := by
    intro t ht; rw [ht.rest]; exact hrun
  have wr : ∀ {t}, WriterStep s t → t.errf = false := by
    intro t ht; rw [ht.rest]; exact hrun
  have dc : ∀ {x t}, decodeSymbol s = .done x t → t.errf = false := by
    intro x t ht
    obtain ⟨-, r, hr, rfl⟩ := decodeSymbol_done ht
    exact rd (t := r) (by simpa [hr] using nextSymbol_reader s)
  cases i <;> simp only [exec] at h
  case srst => cases h; cases hu
  case nop =>
    obtain ⟨e, t, hb, -⟩ := key _ h (fun t ht => by cases ht; exact hrun)
    cases hb
  case peek n =>
    obtain ⟨e, t, hb, rfl⟩ := key _ h (fun t ht => by
      obtain ⟨-, ht⟩ := withCount_done ht
      obtain ⟨v, r, hr, ht⟩ := Ran.andThen_eq_done ht
      cases ht
      exact rd (t := r) (by simpa [hr] using peekBits_reader n.toNat s))
    refine ⟨e, t, ?_, rfl⟩
    rcases withCount_raised hb with rfl | hb
    · exact .refl _
    · rcases Ran.andThen_eq_raised hb with hb | ⟨v, r, -, hb⟩
      · have := (peekBits_reader n.toNat s).quiet; rwa [hb] at this
      · cases hb
  case rdb n =>
    obtain ⟨e, t, hb, rfl⟩ := key _ h (fun t ht => by
      obtain ⟨-, ht⟩ := withCount_done ht
      obtain ⟨v, r, hr, ht⟩ := Ran.andThen_eq_done ht
      cases ht
      exact rd (t := r) (by simpa [hr] using readField_reader n.toNat s))
    refine ⟨e, t, ?_, rfl⟩
    rcases withCount_raised hb with rfl | hb
    · exact .refl _
    · rcases Ran.andThen_eq_raised hb with hb | ⟨v, r, -, hb⟩
      · have := (readField_reader n.toNat s).quiet; rwa [hb] at this
      · cases hb
  case skip n =>
    obtain ⟨e, t, hb, rfl⟩ := key _ h (fun t ht => by
      obtain ⟨-, ht⟩ := withCount_done ht
      obtain ⟨v, r, hr, ht⟩ := Ran.andThen_eq_done ht
      cases ht
      have : ReaderStep s r := by simpa [hr] using peekBits_reader n.toNat s
      exact rd (t := consume n.toNat r) (this.trans (consume_reader _ r)))
    refine ⟨e, t, ?_, rfl⟩
    rcases withCount_raised hb with rfl | hb
    · exact .refl _
    · rcases Ran.andThen_eq_raised hb with hb | ⟨v, r, -, hb⟩
      · have := (peekBits_reader n.toNat s).quiet; rwa [hb] at this
      · cases hb
  case rchk =>
    obtain ⟨e, t, hb, -⟩ := key _ h (fun t ht => by cases ht; exact rd (t := refill s) (refill_reader s))
    cases hb
  case putb n v =>
    obtain ⟨e, t, hb, rfl⟩ := key _ h (fun t ht => by
      obtain ⟨-, ht⟩ := require_eq_done ht
      cases ht
      exact wr (pushFlush_writer _ s))
    rcases require_eq_raised hb with ⟨-, -, rfl⟩ | ⟨-, hb⟩
    · exact ⟨e, _, .refl _, rfl⟩
    · cases hb
  case flb =>
    obtain ⟨e, t, hb, -⟩ := key _ h (fun t ht => by cases ht; exact wr (flushWhileFull_writer s))
    cases hb
  case fla =>
    obtain ⟨e, t, hb, -⟩ := key _ h (fun t ht => by cases ht; exact wr (flushAll_writer s))
    cases hb
  case wraw b =>
    obtain ⟨e, t, hb, rfl⟩ := key _ h (fun t ht => by
      obtain ⟨-, ht⟩ := require_eq_done ht
      cases ht
      exact hrun)
    rcases require_eq_raised hb with ⟨-, -, rfl⟩ | ⟨-, hb⟩
    · exact ⟨e, _, .refl _, rfl⟩
    · cases hb
  case hclr =>
    obtain ⟨e, t, hb, -⟩ := key _ h (fun t ht => by cases ht; exact hrun)
    cases hb
  case hadd x =>
    obtain ⟨e, t, hb, rfl⟩ := key _ h (fun t ht => by
      obtain ⟨-, ht⟩ := withSymbol_done ht
      obtain ⟨-, ht⟩ := require_eq_done ht
      cases ht
      exact hrun)
    rcases withSymbol_raised hb with rfl | hb
    · exact ⟨e, _, .refl _, rfl⟩
    · rcases require_eq_raised hb with ⟨-, -, rfl⟩ | ⟨-, hb⟩
      · exact ⟨e, _, .refl _, rfl⟩
      · cases hb
  case hseed =>
    obtain ⟨e, t, hb, rfl⟩ := key _ h (fun t ht => by
      obtain ⟨-, ht⟩ := require_eq_done ht
      cases ht
      exact hrun)
    rcases require_eq_raised hb with ⟨-, -, rfl⟩ | ⟨-, hb⟩
    · exact ⟨e, _, .refl _, rfl⟩
    · cases hb
  case build =>
    obtain ⟨e, t, hb, rfl⟩ := key _ h (fun t ht => by
      obtain ⟨-, ht⟩ := require_eq_done ht
      cases ht
      exact hrun)
    rcases require_eq_raised hb with ⟨-, -, rfl⟩ | ⟨-, hb⟩
    · exact ⟨e, _, .refl _, rfl⟩
    · cases hb
  case qhist x =>
    obtain ⟨e, t, hb, rfl⟩ := key _ h (fun t ht => by obtain ⟨-, ht⟩ := withSymbol_done ht; cases ht; exact hrun)
    rcases withSymbol_raised hb with rfl | hb
    · exact ⟨e, _, .refl _, rfl⟩
    · cases hb
  case qlen x =>
    obtain ⟨e, t, hb, rfl⟩ := key _ h (fun t ht => by obtain ⟨-, ht⟩ := withSymbol_done ht; cases ht; exact hrun)
    rcases withSymbol_raised hb with rfl | hb
    · exact ⟨e, _, .refl _, rfl⟩
    · cases hb
  case qcode x =>
    obtain ⟨e, t, hb, rfl⟩ := key _ h (fun t ht => by obtain ⟨-, ht⟩ := withSymbol_done ht; cases ht; exact hrun)
    rcases withSymbol_raised hb with rfl | hb
    · exact ⟨e, _, .refl _, rfl⟩
    · cases hb
  case ehdr =>
    obtain ⟨e, t, hb, rfl⟩ := key _ h (fun t ht => by
      obtain ⟨-, ht⟩ := require_eq_done ht
      cases ht
      exact wr (pushFields_writer _ s))
    rcases require_eq_raised hb with ⟨-, -, rfl⟩ | ⟨-, hb⟩
    · exact ⟨e, _, .refl _, rfl⟩
    · cases hb
  case enc x =>
    obtain ⟨e, t, hb, rfl⟩ := key _ h (fun t ht => by
      obtain ⟨-, ht⟩ := withSymbol_done ht
      obtain ⟨-, ht⟩ := require_eq_done ht
      obtain ⟨-, ht⟩ := require_eq_done ht
      cases ht
      exact wr (pushFlush_writer _ s))
    rcases withSymbol_raised hb with rfl | hb
    · exact ⟨e, _, .refl _, rfl⟩
    · rcases require_eq_raised hb with ⟨-, -, rfl⟩ | ⟨-, hb⟩
      · exact ⟨e, _, .refl _, rfl⟩
      · rcases require_eq_raised hb with ⟨-, -, rfl⟩ | ⟨-, hb⟩
        · exact ⟨e, _, .refl _, rfl⟩
        · cases hb
  case dhdr =>
    obtain ⟨e, t, hb, rfl⟩ := key _ h (fun t ht => by
      obtain ⟨k, r, hr, ht⟩ := Ran.andThen_eq_done ht
      have h0 : ReaderStep s r := by simpa [hr] using readField_reader 9 s
      split at ht
      · cases ht
      · split at ht
        · cases ht
        · obtain ⟨v, tbl, h1, -, rfl⟩ := readHeaderBody_done ht
          exact rd (t := v) (h0.trans h1))
    refine ⟨e, t, ?_, rfl⟩
    have h0 := (readField_reader 9 s).quiet
    rcases Ran.andThen_eq_raised hb with hb | ⟨k, r, hr, hb⟩
    · rw [hb] at h0; exact h0
    · rw [hr] at h0
      split at hb
      · cases hb; exact h0
      · split at hb
        · cases hb; exact h0
        · exact h0.trans (readHeaderBody_raised hb)
  case dec =>
    obtain ⟨e, t, hb, rfl⟩ := key _ h (fun t ht => by
      obtain ⟨x, r, hr, ht⟩ := Ran.andThen_eq_done ht
      cases ht
      exact dc hr)
    refine ⟨e, t, ?_, rfl⟩
    rcases Ran.andThen_eq_raised hb with hb | ⟨x, r, -, hb⟩
    · exact decodeSymbol_raised hb
    · cases hb
  case decn =>
    obtain ⟨e, t, hb, rfl⟩ := key _ h (fun t ht => by
      obtain ⟨x, r, hr, ht⟩ := Ran.andThen_eq_done ht
      obtain ⟨-, ht⟩ := require_eq_done ht
      cases ht
      exact dc hr)
    refine ⟨e, t, ?_, rfl⟩
    rcases Ran.andThen_eq_raised hb with hb | ⟨x, r, hr, hb⟩
    · exact decodeSymbol_raised hb
    · rcases require_eq_raised hb with ⟨-, -, rfl⟩ | ⟨-, hb⟩
      · exact decodeSymbol_quiet hr
      · cases hb
  case decd =>
    obtain ⟨e, t, hb, rfl⟩ := key _ h (fun t ht => by
      obtain ⟨x, r, hr, ht⟩ := Ran.andThen_eq_done ht
      obtain ⟨-, ht⟩ := require_eq_done ht
      cases ht
      exact dc hr)
    refine ⟨e, t, ?_, rfl⟩
    rcases Ran.andThen_eq_raised hb with hb | ⟨x, r, hr, hb⟩
    · exact decodeSymbol_raised hb
    · rcases require_eq_raised hb with ⟨-, -, rfl⟩ | ⟨-, hb⟩
      · exact decodeSymbol_quiet hr
      · cases hb
  case uend =>
    obtain ⟨e, t, hb, rfl⟩ := key _ h (fun t ht => by
      obtain ⟨-, ht⟩ := require_eq_done ht
      obtain ⟨-, ht⟩ := require_eq_done ht
      cases ht
      exact rd (t := refill s) (refill_reader s))
    refine ⟨e, t, ?_, rfl⟩
    rcases require_eq_raised hb with ⟨-, -, rfl⟩ | ⟨-, hb⟩
    · exact .refl _
    · rcases require_eq_raised hb with ⟨-, -, rfl⟩ | ⟨-, hb⟩
      · exact (refill_reader s).quiet
      · cases hb

/-! ### Every command -/

/-- While halted every command but SRST leaves the state as it is (60_exceptions.md R304). -/
theorem exec_halted {i : Instr} {s : State} (hi : i ≠ .srst) (h : s.errf = true) : exec i s = .next s := by
  cases i <;> simp only [exec] <;> first | exact absurd rfl hi | exact command_halted h _

/-- Every command answers a next state, in every state of the block. -/
theorem exec_next (i : Instr) (s : State) : ∃ u, exec i s = .next u := by
  have key : ∀ body : State → Ran Unit, ∃ u, command s body = .next u := by
    intro body
    unfold command
    split
    · exact ⟨s, rfl⟩
    · cases body s <;> exact ⟨_, rfl⟩
  cases i <;> simp only [exec] <;> first | exact ⟨_, rfl⟩ | exact key _

end Sys2Proof.Machine
end

