-- ==== Sys2Proof/Laws/Header.lean ====
section
/-! SUPPORT. What the loops of DHDR read (45_decoder.md R270), said once in both directions: on a stream that begins with the
fields, and from the fields read; and the table a header stands for. -/

namespace Sys2Proof.Machine

/-- A stream that begins with a 9-bit field: the field is read and consumed. -/
theorem readField_field {v : Nat} {rest : Bits} {s : State} (hv : v < 512) (h : s.input = lsbSeq v 9 ++ rest) :
    ∃ t, readField 9 s = .done v t ∧ t.input = rest := by
  rcases readField_spec (n := 9) (by omega) s with ⟨-, h1, h2⟩ | ⟨h1, -⟩
  · refine ⟨_, ?_, h2.trans ?_⟩
    · rw [h1, h, List.take_append_of_le_length (by simp), List.take_of_length_le (by simp), lsbVal_lsbSeq,
        Nat.mod_eq_of_lt (by simpa using hv)]
    · rw [h, List.drop_append_of_le_length (by simp), List.drop_of_length_le (by simp), List.nil_append]
  · rw [h] at h1; simp at h1

/-- A field and then a part that, from a reader that has looked ahead, consumes `m` bits and looks ahead. -/
theorem readField_then {v m k : Nat} {s t u : State} (h : readField 9 s = .done v t)
    (hu : LooksAhead 0 t t → LooksAhead m t u) (hk : k = 9 + m) : LooksAhead k s u := by
  have h1 := readField_looksAhead (by omega) h
  rcases readField_spec (n := 9) (by omega) s with ⟨h0, -⟩ | ⟨-, h2, -⟩
  · rw [hk]; exact h1.trans (hu h1.settled) h0
  · rw [h2] at h; cases h

/-- A 9-bit field that was read stood at the head of the stream. -/
theorem readField_done {v : Nat} {s t : State} (h : readField 9 s = .done v t) :
    v < 512 ∧ s.input = lsbSeq v 9 ++ t.input := by
  rcases readField_spec (n := 9) (by omega) s with ⟨h0, h1, h2⟩ | ⟨-, h1, -⟩
  · rw [h1] at h; cases h
    have hl : (s.input.take 9).length = 9 := by simp; omega
    have := lsbVal_lt (s.input.take 9)
    rw [hl] at this
    refine ⟨this, ?_⟩
    rw [h2]
    have e := lsbSeq_lsbVal (s.input.take 9)
    rw [hl] at e
    rw [e, List.take_append_drop]
  · rw [h1] at h; cases h

/-- The bits of 9-bit fields one after another (30_encoding.md R140). -/
def fields (l : List Nat) : Bits := l.flatMap fun y => lsbSeq y 9

/-- The first of several fields. -/
theorem fields_cons (a l) : fields (a::l) = lsbSeq a 9 ++ fields l := rfl

/-- The fields of two lists. -/
theorem fields_append (a l) : fields (a++l) = fields a ++ fields l := by simp [fields]

/-- Distinct symbol ids at the head of the stream are read; `k` more are then to read. The look-ahead is that of the whole
when the reader has looked ahead before. -/
theorem readSymbols_ok {ids seen : List Nat} {rest : Bits} {s : State} (hn : (seen ++ ids).Nodup)
    (hi : ∀ y ∈ ids, y ≤ 258)
    (k : Nat) (h : s.input = fields ids ++ rest) :
    ∃ t, readSymbols (ids.length + k) seen s = readSymbols k (seen ++ ids) t ∧ ReaderStep s t ∧ t.input = rest
      ∧ (LooksAhead 0 s s → LooksAhead (9 * ids.length) s t) := by
  induction ids generalizing seen s with
  | nil => exact ⟨s, by simp, .refl s, by simpa [fields] using h, fun hs => hs⟩
  | cons a ids ih =>
    rw [fields_cons, List.append_assoc] at h
    have ha := hi a (by simp)
    obtain ⟨t, h1, h2⟩ := readField_field (by omega) h
    have hs : a ∉ seen := by
      intro hm
      rw [List.nodup_append] at hn
      exact hn.2.2 a hm a (by simp) rfl
    obtain ⟨u, h3, h4, h5, h6⟩ := ih (seen := seen ++ [a]) (s := t) (by simpa using hn) (fun y hy => hi y (by simp [hy])) h2
    have hr := readField_reader 9 s
    rw [h1] at hr
    refine ⟨u, ?_, hr.trans h4, h5, fun _ => readField_then h1 (fun hs => h6 hs) (by simp; omega)⟩
    have : (a::ids).length + k = (ids.length + k) + 1 := by simp; omega
    have h6 : ¬ 258 < a := by omega
    rw [this, readSymbols, h1]
    simp only [Ran.andThen_done, h6, hs, if_false]
    rw [h3]; simp

/-- The symbol ids that were read are distinct, at most 258, and stood at the head of the stream. -/
theorem readSymbols_done {k : Nat} {seen out : List Nat} {s t : State} (h : readSymbols k seen s = .done out t)
    (hn : seen.Nodup) :
    ∃ ids, out = seen ++ ids ∧ ids.length = k ∧ out.Nodup ∧ (∀ y ∈ ids, y ≤ 258) ∧ s.input = fields ids ++ t.input
      ∧ (LooksAhead 0 s s → LooksAhead (9 * ids.length) s t) := by
  induction k generalizing seen s with
  | zero => cases h; exact ⟨[], by simp [fields, hn]⟩
  | succ k ih =>
    obtain ⟨a, u, hu, h⟩ := Ran.andThen_eq_done h
    obtain ⟨-, hf⟩ := readField_done hu
    split at h; · cases h
    split at h; · cases h
    obtain ⟨ids, h1, h2, h3, h4, h5, h6⟩ := ih h (by simp [List.nodup_append, hn]; intro b hb he; subst he; contradiction)
    refine ⟨a :: ids, by simpa using h1, by simp [h2], h3, ?_, ?_, fun _ => readField_then hu h6 (by simp; omega)⟩
    · intro y hy; rcases List.mem_cons.mp hy with rfl | hy
      · omega
      · exact h4 y hy
    · rw [hf, h5, fields_cons, List.append_assoc]

/-- Length counts whose sum stays below `k` are read, and the loop goes on. -/
theorem readCounts_ok {cs counts : List Nat} {rest : Bits} {s : State} (k room : Nat)
    (hlt : (counts ++ cs).sum < k) (hc : ∀ y ∈ cs, y < 512)
    (h : s.input = fields cs ++ rest) :
    ∃ t, readCounts k (cs.length + room) counts s = readCounts k room (counts ++ cs) t ∧ ReaderStep s t ∧ t.input = rest
      ∧ (LooksAhead 0 s s → LooksAhead (9 * cs.length) s t) := by
  induction cs generalizing counts s with
  | nil => exact ⟨s, by simp, .refl s, by simpa [fields] using h, fun hs => hs⟩
  | cons a cs ih =>
    rw [fields_cons, List.append_assoc] at h
    obtain ⟨t, h1, h2⟩ := readField_field (hc a (by simp)) h
    simp at hlt
    obtain ⟨u, h3, h4, h5, h6⟩ := ih (counts := counts ++ [a]) (s := t) (by simp; omega) (fun y hy => hc y (by simp [hy])) h2
    have hr := readField_reader 9 s
    rw [h1] at hr
    refine ⟨u, ?_, hr.trans h4, h5, fun _ => readField_then h1 (fun hs => h6 hs) (by simp; omega)⟩
    have : (a::cs).length + room = (cs.length + room) + 1 := by simp; omega
    have h6 : ¬ k < counts.sum + a := by omega
    have h7 : ¬ counts.sum + a = k := by omega
    rw [this, readCounts, h1]
    simp only [Ran.andThen_done, h6, h7, if_false]
    rw [h3]; simp

/-- The length counts that were read sum to `k`, the last is not 0, and they stood at the head of the stream. -/
theorem readCounts_done {k room : Nat} {counts out : List Nat} {s t : State} (h : readCounts k room counts s = .done out t)
    (hlt : counts.sum < k) :
    ∃ cs c, out = counts ++ cs ++ [c] ∧ cs.length + 1 ≤ room ∧ out.sum = k ∧ 1 ≤ c
      ∧ (∀ y ∈ cs ++ [c], y < 512) ∧ s.input = fields (cs ++ [c]) ++ t.input
      ∧ LooksAhead (9 * (cs.length + 1)) s t := by
  induction room generalizing counts s with
  | zero => cases h
  | succ room ih =>
    obtain ⟨a, u, hu, h⟩ := Ran.andThen_eq_done h
    obtain ⟨ha, hf⟩ := readField_done hu
    split at h; · cases h
    split at h
    · cases h
      exact ⟨[], a, by simp, by simp, by simpa, by omega, by simpa using ha, by simpa [fields] using hf,
        readField_looksAhead (n := 9) (by omega) hu⟩
    · obtain ⟨cs, c, h1, h2, h3, h4, h5, h6, h7⟩ := ih h (by simp; omega)
      refine ⟨a :: cs, c, by simpa using h1, by simp; omega, h3, h4, ?_, ?_,
        readField_then hu (fun _ => h7) (by simp; omega)⟩
      · intro y hy; simp at hy; rcases hy with rfl | hy
        · exact ha
        · exact h5 y (by simpa using hy)
      · rw [hf, h6, List.cons_append, fields_cons, List.append_assoc]

/-- An entry of a register file filled from a list. -/
theorem getElem_fillFile (n : Nat) (l : List (BitVec 9)) (i : Nat) (h : i < n) : (fillFile n l)[i] = l[i]?.getD 0 := by
  simp [fillFile]

/-- The length counts of the table of a header. -/
theorem headerTable_lcntAt (ids cs : List Nat) (hc : cs.length ≤ 50) (hb : ∀ y ∈ cs, y < 512) (l : Nat) :
    (headerTable ids cs).lcntAt l = if l = 0 then 0 else cs[l-1]?.getD 0 := by
  unfold CodeTable.lcntAt
  split
  · rfl
  · by_cases h : l - 1 < 50
    · simp only [headerTable, Vector.getElem?_eq_getElem h, Option.getD_some, getElem_fillFile]
      by_cases h2 : l - 1 < cs.length
      · have := hb _ (List.getElem_mem h2)
        simp [h2]; omega
      · simp [h2]
    · have h1 : ¬ l - 1 < cs.length := by omega
      simp [headerTable, h, h1]

/-- The present symbols of the table of a header. -/
theorem headerTable_symbols (ids cs : List Nat) (h : ids.length ≤ 259) :
    (headerTable ids cs).symbols = ids.map (BitVec.ofNat 9) := by
  have e : ids.length % 512 = ids.length := by omega
  unfold CodeTable.symbols
  apply List.ext_getElem
  · simp [headerTable, e]; omega
  · intro i h1 h2
    simp at h2
    simp [headerTable, fillFile, h2]

/-- Two tables with the same length counts hold the same registers. -/
theorem lcnt_eq_of_lcntAt {t u : CodeTable} (h : ∀ l, t.lcntAt l = u.lcntAt l) : t.lcnt = u.lcnt := by
  apply Vector.ext
  intro i hi
  have := h (i+1)
  simp [CodeTable.lcntAt, hi] at this
  exact BitVec.eq_of_toNat_eq this

end Sys2Proof.Machine
end

