-- ==== Sys2Proof/Laws/Huffman.lean ====
section
/-! SUPPORT. The queue of the tree construction (43_coder.md R223), the merging loop, and the canonical order (R226), each said
once. -/

namespace Sys2Proof.Machine

/-- The queue stands in the order of extraction. -/
def QueueSorted (q : List QNode) : Prop := q.Pairwise (fun a b => a.le b = true)

/-- The order of extraction, by weight and then sequence number. -/
theorem QNode_le_iff (a b : QNode) : a.le b = true ↔ a.w < b.w ∨ (a.w = b.w ∧ a.seq ≤ b.seq) := by simp [QNode.le]

/-- The order of extraction is total. -/
theorem QNode_le_total (a b : QNode) : a.le b = true ∨ b.le a = true := by simp only [QNode_le_iff]; omega

/-- The order of extraction is transitive. -/
theorem QNode_le_trans {a b c : QNode} (h1 : a.le b = true) (h2 : b.le c = true) : a.le c = true := by
  simp only [QNode_le_iff] at *; omega

/-- `enqueue` adds one node. -/
theorem enqueue_perm (x : QNode) (q : List QNode) : (enqueue x q).Perm (x :: q) := by
  induction q with
  | nil => exact .refl _
  | cons y q ih =>
    unfold enqueue; split
    · exact .refl _
    · exact (ih.cons y).trans (.swap _ _ _)

/-- `enqueue` keeps the order of extraction. -/
theorem enqueue_sorted {x : QNode} {q : List QNode} (h : QueueSorted q) : QueueSorted (enqueue x q) := by
  induction q with
  | nil => simp [enqueue, QueueSorted]
  | cons y q ih =>
    unfold QueueSorted at h; rw [List.pairwise_cons] at h
    unfold enqueue; split
    · rename_i hxy
      unfold QueueSorted; rw [List.pairwise_cons, List.pairwise_cons]
      refine ⟨?_, h⟩
      intro z hz; rcases List.mem_cons.mp hz with rfl | hz
      · exact hxy
      · exact QNode_le_trans hxy (h.1 z hz)
    · rename_i hxy
      unfold QueueSorted; rw [List.pairwise_cons]
      refine ⟨?_, ih h.2⟩
      intro z hz
      rcases List.mem_cons.mp ((enqueue_perm x q).mem_iff.mp hz) with rfl | hz
      · rcases QNode_le_total z y with h' | h'
        · exact absurd h' hxy
        · exact h'
      · exact h.1 z hz

/-- Whatever one merge keeps holds of what the loop treeLeaves. -/
theorem mergeLoop_inv {P : Nat → List QNode → Prop}
    (hstep : ∀ j a b q, QueueSorted (a :: b :: q) → P j (a :: b :: q) → P (j + 1) (enqueue (mergeNode j a b) q))
    (fuel : Nat) :
    ∀ j q, QueueSorted q → P j q → ∃ j', P j' (mergeLoop fuel j q) ∧ QueueSorted (mergeLoop fuel j q) := by
  induction fuel with
  | zero => intro j q hs h; exact ⟨j, h, hs⟩
  | succ fuel ih =>
    intro j q hs h
    match q, hs, h with
    | [], hs, h => exact ⟨j, h, hs⟩
    | [a], hs, h => exact ⟨j, h, hs⟩
    | a :: b :: q, hs, h =>
      have hs' : QueueSorted q := by
        unfold QueueSorted at hs
        rw [List.pairwise_cons, List.pairwise_cons] at hs
        exact hs.2.2
      exact ih (j+1) _ (enqueue_sorted hs') (hstep j a b q hs h)

/-- With enough merges the loop treeLeaves one node, the root. -/
theorem mergeLoop_single (fuel : Nat) : ∀ j q, q ≠ [] → q.length ≤ fuel + 1 → ∃ n, mergeLoop fuel j q = [n] := by
  induction fuel with
  | zero => intro j q h1 h2; match q, h1, h2 with
            | [a], _, _ => exact ⟨a, rfl⟩
            | a::b::q, _, h => simp at h
  | succ fuel ih =>
    intro j q h1 h2
    match q, h1, h2 with
    | [a], _, _ => exact ⟨a, rfl⟩
    | a::b::q, _, h =>
      refine ih (j+1) _ ?_ ?_
      · intro hh; have := (enqueue_perm (mergeNode j a b) q).length_eq; rw [hh] at this; simp at this
      · rw [(enqueue_perm (mergeNode j a b) q).length_eq]; simp at h ⊢; omega

/-- The queue before the first merge holds the leaves, in order. -/
theorem leafQueue_perm (h) : (leafQueue h).Perm ((present h).map (leafNode h)) ∧ QueueSorted (leafQueue h) := by
  unfold leafQueue
  induction present h with
  | nil => exact ⟨.refl _, by simp [QueueSorted]⟩
  | cons x l ih => exact ⟨(enqueue_perm _ _).trans (ih.1.cons _), enqueue_sorted ih.2⟩

/-- The symbols at the leaves of a tree, from left to right. -/
def treeLeaves : HTree → List Nat
  | .leaf x => [x]
  | .node a b => treeLeaves a ++ treeLeaves b

/-- The depth of the deepest leaf. -/
def treeHeight : HTree → Nat
  | .leaf _ => 0
  | .node a b => max (treeHeight a) (treeHeight b) + 1

/-- Every leaf has a depth. -/
theorem depths_sym (t : HTree) (d) : (t.depths d).map SymLen.sym = treeLeaves t := by
  induction t generalizing d with
  | leaf x => rfl
  | node a b iha ihb => simp [HTree.depths, treeLeaves, iha, ihb]

/-- No leaf stands above the root or below the height. -/
theorem depths_le (t : HTree) (d) : ∀ x ∈ t.depths d, d ≤ x.len ∧ x.len ≤ d + treeHeight t := by
  induction t generalizing d with
  | leaf x => simp [HTree.depths, treeHeight]
  | node a b iha ihb =>
    intro x hx; simp only [HTree.depths, List.mem_append] at hx
    simp only [treeHeight]
    rcases hx with hx | hx
    · have := iha (d+1) x hx; omega
    · have := ihb (d+1) x hx; omega

/-- The leaves of a tree fill it: their Kraft sum is that of the root. -/
theorem depths_kraft (t : HTree) (d n) (h : d + treeHeight t ≤ n) :
    ((t.depths d).map fun x => 2^(n - x.len)).sum = 2^(n-d) := by
  induction t generalizing d with
  | leaf x => simp [HTree.depths]
  | node a b iha ihb =>
    simp only [treeHeight] at h
    simp only [HTree.depths, List.map_append, List.sum_append]
    rw [iha (d+1) (by omega), ihb (d+1) (by omega)]
    rw [← Nat.two_mul, ← Nat.pow_succ']; congr 1; omega

/-- The canonical order, by length and then symbol id. -/
theorem SymLen_le_iff (a b : SymLen) : a.le b = true ↔ a.len < b.len ∨ (a.len = b.len ∧ a.sym ≤ b.sym) := by
  simp [SymLen.le]

/-- `insertCanonical` adds one symbol. -/
theorem insertCanonical_perm (x : SymLen) (l) : (insertCanonical x l).Perm (x :: l) := by
  induction l with
  | nil => exact .refl _
  | cons y q ih =>
    unfold insertCanonical; split
    · exact .refl _
    · exact (ih.cons y).trans (.swap _ _ _)

/-- The list stands in canonical order. -/
def CanonicallySorted (q : List SymLen) : Prop := q.Pairwise (fun a b => a.le b = true)

/-- `insertCanonical` keeps the canonical order. -/
theorem insertCanonical_sorted {x : SymLen} {q} (h : CanonicallySorted q) : CanonicallySorted (insertCanonical x q) := by
  induction q with
  | nil => simp [insertCanonical, CanonicallySorted]
  | cons y q ih =>
    unfold CanonicallySorted at h; rw [List.pairwise_cons] at h
    unfold insertCanonical; split
    · rename_i hxy
      unfold CanonicallySorted; rw [List.pairwise_cons, List.pairwise_cons]
      refine ⟨?_, h⟩
      intro z hz; rcases List.mem_cons.mp hz with rfl | hz
      · exact hxy
      · have := h.1 z hz; simp only [SymLen_le_iff] at *; omega
    · rename_i hxy
      unfold CanonicallySorted; rw [List.pairwise_cons]
      refine ⟨?_, ih h.2⟩
      intro z hz
      rcases List.mem_cons.mp ((insertCanonical_perm x q).mem_iff.mp hz) with rfl | hz
      · simp only [SymLen_le_iff] at *; omega
      · exact h.1 z hz

/-- `canonicalOrder` sorts. -/
theorem canonicalOrder_spec (l) : (canonicalOrder l).Perm l ∧ CanonicallySorted (canonicalOrder l) := by
  unfold canonicalOrder
  induction l with
  | nil => exact ⟨.refl _, by simp [CanonicallySorted]⟩
  | cons x l ih => exact ⟨(insertCanonical_perm _ _).trans (ih.1.cons _), insertCanonical_sorted ih.2⟩

/-- `maxLength` is the largest length. -/
theorem maxLength_spec (l : List SymLen) :
    (∀ x ∈ l, x.len ≤ maxLength l) ∧ (l ≠ [] → ∃ x ∈ l, x.len = maxLength l) := by
  induction l with
  | nil => simp
  | cons a l ih =>
    have e : maxLength (a::l) = max a.len (maxLength l) := rfl
    rw [e]
    refine ⟨?_, fun _ => ?_⟩
    · intro x hx; rcases List.mem_cons.mp hx with rfl | hx
      · omega
      · have := ih.1 x hx; omega
    · by_cases hl : l = []
      · subst hl; exact ⟨a, by simp, by simp [maxLength]⟩
      · obtain ⟨x, hx, h⟩ := ih.2 hl
        rcases Nat.le_total a.len (maxLength l) with h' | h'
        · exact ⟨x, by simp [hx], by omega⟩
        · exact ⟨a, by simp, by omega⟩

end Sys2Proof.Machine
end

