-- ==== Sys2Proof/Laws/PerInstr.lean ====
section
/-! SUPPORT. A fact about every command's encoding, one lemma per constructor: its word has the match and mask of its row in
opcode_table.json, written out from that table. -/

namespace Sys2Proof.Laws.RowMatch

/-- The mask column of opcode_table.json, by format. -/
def rowMask : Format → Word
  | .Z => 0xFFFFFFFF
  | .S => 0xFFFFFE00
  | .N => 0xFFF0FFFF
  | .NV => 0xFFF0FE00
  | .B => 0xFFFFFF00

/-- The match column of opcode_table.json. -/
def rowMatch : Instr → Word
  | .nop => 0x00000000
  | .srst => 0x01000000
  | .peek _ => 0x20000000
  | .rdb _ => 0x21000000
  | .skip _ => 0x22000000
  | .rchk => 0x23000000
  | .putb _ _ => 0x30000000
  | .flb => 0x31000000
  | .fla => 0x32000000
  | .wraw _ => 0x33000000
  | .hclr => 0x40000000
  | .hadd _ => 0x41000000
  | .hseed => 0x42000000
  | .build => 0x43000000
  | .qhist _ => 0x44000000
  | .qlen _ => 0x45000000
  | .qcode _ => 0x46000000
  | .ehdr => 0x50000000
  | .enc _ => 0x51000000
  | .dhdr => 0x60000000
  | .dec => 0x61000000
  | .decn => 0x62000000
  | .decd => 0x63000000
  | .uend => 0x64000000

/-- The command's word fits its row of the opcode table, whatever its operands. -/
def Statement (i : Instr) : Prop := encode i &&& rowMask i.format = rowMatch i

theorem nop : Statement .nop := by unfold Statement; decide +kernel
theorem srst : Statement .srst := by unfold Statement; decide +kernel
theorem peek : ∀ n, Statement (.peek n) := by unfold Statement; decide +kernel
theorem rdb : ∀ n, Statement (.rdb n) := by unfold Statement; decide +kernel
theorem skip : ∀ n, Statement (.skip n) := by unfold Statement; decide +kernel
theorem rchk : Statement .rchk := by unfold Statement; decide +kernel
theorem putb : ∀ n v, Statement (.putb n v) := by unfold Statement; decide +kernel
theorem flb : Statement .flb := by unfold Statement; decide +kernel
theorem fla : Statement .fla := by unfold Statement; decide +kernel
theorem wraw : ∀ b, Statement (.wraw b) := by unfold Statement; decide +kernel
theorem hclr : Statement .hclr := by unfold Statement; decide +kernel
theorem hadd : ∀ s, Statement (.hadd s) := by unfold Statement; decide +kernel
theorem hseed : Statement .hseed := by unfold Statement; decide +kernel
theorem build : Statement .build := by unfold Statement; decide +kernel
theorem qhist : ∀ s, Statement (.qhist s) := by unfold Statement; decide +kernel
theorem qlen : ∀ s, Statement (.qlen s) := by unfold Statement; decide +kernel
theorem qcode : ∀ s, Statement (.qcode s) := by unfold Statement; decide +kernel
theorem ehdr : Statement .ehdr := by unfold Statement; decide +kernel
theorem enc : ∀ s, Statement (.enc s) := by unfold Statement; decide +kernel
theorem dhdr : Statement .dhdr := by unfold Statement; decide +kernel
theorem dec : Statement .dec := by unfold Statement; decide +kernel
theorem decn : Statement .decn := by unfold Statement; decide +kernel
theorem decd : Statement .decd := by unfold Statement; decide +kernel
theorem uend : Statement .uend := by unfold Statement; decide +kernel

end Sys2Proof.Laws.RowMatch
end

