-- ==== Sys2Proof/Laws/Step.lean ====
section
/-! SUPPORT. What one step can do, said once: nothing, one command, the error of a rejected word, an ignored access, a
register read, the `RESET` input, or a new stream. -/

namespace Sys2Proof.Machine

/-- A register read changes nothing but the answer and the model's counter (10_state.md R47). -/
theorem readRegister_eq (o : Nat) (s : State) : ∃ v n, readRegister o s = { s with rdata := v, free := n } := by
  unfold readRegister readStatus readRes
  split
  · split <;> exact ⟨_, _, rfl⟩
  · split
    · split <;> exact ⟨_, _, rfl⟩
    · split
      · split <;> exact ⟨_, _, rfl⟩
      · split <;> exact ⟨_, _, rfl⟩

/-- An access that is not refused passed every check. -/
theorem access_next {o n : Nat} {s u : State} {body : Host.Outcome State Fault Refusal}
    (h : access o n s body = .next u) : s.resetIn = false ∧ n = 4 ∧ o % 4 = 0 ∧ o < 0x20 ∧ body = .next u := by
  unfold access at h
  split at h
  · cases h
  · split at h
    · cases h
    · split at h
      · cases h
      · rename_i h1 h2 h3
        simp only [not_not] at h2
        simp only [offEnd] at h3
        exact ⟨by simpa using h1, h2.1, h2.2, by omega, h⟩

/-- All that issuing a word can do. -/
theorem issue_cases {w : Word} {s u : State} (h : issue w s = .next u) :
    (∃ i, decode w = .command i ∧ exec i s = .next u) ∨ (∃ e, s.errf = false ∧ u = enterHalt e s) ∨ u = s := by
  have key : ∀ e, rejectWord e s = .next u → (∃ e, s.errf = false ∧ u = enterHalt e s) ∨ u = s := by
    intro e h
    rcases command_cases h with ⟨-, b⟩ | ⟨-, b⟩ | ⟨a, e, t, b, c⟩
    · exact .inr b
    · cases b
    · cases b; exact .inl ⟨_, a, c⟩
  unfold issue at h
  split at h
  · exact .inr (key _ h)
  · exact .inr (key _ h)
  · exact .inl ⟨_, ‹_›, h⟩

/-- What the host's next event `e` does to `s`, from which that event is no longer pending. -/
inductive StepEffect (e : HostEvent) (s : State) : State → Prop where
  | command {w : Word} {i : Instr} {u : State} (he : e = .write 0 4 w) (hd : decode w = .command i)
      (h : exec i s = .next u) : StepEffect e s u
  | rejected (c : ErrCode) (hrun : s.errf = false) : StepEffect e s (enterHalt c s)
  | ignored : StepEffect e s s
  | answered (v : BitVec 32) (n : Nat) : StepEffect e s { s with rdata := v, free := n }
  | resetOn (he : e = .drive true) : StepEffect e s { blockReset s with resetIn := true }
  | resetOff (he : e = .drive false) : StepEffect e s { s with resetIn := false }
  | newSource (bs : List Byte) (he : e = .attachSource bs) : StepEffect e s { s with source := bs }
  | newSink (he : e = .attachSink) : StepEffect e s { s with sink := [] }

/-- Everything a step can do. -/
theorem step_cases {s u : State} (h : step s = .next u) :
    (s.host = [] ∧ u = s) ∨ ∃ e es, s.host = e :: es ∧ StepEffect e (s.setHost es) u := by
  unfold step hostStep at h
  split at h
  · cases h; exact .inl ⟨‹_›, rfl⟩
  · rename_i e es he
    refine .inr ⟨e, es, he, ?_⟩
    cases e with
    | write o n w =>
      obtain ⟨-, rfl, -, -, h⟩ := access_next h
      unfold writeRegister at h
      split at h
      · rename_i ho
        rcases issue_cases h with ⟨i, hd, h⟩ | ⟨c, hr, rfl⟩ | rfl
        · exact .command (by rw [ho]) hd h
        · exact .rejected c hr
        · exact .ignored
      · cases h; exact .ignored
    | read o n =>
      obtain ⟨-, -, -, -, h⟩ := access_next h
      cases h
      obtain ⟨v, n, h⟩ := readRegister_eq o (s.setHost es)
      rw [h]
      exact .answered v n
    | drive l =>
      cases h
      cases l
      · exact .resetOff rfl
      · exact .resetOn rfl
    | attachSource bs => cases h; exact .newSource bs rfl
    | attachSink => cases h; exact .newSink rfl

end Sys2Proof.Machine
end

