-- ==== Sys2Proof/Tests/Slice0.lean ====
section
/-! SUPPORT. Tests: the decoder on words written out from 30_encoding.md, the WellFormed smoke test, one step of each
command on small states (expected values from 95_test_vectors.md or worked by hand from the rules), and for every statement
with hypotheses a concrete case that meets them. -/

namespace Sys2Proof.Tests

set_option Elab.async false

open Sys2Proof.Machine

/-! ### WellFormed refuses each kind of ill-formed command (30_encoding.md R116) -/

theorem test_wf_count_zero : (Instr.peek 0).wellFormed = false := by decide
theorem test_wf_count_ten : (Instr.skip 10).wellFormed = false := by decide
theorem test_wf_value_too_wide : (Instr.putb 3 8).wellFormed = false := by decide
theorem test_wf_put_count_zero : (Instr.putb 0 0).wellFormed = false := by decide
theorem test_wf_symbol_259 : (Instr.hadd 259).wellFormed = false := by decide
theorem test_wf_edges : (Instr.rdb 9).wellFormed = true ∧ (Instr.putb 9 511).wellFormed = true
    ∧ (Instr.enc 258).wellFormed = true := by decide

/-! ### Decoding: one word per command, written out field by field from R110 to R113 -/

/-- OPC (8 bits), RSV1 (4), N (4), RSV2 (7), OPD (9). -/
theorem test_decode_control_reader :
    decode 0b00000000000000000000000000000000 = .command .nop
    ∧ decode 0b00000001000000000000000000000000 = .command .srst
    ∧ decode 0b00100000000010010000000000000000 = .command (.peek 9)
    ∧ decode 0b00100001000001000000000000000000 = .command (.rdb 4)
    ∧ decode 0b00100010000000110000000000000000 = .command (.skip 3)
    ∧ decode 0b00100011000000000000000000000000 = .command .rchk := by decide +kernel

theorem test_decode_writer :
    decode 0b00110000000010010000000111111110 = .command (.putb 9 510)
    ∧ decode 0b00110001000000000000000000000000 = .command .flb
    ∧ decode 0b00110010000000000000000000000000 = .command .fla
    ∧ decode 0b00110011000000000000000001000001 = .command (.wraw 0x41) := by decide +kernel

theorem test_decode_coder :
    decode 0b01000000000000000000000000000000 = .command .hclr
    ∧ decode 0b01000001000000000000000001100001 = .command (.hadd 97)
    ∧ decode 0b01000010000000000000000000000000 = .command .hseed
    ∧ decode 0b01000011000000000000000000000000 = .command .build
    ∧ decode 0b01000100000000000000000100000010 = .command (.qhist 258)
    ∧ decode 0b01000101000000000000000001110010 = .command (.qlen 114)
    ∧ decode 0b01000110000000000000000001110010 = .command (.qcode 114) := by decide +kernel

theorem test_decode_encoder_decoder :
    decode 0b01010000000000000000000000000000 = .command .ehdr
    ∧ decode 0b01010001000000000000000100000000 = .command (.enc 256)
    ∧ decode 0b01100000000000000000000000000000 = .command .dhdr
    ∧ decode 0b01100001000000000000000000000000 = .command .dec
    ∧ decode 0b01100010000000000000000000000000 = .command .decn
    ∧ decode 0b01100011000000000000000000000000 = .command .decd
    ∧ decode 0b01100100000000000000000000000000 = .command .uend := by decide +kernel

/-- 95_test_vectors.md section 2.7, the ILLEGAL rows. -/
theorem test_decode_illegal :
    ([0xFF000000, 0x02000000, 0x00000001, 0x00100000, 0x23000200, 0x21098000, 0x20010001, 0x33000100, 0x41010005].all
      fun w => decode w == .illegal) = true := by decide +kernel

/-- 95_test_vectors.md section 2.7, the BAD_OPERAND rows. -/
theorem test_decode_bad_operand :
    decode 0x20000000 = .badOperand (.peek 0) ∧ decode 0x30000000 = .badOperand (.putb 0 0)
    ∧ decode 0x300A0000 = .badOperand (.putb 10 0) ∧ decode 0x30030008 = .badOperand (.putb 3 8)
    ∧ decode 0x41000103 = .badOperand (.hadd 259) := by decide +kernel

/-- 30_encoding.md R120: the expansion of ENCODE_UNIT "a", "", last (95_test_vectors.md P1 without its FLA). -/
theorem test_encode_unit_words :
    (encodeUnit [0x61] [] true).map encode
      = [0x40000000, 0x41000061, 0x42000000, 0x43000000, 0x50000000, 0x51000061, 0x51000100, 0x51000102, 0x31000000] := by
  decide +kernel

/-! ### One step of each command -/

/-- The state a command leaves. -/
def after (i : Instr) (s : State) : State :=
  match exec i s with
  | .next u => u
  | .fault _ => s
  | .refused _ => s

/-- The reset state with a source. -/
def withSource (bs : List Byte) : State := { State.reset with source := bs }

/-- The reset state with a histogram. -/
def withCounts (cs : List (Nat × BitVec 32)) : State :=
  { State.reset with hist := cs.foldl (fun h c => setCount h c.1 c.2) State.reset.hist }

/-- The source of 95_test_vectors.md section 2.2. -/
def sourceA : State := withSource [0xA5, 0x3C, 0xFF, 0x01]

/-- The table of 45_decoder.md R270's example: 7 has code 0, 1 has 10, 2 has 11. -/
def tableD10 : CodeTable :=
  { k := 3, order := fillFile 259 [7, 1, 2], lcnt := fillFile 50 [1, 2], maxlen := 2 }

/-- The one-symbol table of 95_test_vectors.md D9. -/
def tableD9 : CodeTable := { k := 1, order := fillFile 259 [65], lcnt := fillFile 50 [], maxlen := 0 }

/-- The table T4 of 95_test_vectors.md D16: 65, 256, 257, 258 have the codes 00, 01, 10, 11. -/
def tableT4 : CodeTable :=
  { k := 4, order := fillFile 259 [65, 256, 257, 258], lcnt := fillFile 50 [0, 4], maxlen := 2 }

/-- A state with a table and some buffered bits. -/
def withTable (t : CodeTable) (q : Bits) : State := { State.reset with t := t, tv := true, rbuf := q }

/-- A halted state. -/
def haltedState : State := { State.reset with err := 0x10, errf := true }

/-- The state a step leaves. -/
def stepped (s : State) : State :=
  match step s with
  | .next u => u
  | .fault _ => s
  | .refused _ => s

/-- The reason a step is refused for. -/
def refusalOf (s : State) : Option Refusal :=
  match step s with
  | .refused r => some r
  | _ => none

/-- A command placed by `withFetchWord` is the one the next step runs (vector C11's first command). -/
theorem test_step_runs_placed_command :
    countOf (stepped (State.reset.withFetchWord 32 0x41000041)).hist 65 = 1
    ∧ (stepped (State.reset.withFetchWord 32 0x41000041)).host = [] := by decide +kernel

/-- 95_test_vectors.md K2: the second command of the vector. -/
theorem test_srst : statusWord (after .srst (after (.rdb 9) (withSource [1, 2, 3]))) = 0
    ∧ (after .srst (after (.rdb 9) (withSource [1, 2, 3]))).res = 0 := by decide +kernel

theorem test_nop_halted : exec .nop haltedState = .next haltedState := by rfl

/-- Vectors R2, R14. -/
theorem test_peek : (after (.peek 9) sourceA).res = 0x0A5 ∧ statusWord (after (.peek 9) sourceA) = 0x00000204 := by
  decide +kernel

/-- Vector R17. -/
theorem test_peek_empty : (after (.peek 1) State.reset).err = 0x10 := by decide +kernel

/-- Vector R5. -/
theorem test_rdb : (after (.rdb 9) (after (.rdb 4) sourceA)).res = 0x1CA
    ∧ statusWord (after (.rdb 9) (after (.rdb 4) sourceA)) = 0x00000134 := by decide +kernel

/-- Vector R22's command. -/
theorem test_rdb_ten : (after (.rdb 10) sourceA).err = 0x02 := by decide +kernel

theorem test_skip : (after (.skip 9) sourceA).res = 0 ∧ (after (.skip 9) sourceA).rbuf.length = 23 := by decide +kernel

/-- Vectors R18, R19. -/
theorem test_rchk : (after .rchk (withSource [0x7F])).res = 1 ∧ (after .rchk (withSource [0x7F, 0])).res = 0 := by
  decide +kernel

/-- R173: with more than 50 bits to buffer RCHK answers 0, pulls seven bytes and leaves `REOF` at 0. -/
theorem test_rchk_long : (after .rchk (withSource [1, 2, 3, 4, 5, 6, 7, 8])).res = 0
    ∧ (after .rchk (withSource [1, 2, 3, 4, 5, 6, 7, 8])).reof = false
    ∧ (after .rchk (withSource [1, 2, 3, 4, 5, 6, 7, 8])).source = [8] := by decide +kernel

/-- Vector W2. -/
theorem test_putb : (after (.putb 5 0x12) (after (.putb 3 5) State.reset)).sink = [0x95] := by decide +kernel

/-- Vector W9. -/
theorem test_putb_wide : (after (.putb 3 8) State.reset).err = 0x02 := by decide +kernel

/-- Vector W3. -/
theorem test_flb_fla : (after .flb { State.reset with wbuf := [true, true, true, true] }).sink = []
    ∧ (after .fla { State.reset with wbuf := [true, true, true, true] }).sink = [0x0F] := by decide +kernel

/-- Vectors W8, W4. -/
theorem test_wraw : (after (.wraw 0xFF) State.reset).sink = [0xFF]
    ∧ (after (.wraw 0x41) (after (.putb 3 5) State.reset)).err = 0x07 := by decide +kernel

theorem test_hclr : total (after .hclr (withCounts [(97, 3), (258, 1)])).hist = 0 := by decide +kernel

/-- Vectors C15, C14. -/
theorem test_hadd : countOf (after (.hadd 1) (withCounts [(0, 0xFFFFFFFE)])).hist 1 = 1
    ∧ (after (.hadd 1) (withCounts [(0, 0xFFFFFFFF)])).err = 0x03 := by decide +kernel

/-- Vectors C17, C18. -/
theorem test_hseed : total (after .hseed (withCounts [(0, 0xFFFFFFFC)])).hist = 0xFFFFFFFF
    ∧ (after .hseed (withCounts [(0, 0xFFFFFFFD), (256, 1)])).err = 0x03 := by decide +kernel

/-- Vector C1: the tie-break of 90_conflicts.md C3. -/
theorem test_build_tie : statusWord (after .build (withCounts [(0, 1), (1, 1), (2, 2), (3, 2)])) = 0x04040001 := by
  decide +kernel

/-- Vector C8. -/
theorem test_build : (after .build (withCounts
      [(97, 6), (98, 3), (99, 1), (100, 1), (114, 2), (256, 1), (257, 1), (258, 1)])).t.entries
    = [⟨97, 2, 0⟩, ⟨98, 2, 1⟩, ⟨114, 3, 4⟩, ⟨258, 3, 5⟩, ⟨99, 4, 12⟩, ⟨100, 4, 13⟩, ⟨256, 4, 14⟩, ⟨257, 4, 15⟩] := by
  decide +kernel

theorem test_qhist : (after (.qhist 258) (withCounts [(258, 0xFFFFFFFF)])).res = 0xFFFFFFFF := by decide +kernel

/-- Lengths of R270's example table; the last is an absent symbol. -/
theorem test_qlen : (after (.qlen 2) (withTable tableD10 [])).res = 2
    ∧ (after (.qlen 3) (withTable tableD10 [])).res = 0xFFFFFFFFFFFFFFFF := by decide +kernel

theorem test_qcode : (after (.qcode 1) (withTable tableD10 [])).res = 2
    ∧ (after (.qcode 1) State.reset).res = 0xFFFFFFFFFFFFFFFF := by decide +kernel

/-- Vector E4: 18 header bits, 01 82 and two pending. -/
theorem test_ehdr : (after .ehdr (withTable tableD9 [])).sink = [0x01, 0x82]
    ∧ (after .ehdr State.reset).err = 0x05 := by decide +kernel

/-- R251: `11`, most significant bit first; an absent symbol. -/
theorem test_enc : (after (.enc 1) (withTable tableD10 [])).wbuf = [true, false]
    ∧ (after (.enc 3) (withTable tableD10 [])).err = 0x06 := by decide +kernel

/-- Vector D10. -/
theorem test_dhdr : statusWord (after .dhdr (withSource [0x03, 0x0E, 0x04, 0x10, 0x10, 0x40, 0x80, 0x03])) = 0x040300A5
    ∧ (after .dhdr (withSource [0x03, 0x0E, 0x04, 0x10, 0x10, 0x40, 0x80, 0x03])).t.entries
      = [⟨7, 1, 0⟩, ⟨1, 2, 2⟩, ⟨2, 2, 3⟩] := by decide +kernel

/-- Vectors D1 to D4, D5, D6, D7. -/
theorem test_dhdr_errors :
    ([[0x00, 0x00], [0x04, 0x01], [0x02, 0x06, 0x02], [0x02, 0x0A, 0x14, 0x00],
      [0x03, 0x02, 0x08, 0x18, 0x10, 0x60, 0x00], [0x03, 0x02, 0x08, 0x18, 0x30, 0x00], [0x03, 0x02, 0x00]].map
        fun bs => (after .dhdr (withSource bs)).err) = [0x12, 0x13, 0x14, 0x15, 0x16, 0x18, 0x10] := by decide +kernel

/-- Vector D11's second DEC, and D15. -/
theorem test_dec : (after .dec (withTable tableD10 [true, true, true, false])).res = 2
    ∧ (after .dec (withTable { tableD10 with lcnt := fillFile 50 [0, 3] } [true, true])).err = 0x11 := by decide +kernel

/-- Vectors D18, D16. -/
theorem test_decn : (after .decn (withTable tableT4 [false, true])).res = 0x100
    ∧ (after .decn (withTable tableT4 [true, true])).err = 0x19 := by decide +kernel

/-- Vectors D19, D17. -/
theorem test_decd : (after .decd (withTable tableT4 [true, true])).last = 258
    ∧ (after .decd (withTable tableT4 [false, true])).err = 0x19 := by decide +kernel

/-- Vectors D22 and D20, after the DECD. -/
theorem test_uend : (after .uend { withSource [0, 0] with last := 257, lastv := true }).res = 0
    ∧ (after .uend { withSource [0] with last := 257, lastv := true }).err = 0x1A := by decide +kernel

/-- Vector D19's UEND and D25. -/
theorem test_uend_end : (after .uend { withSource [0] with last := 258, lastv := true }).res = 1
    ∧ (after .uend State.reset).err = 0x08 := by decide +kernel

/-- 10_state.md R46: a read of `ERR`; a narrow access. -/
theorem test_port :
    (stepped { State.reset with host := [.read 0x10 4], err := 0x07 }).rdata = 7
    ∧ refusalOf { State.reset with host := [.read 0x04 2] } = some .narrowOrMisalignedAccess := by decide +kernel

/-! ### Witnesses: for every statement with hypotheses, a concrete case that meets them -/

/-- Every command leaves the state `after` names. -/
theorem exec_after (i : Instr) (s : State) : exec i s = .next (after i s) := by
  obtain ⟨u, hu⟩ := exec_next i s
  simp [after, hu]

/-- A step that is not refused leaves the state `stepped` names. -/
theorem step_stepped {s : State} (h : refusalOf s = none) : step s = .next (stepped s) := by
  unfold refusalOf at h
  unfold stepped
  cases hs : step s with
  | next u => rfl
  | fault f => cases f
  | refused r => rw [hs] at h; cases h

theorem lcntAt_beyond (t : CodeTable) {l : Nat} (h : 50 < l) : t.lcntAt l = 0 := by
  have h1 : ¬ l - 1 < 50 := by omega
  simp [CodeTable.lcntAt, h1]

/-- A clause about all lengths from a check of the lengths up to 50. -/
theorem lcntAt_zero_above {t : CodeTable} {m : Nat} (h : (List.range 51).all (fun l => l ≤ m || t.lcntAt l == 0) = true)
    (l : Nat) (hl : m < l) : t.lcntAt l = 0 := by
  by_cases h50 : 50 < l
  · exact lcntAt_beyond t h50
  · have := List.all_eq_true.mp h l (List.mem_range.mpr (by omega))
    have hm : ¬ l ≤ m := by omega
    simpa [hm] using this

/-- A register file is 0 from the end of the list it is filled with. -/
theorem fillFile_beyond {n : Nat} (l : List (BitVec 9)) (i : Fin n) (h : l.length ≤ i.val) : (fillFile n l)[i] = 0 := by
  simp [fillFile, List.getElem?_eq_none h]

/-- The present symbols, read off the register file in one pass. -/
theorem present_eq (h : Vector (BitVec 32) 259) :
    present h = ((h.toList.zipIdx).filter fun p => p.1.toNat ≠ 0).map Prod.snd := by
  have hr : List.range 259 = h.toList.zipIdx.map Prod.snd := by
    rw [List.zipIdx_map_snd, Vector.length_toList, List.range_eq_range']
  rw [present, hr, List.filter_map]
  congr 1
  apply List.filter_congr
  rintro ⟨c, x⟩ hx
  have hx' := List.mem_zipIdx' hx
  simp only [Vector.length_toList] at hx'
  obtain ⟨h1, h2⟩ := hx'
  simp [countOf_of_lt h1, h2]

theorem witness_valid_d10 : tableD10.Valid where
  k_range := by decide +kernel
  distinct := by decide +kernel
  symbol_ids := by decide +kernel
  order_zero := fun i h => fillFile_beyond _ i h
  single := fun h => absurd h (by decide)
  several := fun _ => ⟨by decide +kernel, by decide +kernel, lcntAt_zero_above (m := 2) (by decide +kernel), by decide +kernel⟩
  canon_fits := by decide +kernel

theorem witness_valid_t4 : tableT4.Valid where
  k_range := by decide +kernel
  distinct := by decide +kernel
  symbol_ids := by decide +kernel
  order_zero := fun i h => fillFile_beyond _ i h
  single := fun h => absurd h (by decide)
  several := fun _ => ⟨by decide +kernel, by decide +kernel, lcntAt_zero_above (m := 2) (by decide +kernel), by decide +kernel⟩
  canon_fits := by decide +kernel

/-- The smallest valid table. -/
theorem witness_valid_d9 : tableD9.Valid where
  k_range := by decide +kernel
  distinct := by decide +kernel
  symbol_ids := by decide +kernel
  order_zero := fun i h => fillFile_beyond _ i h
  single := fun _ => ⟨by decide, fun l => by
    by_cases h : l = 0
    · subst h; rfl
    · exact lcntAt_zero_above (m := 0) (by decide +kernel) l (by omega)⟩
  several := fun h => absurd h (by decide)
  canon_fits := by decide +kernel

theorem witness_decode_of_encode : (Instr.putb 9 511).wellFormed = true ∧ (Instr.enc 258).wellFormed = true := by decide

theorem witness_accepted_word : decode 0x300901FF = .command (.putb 9 511) := by decide +kernel

theorem witness_reserved_opcode : State.reset.errf = false ∧ ¬ OpcodeDefined 0x02000000 ∧ ¬ OpcodeDefined 0xFF000000 := by
  refine ⟨rfl, ?_, ?_⟩ <;> rintro ⟨f, h⟩ <;> cases f <;> exact absurd h (by decide)

/-- One word for each of the fields of R115, each with a single wrong bit. -/
theorem witness_broken_layout : State.reset.errf = false
    ∧ (OpcodeDefined 0x00100000 ∧ LayoutBroken 0x00100000) ∧ (OpcodeDefined 0x00000200 ∧ LayoutBroken 0x00000200)
    ∧ (OpcodeDefined 0x41010005 ∧ LayoutBroken 0x41010005) ∧ (OpcodeDefined 0x20010001 ∧ LayoutBroken 0x20010001)
    ∧ (OpcodeDefined 0x33000100 ∧ LayoutBroken 0x33000100) := by
  unfold LayoutBroken
  exact ⟨rfl, ⟨⟨.Z, by decide⟩, by decide⟩, ⟨⟨.Z, by decide⟩, by decide⟩, ⟨⟨.S, by decide⟩, by decide⟩,
    ⟨⟨.N, by decide⟩, by decide⟩, ⟨⟨.B, by decide⟩, by decide⟩⟩

/-- One word for each line of R116, at the edge of its range. -/
theorem witness_broken_operand : State.reset.errf = false
    ∧ (OpcodeDefined 0x41000103 ∧ ¬ LayoutBroken 0x41000103 ∧ OperandBroken 0x41000103)
    ∧ (OpcodeDefined 0x20000000 ∧ ¬ LayoutBroken 0x20000000 ∧ OperandBroken 0x20000000)
    ∧ (OpcodeDefined 0x210A0000 ∧ ¬ LayoutBroken 0x210A0000 ∧ OperandBroken 0x210A0000)
    ∧ (OpcodeDefined 0x30030008 ∧ ¬ LayoutBroken 0x30030008 ∧ OperandBroken 0x30030008) := by
  unfold LayoutBroken OperandBroken
  exact ⟨rfl, ⟨⟨.S, by decide⟩, by decide, by decide⟩, ⟨⟨.N, by decide⟩, by decide, by decide⟩,
    ⟨⟨.N, by decide⟩, by decide, by decide⟩, ⟨⟨.NV, by decide⟩, by decide, by decide⟩⟩

theorem witness_unbroken_word :
    (OpcodeDefined 0x41000102 ∧ ¬ LayoutBroken 0x41000102 ∧ ¬ OperandBroken 0x41000102)
    ∧ (OpcodeDefined 0x300901FF ∧ ¬ LayoutBroken 0x300901FF ∧ ¬ OperandBroken 0x300901FF)
    ∧ (OpcodeDefined 0x330000FF ∧ ¬ LayoutBroken 0x330000FF ∧ ¬ OperandBroken 0x330000FF) := by
  unfold LayoutBroken OperandBroken
  exact ⟨⟨⟨.S, by decide⟩, by decide, by decide⟩, ⟨⟨.NV, by decide⟩, by decide, by decide⟩,
    ⟨⟨.B, by decide⟩, by decide, by decide⟩⟩

theorem witness_step_runs : Issues 0x43000000 [.attachSink] { State.reset with host := [.write 0 4 0x43000000, .attachSink] }
    ∧ decode 0x43000000 = .command .build := ⟨⟨rfl, rfl⟩, by decide +kernel⟩

/-- SRST's opcode with another bit set, a read of `ERR`, a read of `STATUS`. -/
theorem witness_halted_ignores : haltedState.errf = true
    ∧ Issues 0x01000001 [] { haltedState with host := [.write 0 4 0x01000001] } ∧ (0x01000001 : Word) ≠ 0x01000000
    ∧ Reads 0x10 [] { haltedState with host := [.read 0x10 4] }
    ∧ Reads 0x04 [] { haltedState with host := [.read 0x04 4] } := by
  exact ⟨rfl, ⟨rfl, rfl⟩, by decide, ⟨rfl, rfl⟩, ⟨rfl, rfl⟩⟩

theorem witness_reset_input : ({ haltedState with host := [.drive true] } : State).host = .drive true :: [] := rfl

/-- Both ways out of the halted state, and a step that stays in it. -/
theorem witness_halted_left :
    (∃ u, step { haltedState with host := [.write 0 4 0x01000000] } = .next u ∧ u.errf = false)
    ∧ (∃ u, step { haltedState with host := [.drive true] } = .next u ∧ u.errf = false)
    ∧ (∃ u, step { haltedState with host := [.read 0x10 4] } = .next u ∧ u.errf = true) :=
  ⟨⟨_, step_stepped (by decide +kernel), by decide +kernel⟩, ⟨_, step_stepped (by decide +kernel), by decide +kernel⟩,
    ⟨_, step_stepped (by decide +kernel), by decide +kernel⟩⟩

/-- A state with both buffers full and the largest sum of counts. -/
def fullState : State :=
  { withCounts [(0, 0xFFFFFFFF)] with rbuf := List.replicate 57 true, wbuf := List.replicate 7 true, host := [.attachSink] }

theorem witness_block_inv : BlockInv fullState ∧ ∃ u, step fullState = .next u := by
  exact ⟨⟨by decide, by decide, by decide, by decide, fun _ => by decide +kernel⟩,
    ⟨_, step_stepped (by decide +kernel)⟩⟩

/-- `RESET` asserted and released, a release alone, and both streams presented. -/
theorem witness_released_reset : ({ haltedState with host := [.drive true, .drive false, .read 0x04 4] } : State).host
      = .drive true :: .drive false :: [.read 0x04 4]
    ∧ ({ State.reset with host := [.drive false], resetIn := true } : State).host = .drive false :: []
    ∧ ({ withSource [1] with host := [.attachSource [2]] } : State).host = .attachSource [2] :: []
    ∧ fullState.host = .attachSink :: [] := ⟨rfl, rfl, rfl, rfl⟩

/-- A state with a valid table whose next command is BUILD. -/
def tableState : State :=
  { withCounts [(65, 1)] with t := tableD10, tv := true, last := 258, host := [.write 0 4 0x43000000] }

theorem witness_table_inv : BlockInv tableState ∧ TableInv tableState ∧ ∃ u, step tableState = .next u := by
  exact ⟨⟨by decide, by decide, by decide, by decide, fun _ => by decide +kernel⟩,
    ⟨fun _ _ => witness_valid_d10, fun _ h => absurd h (by decide), fun _ => by decide⟩,
    ⟨_, step_stepped (by decide +kernel)⟩⟩

/-- A read that changes the buffer, `REOF`, the source and `RES`; and an SRST that changes the rest. -/
theorem witness_only_listed : (withSource [1]).wbuf.length ≤ 7 ∧ (withSource [1]).errf = false
    ∧ (∃ u, exec (.rdb 9) (withSource [1, 2]) = .next u ∧ u.errf = false)
    ∧ (∃ u, exec .srst tableState = .next u ∧ u.errf = false) :=
  ⟨by decide, rfl, ⟨_, exec_after _ _, by decide +kernel⟩, ⟨_, exec_after _ _, by decide +kernel⟩⟩

/-- A command that raises after pulling a byte. -/
theorem witness_streams : ∃ u, exec (.rdb 9) (withSource [1]) = .next u ∧ (withSource [1]).errf = false ∧ u.errf = true :=
  ⟨_, exec_after _ _, rfl, by decide +kernel⟩

/-- PEEK, RDB and SKIP with exactly as many bits left as they ask for: the widest and the narrowest count. -/
theorem witness_read_fields :
    ({ withSource [0xA5] with rbuf := [true] } : State).errf = false ∧ 1 ≤ (9 : BitVec 4).toNat ∧ (9 : BitVec 4).toNat ≤ 9
    ∧ ({ withSource [0xA5] with rbuf := [true] } : State).input.length = (9 : BitVec 4).toNat
    ∧ ({ State.reset with rbuf := [true] } : State).input.length = (1 : BitVec 4).toNat := by
  exact ⟨rfl, by decide, by decide, by decide +kernel, by decide +kernel⟩

theorem witness_short_stream : (withSource [0xA5]).errf = false ∧ (withSource [0xA5]).input.length < (9 : BitVec 4).toNat
    ∧ State.reset.input.length < (1 : BitVec 4).toNat := ⟨rfl, by decide +kernel, by decide⟩

/-- One bit more than the padding threshold, and the threshold itself. -/
theorem witness_rchk : (withSource [0xA5]).errf = false ∧ (withSource [0xA5]).input.length = 8
    ∧ ({ withSource [0xA5] with rbuf := [true] } : State).input.length = 9 := ⟨rfl, by decide +kernel, by decide +kernel⟩

theorem witness_putb : State.reset.errf = false ∧ (511 : BitVec 9).toNat < 2 ^ (9 : BitVec 4).toNat
    ∧ (1 : BitVec 9).toNat < 2 ^ (1 : BitVec 4).toNat := by decide

theorem witness_flushes : fullState.errf = false ∧ fullState.wbuf.length ≤ 7 ∧ fullState.wbuf ≠ [] ∧ State.reset.wbuf = [] := by
  exact ⟨rfl, by decide, by decide, rfl⟩

/-- WRAW with no bit pending and with one. -/
theorem witness_wraw : State.reset.errf = false ∧ State.reset.wbuf = []
    ∧ ({ State.reset with wbuf := [true] } : State).wbuf ≠ [] := ⟨rfl, rfl, by decide⟩

/-- HADD just below and at the largest sum. -/
theorem witness_hadd : (withCounts [(0, 0xFFFFFFFE)]).errf = false ∧ (258 : BitVec 9).toNat ≤ 258
    ∧ total (withCounts [(0, 0xFFFFFFFE)]).hist = 4294967294 ∧ total (withCounts [(0, 0xFFFFFFFF)]).hist = 4294967295 := by
  exact ⟨rfl, by decide, by decide +kernel, by decide +kernel⟩

/-- HSEED with three zero counts at and just above the limit. -/
theorem witness_hseed : (withCounts [(0, 0xFFFFFFFC)]).errf = false
    ∧ total (withCounts [(0, 0xFFFFFFFC)]).hist
      + ([256, 257, 258].filter fun c => countOf (withCounts [(0, 0xFFFFFFFC)]).hist c = 0).length = 4294967295
    ∧ total (withCounts [(0, 0xFFFFFFFD)]).hist
      + ([256, 257, 258].filter fun c => countOf (withCounts [(0, 0xFFFFFFFD)]).hist c = 0).length = 4294967296 := by
  exact ⟨rfl, by decide +kernel, by decide +kernel⟩

theorem witness_qhist : fullState.errf = false ∧ (258 : BitVec 9).toNat ≤ 258 := by exact ⟨rfl, by decide⟩

/-- A present symbol, an absent one, and no table. -/
theorem witness_queries : (withTable tableD10 []).errf = false ∧ (withTable tableD10 []).tv = true
    ∧ (7 : BitVec 9) ∈ (withTable tableD10 []).t.symbols ∧ (258 : BitVec 9) ∉ (withTable tableD10 []).t.symbols
    ∧ State.reset.tv = false ∧ (withTable tableD10 []).t.Valid :=
  ⟨rfl, rfl, by decide +kernel, by decide +kernel, rfl, witness_valid_d10⟩

/-- One present symbol, and the largest sum of counts. -/
theorem witness_build : (withCounts [(65, 1)]).errf = false ∧ total (withCounts [(65, 1)]).hist = 1
    ∧ total (withCounts [(0, 0xFFFFFFFE), (258, 1)]).hist = 4294967295 := ⟨rfl, by decide +kernel, by decide +kernel⟩

theorem witness_build_nothing : State.reset.errf = false ∧ ∀ x, x ≤ 258 → countOf State.reset.hist x = 0 :=
  ⟨rfl, fun x _ => countOf_replicate_zero x⟩

/-- One, two and three present symbols. -/
theorem witness_small_alphabets : (present (withCounts [(65, 1)]).hist).length = 1
    ∧ (present (withCounts [(65, 1), (66, 1)]).hist).length = 2
    ∧ (present (withCounts [(65, 1), (66, 1), (258, 1)]).hist).length = 3 := by
  simp only [present_eq]
  decide +kernel

theorem witness_depth : (⟨1, 65⟩ : SymLen) ∈ codeLengths (withCounts [(65, 1), (66, 0xFFFFFFFE)]).hist
    ∧ total (withCounts [(65, 1), (66, 0xFFFFFFFE)]).hist = 4294967295 := by
  simp only [codeLengths, rootQueue, leafQueue, present_eq]
  decide +kernel

/-- Two symbols and the largest sum of counts. -/
theorem witness_complete : total (withCounts [(65, 1), (66, 0xFFFFFFFE)]).hist ≤ 4294967295
    ∧ 2 ≤ (present (withCounts [(65, 1), (66, 0xFFFFFFFE)]).hist).length := by
  simp only [present_eq]
  decide +kernel

/-- Three symbols of length 1: the Kraft sum exceeds 1. -/
def tableOver : CodeTable := { k := 3, order := fillFile 259 [7, 1, 2], lcnt := fillFile 50 [3], maxlen := 1 }

/-- Kraft sums of exactly 1 (`canon` completes) and of more than 1 (it fails). -/
theorem witness_canon :
    (2 ≤ tableD10.k.toNat ∧ tableD10.k.toNat ≤ 259 ∧ tableD10.maxlen.toNat ≤ 50
      ∧ (∀ l, tableD10.maxlen.toNat < l → tableD10.lcntAt l = 0) ∧ tableD10.lcntSum = tableD10.k.toNat
      ∧ tableD10.kraft = 2 ^ 50 ∧ tableD10.canon.isSome = true)
    ∧ (2 ≤ tableOver.k.toNat ∧ tableOver.k.toNat ≤ 259 ∧ tableOver.maxlen.toNat ≤ 50
      ∧ (∀ l, tableOver.maxlen.toNat < l → tableOver.lcntAt l = 0) ∧ tableOver.lcntSum = tableOver.k.toNat
      ∧ 2 ^ 50 < tableOver.kraft ∧ tableOver.canon = none) :=
  ⟨⟨by decide, by decide, by decide, lcntAt_zero_above (m := 2) (by decide +kernel), by decide +kernel, by decide +kernel,
      by decide +kernel⟩,
    ⟨by decide, by decide, by decide, lcntAt_zero_above (m := 1) (by decide +kernel), by decide +kernel, by decide +kernel,
      by decide +kernel⟩⟩

theorem witness_prefix_free : tableT4.Valid ∧ (65 : BitVec 9) ∈ tableT4.symbols ∧ (258 : BitVec 9) ∈ tableT4.symbols :=
  ⟨witness_valid_t4, by decide +kernel, by decide +kernel⟩

theorem witness_ehdr : (withTable tableD9 []).errf = false ∧ (withTable tableD9 []).tv = true ∧ (withTable tableD9 []).t.Valid :=
  ⟨rfl, rfl, witness_valid_d9⟩

/-- A symbol of the table and one that is not in it. -/
theorem witness_enc : (withTable tableT4 []).errf = false ∧ (withTable tableT4 []).tv = true ∧ (258 : BitVec 9).toNat ≤ 258
    ∧ (258 : BitVec 9) ∈ (withTable tableT4 []).t.symbols ∧ (66 : BitVec 9) ∉ (withTable tableT4 []).t.symbols
    ∧ (withTable tableT4 []).t.Valid :=
  ⟨rfl, rfl, by decide, by decide +kernel, by decide +kernel, witness_valid_t4⟩

theorem witness_no_table : State.reset.errf = false ∧ State.reset.tv = false ∧ (258 : BitVec 9).toNat ≤ 258 := by decide

theorem witness_dhdr_accepts : (withTable tableT4 (tableD10.header ++ [true])).errf = false ∧ tableD10.Valid
    ∧ (withTable tableT4 (tableD10.header ++ [true])).input = tableD10.header ++ [true] :=
  ⟨rfl, witness_valid_d10, by simp [State.input, withTable, State.reset, streamBits]⟩

/-- A header that is accepted and one that is not. -/
theorem witness_dhdr_commits :
    (∃ u, exec .dhdr (withTable tableD9 tableD9.header) = .next u ∧ u.errf = false)
    ∧ (∃ u, exec .dhdr State.reset = .next u ∧ u.errf = true) := 
  ⟨⟨_, exec_after _ _, by decide +kernel⟩, ⟨_, exec_after _ _, by decide +kernel⟩⟩

/-- A state that holds these bits and nothing else. -/
def holding (q : Bits) : State := { State.reset with rbuf := q }

theorem holding_input (q : Bits) : (holding q).input = q := by simp [State.input, holding, State.reset, streamBits]

/-- An empty stream; the counts 0, 260 and 259; then the id 259, a repeated id and a stream that ends, each at the first place
it can stand. -/
theorem witness_dhdr_symbols :
    (holding []).errf = false ∧ (holding []).input.length < 9 ∧ (holding (lsbSeq 0 9)).input = lsbSeq 0 9 ++ []
    ∧ (holding (lsbSeq 260 9)).input = lsbSeq 260 9 ++ []
    ∧ (holding (lsbSeq 1 9 ++ lsbSeq 259 9)).input = lsbSeq 1 9 ++ (([] : List Nat).flatMap (fun y => lsbSeq y 9) ++ lsbSeq 259 9 ++ [])
    ∧ (holding (lsbSeq 259 9 ++ (lsbSeq 258 9 ++ lsbSeq 258 9))).input
      = lsbSeq 259 9 ++ ([258].flatMap (fun y => lsbSeq y 9) ++ lsbSeq 258 9 ++ [])
    ∧ (holding (lsbSeq 1 9 ++ [true])).input = lsbSeq 1 9 ++ (([] : List Nat).flatMap (fun y => lsbSeq y 9) ++ [true])
    ∧ ([258] : List Nat).Nodup ∧ (258 : Nat) ∈ [258] := by
  refine ⟨rfl, ?_, ?_, ?_, ?_, ?_, ?_, by decide, by decide⟩ <;> rw [holding_input] <;> decide

/-- The stream of a header's count, these ids and these length counts, and then `tail`. -/
def headerStream (ids counts : List Nat) (tail : Bits) : Bits :=
  lsbSeq ids.length 9 ++ ids.flatMap (fun y => lsbSeq y 9) ++ counts.flatMap (fun y => lsbSeq y 9) ++ tail

/-- A state for each clause: fifty counts and nothing after them, one bit of a count, and one more count. -/
theorem witness_dhdr_count_streams :
    (holding (headerStream [0, 258] (List.replicate 50 0) [])).input = headerStream [0, 258] (List.replicate 50 0) []
    ∧ (holding (headerStream [0, 258] [1] [true])).input = headerStream [0, 258] [1] [true]
    ∧ (holding (headerStream [0, 258] [1] (lsbSeq 2 9 ++ []))).input = headerStream [0, 258] [1] (lsbSeq 2 9 ++ []) :=
  ⟨holding_input _, holding_input _, holding_input _⟩

/-- Fifty counts that reach no total, a count that exceeds it, and counts that reach it with a Kraft sum above 1. -/
theorem witness_dhdr_counts :
    ([0, 258] : List Nat).Nodup ∧ (∀ y ∈ ([0, 258] : List Nat), y ≤ 258) ∧ 2 ≤ ([0, 258] : List Nat).length
    ∧ ((List.replicate 50 0).length = 50 ∧ (List.replicate 50 0).sum < 2)
    ∧ (([1] : List Nat).sum < 2 ∧ 2 < ([1] : List Nat).sum + 2)
    ∧ (([] : List Nat).sum + 3 = ([0, 1, 258] : List Nat).length
      ∧ 2 ^ 50 < ((List.range ([] ++ [3] : List Nat).length).map fun j => ([] ++ [3] : List Nat)[j]?.getD 0 * 2 ^ (50 - (j + 1))).sum) := by
  decide +kernel

/-- The longest code, a code of no bits, and each position's edge. -/
theorem witness_decoders :
    (withTable tableT4 (tableT4.codeBits 65 ++ [true])).errf = false ∧ (withTable tableT4 (tableT4.codeBits 65 ++ [true])).tv = true
    ∧ (withTable tableT4 (tableT4.codeBits 65 ++ [true])).t.Valid
    ∧ (∀ x ∈ [(65 : BitVec 9), 256, 257, 258], x ∈ tableT4.symbols)
    ∧ (withTable tableT4 (tableT4.codeBits 65 ++ [true])).input = tableT4.codeBits 65 ++ [true]
    ∧ (withTable tableD9 []).t.Valid ∧ (65 : BitVec 9) ∈ tableD9.symbols ∧ (withTable tableD9 []).input = tableD9.codeBits 65 ++ [] := by
  refine ⟨rfl, rfl, witness_valid_t4, by decide +kernel, ?_, witness_valid_d9, by decide +kernel, by decide +kernel⟩
  simp [State.input, withTable, State.reset, streamBits]

theorem witness_controls : (withTable tableT4 (tableT4.codeBits 257)).t.Valid ∧ (257 : BitVec 9) ∈ tableT4.symbols
    ∧ (256 : BitVec 9) ∈ tableT4.symbols ∧ (withTable tableT4 (tableT4.codeBits 257)).input = tableT4.codeBits 257 ++ [] :=
  ⟨witness_valid_t4, by decide +kernel, by decide +kernel, by simp [State.input, withTable, State.reset, streamBits]⟩

/-- An incomplete code: 7 has code 00 and 1 has 01; no code begins with a 1. -/
def tableGap : CodeTable := { k := 2, order := fillFile 259 [7, 1], lcnt := fillFile 50 [0, 2], maxlen := 2 }

theorem witness_valid_gap : tableGap.Valid where
  k_range := by decide +kernel
  distinct := by decide +kernel
  symbol_ids := by decide +kernel
  order_zero := fun i h => fillFile_beyond _ i h
  single := fun h => absurd h (by decide)
  several := fun _ => ⟨by decide +kernel, by decide +kernel, lcntAt_zero_above (m := 2) (by decide +kernel), by decide +kernel⟩
  canon_fits := by decide +kernel

/-- A stream of one bit, shorter than the longest code, and one of exactly its length. -/
theorem witness_unknown_bits :
    (withTable tableGap [true]).t.Valid ∧ (∀ x ∈ tableGap.symbols, ¬ tableGap.codeBits x <+: [true])
    ∧ (withTable tableGap [true]).input.length < tableGap.maxlen.toNat
    ∧ (∀ x ∈ tableGap.symbols, ¬ tableGap.codeBits x <+: [true, true])
    ∧ (withTable tableGap [true, true]).input.length = tableGap.maxlen.toNat :=
  ⟨witness_valid_gap, by decide +kernel, by decide +kernel, by decide +kernel, by decide +kernel⟩

/-- UEND: nothing decoded, `FILENAME_END` decoded, and each terminator with 8 and 9 bits left. -/
theorem witness_uend : State.reset.lastv = false
    ∧ ({ State.reset with last := 256, lastv := true } : State).last ≠ 257
    ∧ ({ State.reset with last := 256, lastv := true } : State).last ≠ 258
    ∧ ({ holding (List.replicate 8 true) with last := 258, lastv := true } : State).input.length = 8
    ∧ ({ holding (List.replicate 9 true) with last := 257, lastv := true } : State).input.length = 9 := by
  exact ⟨rfl, by decide, by decide, by decide, by decide⟩

theorem witness_status : Reads 0x04 [] { fullState with host := [.read 0x04 4] } ∧ BlockInv { fullState with host := [.read 0x04 4] }
    ∧ fullState.errf = false
    ∧ Reads 0x04 [] { haltedState with host := [.read 0x04 4] } ∧ BlockInv { haltedState with host := [.read 0x04 4] } :=
  ⟨⟨rfl, rfl⟩, ⟨by decide, by decide, by decide, by decide, fun _ => by decide +kernel⟩, rfl, ⟨rfl, rfl⟩,
    ⟨by decide, by decide, by decide, by decide, fun h => absurd h (by decide)⟩⟩

theorem witness_register_reads : Reads 0x08 [] { fullState with host := [.read 0x08 4] }
    ∧ Reads 0x0C [] { fullState with host := [.read 0x0C 4] } ∧ Reads 0x10 [] { fullState with host := [.read 0x10 4] }
    ∧ Reads 0x00 [] { fullState with host := [.read 0x00 4] } ∧ Reads 0x1C [] { fullState with host := [.read 0x1C 4] } :=
  ⟨⟨rfl, rfl⟩, ⟨rfl, rfl⟩, ⟨rfl, rfl⟩, ⟨rfl, rfl⟩, ⟨rfl, rfl⟩⟩

/-- A read at each end of the map and an ignored write at each end. -/
theorem witness_no_effect : haltedState.resetIn = false ∧ 0x1C % 4 = 0 ∧ 0x1C < 0x20
    ∧ ({ haltedState with host := [.read 0x00 4] } : State).host = .read 0x00 4 :: []
    ∧ ({ haltedState with host := [.read 0x1C 4] } : State).host = .read 0x1C 4 :: []
    ∧ ({ haltedState with host := [.write 0x04 4 5] } : State).host = .write 0x04 4 5 :: []
    ∧ ({ haltedState with host := [.write 0x1C 4 5] } : State).host = .write 0x1C 4 5 :: [] := ⟨rfl, rfl, by decide, rfl, rfl, rfl, rfl⟩

/-- An access during reset, a narrow one, a misaligned one, one past the map, and the last one of the map. -/
theorem witness_refusals : refusalOf { State.reset with host := [.read 0x04 4], resetIn := true } = some .accessDuringReset
    ∧ refusalOf { State.reset with host := [.write 0x00 2 0] } = some .narrowOrMisalignedAccess
    ∧ refusalOf { State.reset with host := [.read 0x06 4] } = some .narrowOrMisalignedAccess
    ∧ refusalOf { State.reset with host := [.read 0x20 4] } = some .outsideRegisterMap
    ∧ refusalOf { State.reset with host := [.read 0x1C 4] } = none := by decide +kernel

theorem witness_encode_unit : State.reset.errf = false ∧ ([] : List Byte).length + ([0x61] : List Byte).length + 3 ≤ 4294967295 := by
  decide

/-- Two files, one of them empty. -/
theorem witness_round_trip : State.reset.errf = false ∧ State.reset.wbuf = [] ∧ State.reset.sink = []
    ∧ (∀ f ∈ ([([0x61], []), ([], [0x62, 0x63])] : List File), f.1.length + f.2.length + 3 ≤ 4294967295)
    ∧ (withSource [1, 2]).errf = false ∧ (withSource [1, 2]).rbuf = [] ∧ (withSource [1, 2]).source = [1, 2] := by
  exact ⟨rfl, rfl, rfl, by decide, rfl, rfl, rfl⟩

end Sys2Proof.Tests
end

section
/-! SUPPORT. The tree BUILD makes (43_coder.md R223 to R225): what every merge keeps of the queue, and so what the root is:
its leaves are the present symbols, its weight is the sum of the counts, and its height is bounded by the weight (R224). -/

namespace Sys2Proof.Machine

/-! ### The sum of the counts -/

theorem sum_map_filter_ne_zero (f : Nat → Nat) (l : List Nat) :
    ((l.filter fun x => f x ≠ 0).map f).sum = (l.map f).sum := by
  induction l with
  | nil => rfl
  | cons a l ih =>
    by_cases ha : f a = 0
    · simpa [ha] using ih
    · simpa [ha] using ih

theorem total_eq_sum_countOf (h : Vector (BitVec 32) 259) : total h = ((List.range 259).map (countOf h)).sum := by
  have : h.toList.map BitVec.toNat = (List.range 259).map (countOf h) := by
    apply List.ext_getElem
    · simp
    · intro i h1 h2
      simp at h2
      simp [countOf_of_lt h2]
  rw [total, this]

/-- The counts of the present symbols are all of the sum (10_state.md R33, 43_coder.md R220). -/
theorem sum_countOf_present (h : Vector (BitVec 32) 259) : ((present h).map (countOf h)).sum = total h := by
  rw [total_eq_sum_countOf]
  exact sum_map_filter_ne_zero (countOf h) (List.range 259)

theorem mem_present {h : Vector (BitVec 32) 259} {x : Nat} : x ∈ present h ↔ x ≤ 258 ∧ countOf h x ≠ 0 := by
  simp [present, Nat.lt_succ_iff]

theorem present_nodup (h : Vector (BitVec 32) 259) : (present h).Nodup := List.nodup_range.filter _

theorem length_present_le (h : Vector (BitVec 32) 259) : (present h).length ≤ 259 := by
  simpa [present] using List.length_filter_le (fun x => countOf h x ≠ 0) (List.range 259)

/-- With a positive sum some symbol is present (43_coder.md R221). -/
theorem present_ne_nil {h : Vector (BitVec 32) 259} (ht : total h ≠ 0) : present h ≠ [] := by
  intro hp
  have := sum_countOf_present h
  rw [hp] at this
  exact ht this.symm

/-! ### What every merge keeps -/

/-- Each of two nodes of the queue is at least as heavy as the other's higher child must be: when that child was merged it was
one of the two lightest nodes, and later nodes are no lighter. -/
def Outweighs (a b : QNode) : Prop :=
  Nat.fib (treeHeight a.tree + 1) ≤ b.w ∧ Nat.fib (treeHeight b.tree + 1) ≤ a.w

theorem Outweighs.symm {a b : QNode} (h : Outweighs a b) : Outweighs b a := ⟨h.2, h.1⟩

/-- What holds of the queue before every merge: its trees share out the present symbols and their counts, and a tree's height
is bounded by its weight and by every other tree's weight as Fibonacci numbers (43_coder.md R224). -/
structure QueueInv (h : Vector (BitVec 32) 259) (q : List QNode) : Prop where
  leaves : (q.flatMap fun n => treeLeaves n.tree).Perm (present h)
  weight : (q.map QNode.w).sum = total h
  height : ∀ n ∈ q, Nat.fib (treeHeight n.tree + 2) ≤ n.w
  outweighs : q.Pairwise Outweighs

theorem QueueInv.perm {h : Vector (BitVec 32) 259} {q q' : List QNode} (hq : QueueInv h q) (hp : q'.Perm q) :
    QueueInv h q' where
  leaves := (hp.flatMap_right _).trans hq.leaves
  weight := by rw [← hq.weight]; exact (hp.map _).sum_eq
  height n hn := hq.height n (hp.mem_iff.mp hn)
  outweighs := (hp.pairwise_iff Outweighs.symm).mpr hq.outweighs

/-- The parent of two nodes that outweigh each other's children is at least as heavy as its height asks. -/
theorem fib_height_mergeNode {a b : QNode} (j : Nat) (ha : Nat.fib (treeHeight a.tree + 2) ≤ a.w)
    (hb : Nat.fib (treeHeight b.tree + 2) ≤ b.w) (hab : Outweighs a b) :
    Nat.fib (treeHeight (mergeNode j a b).tree + 2) ≤ (mergeNode j a b).w := by
  obtain ⟨h1, h2⟩ := hab
  have hfib : ∀ n, Nat.fib (n + 1 + 2) = Nat.fib (n + 1) + Nat.fib (n + 2) := fun n => Nat.fib_add_two
  show Nat.fib (max (treeHeight a.tree) (treeHeight b.tree) + 1 + 2) ≤ a.w + b.w
  rw [hfib]
  rcases Nat.le_total (treeHeight a.tree) (treeHeight b.tree) with hle | hle
  · rw [max_eq_right hle]; omega
  · rw [max_eq_left hle]; omega

theorem QueueInv.merge {h : Vector (BitVec 32) 259} {a b : QNode} {q : List QNode} (j : Nat)
    (hs : QueueSorted (a :: b :: q)) (hq : QueueInv h (a :: b :: q)) : QueueInv h (mergeNode j a b :: q) := by
  obtain ⟨hl, hw, hh, ho⟩ := hq
  simp only [List.pairwise_cons] at ho
  obtain ⟨hao, -, hqo⟩ := ho
  obtain ⟨hsa, hsb⟩ : (∀ m ∈ q, a.w ≤ m.w) ∧ ∀ m ∈ q, b.w ≤ m.w := by
    unfold QueueSorted at hs
    simp only [List.pairwise_cons, QNode_le_iff] at hs
    exact ⟨fun m hm => by have := hs.1 m (by simp [hm]); omega, fun m hm => by have := hs.2.1 m hm; omega⟩
  have ha := hh a (by simp)
  have hb := hh b (by simp)
  refine ⟨by simpa [mergeNode, treeLeaves] using hl, by rw [← hw]; simp [mergeNode, Nat.add_assoc], ?_, ?_⟩
  · intro n hn
    rcases List.mem_cons.mp hn with rfl | hn
    · exact fib_height_mergeNode j ha hb (hao b (by simp))
    · exact hh n (by simp [hn])
  · refine List.pairwise_cons.mpr ⟨fun m hm => ⟨?_, ?_⟩, hqo⟩
    · show Nat.fib (max (treeHeight a.tree) (treeHeight b.tree) + 2) ≤ m.w
      rcases Nat.le_total (treeHeight a.tree) (treeHeight b.tree) with hle | hle
      · rw [max_eq_right hle]; exact hb.trans (hsb m hm)
      · rw [max_eq_left hle]; exact ha.trans (hsa m hm)
    · exact (hao m (by simp [hm])).2.trans (Nat.le_add_right _ _)

theorem leafQueue_inv (h : Vector (BitVec 32) 259) : QueueInv h (leafQueue h) := by
  refine QueueInv.perm ⟨?_, ?_, ?_, ?_⟩ (leafQueue_perm h).1
  · rw [List.flatMap_map]
    simp [leafNode, treeLeaves]
  · rw [List.map_map]
    exact sum_countOf_present h
  · intro n hn
    obtain ⟨x, hx, rfl⟩ := List.mem_map.mp hn
    exact Nat.one_le_iff_ne_zero.mpr (mem_present.mp hx).2
  · rw [List.pairwise_map]
    have hpos : ∀ x ∈ present h, 1 ≤ countOf h x := fun x hx => Nat.one_le_iff_ne_zero.mpr (mem_present.mp hx).2
    exact List.Pairwise.imp_of_mem (fun hx hy _ => ⟨hpos _ hy, hpos _ hx⟩) (present_nodup h)

/-! ### The root -/

/-- The loop ends with the root alone, and the root satisfies what every merge keeps. -/
theorem rootQueue_spec {h : Vector (BitVec 32) 259} (ht : total h ≠ 0) :
    ∃ root, rootQueue h = [root] ∧ QueueInv h [root] := by
  obtain ⟨hp, hs⟩ := leafQueue_perm h
  have hlen : (leafQueue h).length = (present h).length := by simpa using hp.length_eq
  have hne : leafQueue h ≠ [] := by
    intro h0
    rw [h0] at hlen
    exact present_ne_nil ht (List.length_eq_zero_iff.mp hlen.symm)
  obtain ⟨root, hroot⟩ := mergeLoop_single (present h).length 0 (leafQueue h) hne (by omega)
  obtain ⟨-, hinv, -⟩ := mergeLoop_inv (P := fun _ q => QueueInv h q)
    (fun j a b q hs hq => (hq.merge j hs).perm (enqueue_perm _ q)) (present h).length 0 (leafQueue h) hs (leafQueue_inv h)
  exact ⟨root, hroot, hroot ▸ hinv⟩

/-- The code lengths are the depths of a tree whose leaves are the present symbols and whose height the sum of the counts
bounds (43_coder.md R224, R225). -/
theorem codeLengths_spec {h : Vector (BitVec 32) 259} (ht : total h ≠ 0) :
    ∃ root : HTree, codeLengths h = root.depths 0 ∧ (treeLeaves root).Perm (present h)
      ∧ Nat.fib (treeHeight root + 2) ≤ total h := by
  obtain ⟨root, hroot, hinv⟩ := rootQueue_spec ht
  refine ⟨root.tree, by simp [codeLengths, hroot], by simpa using hinv.leaves, ?_⟩
  have hw : root.w = total h := by simpa using hinv.weight
  exact hw ▸ hinv.height root (by simp)

/-- A sum within 2^32 − 1 bounds the height by 45 (43_coder.md R224). -/
theorem height_le_of_fib_le {d w : Nat} (hd : Nat.fib (d + 2) ≤ w) (hw : w ≤ 4294967295) : d ≤ 45 := by
  by_contra hlt
  have h48 : Nat.fib 48 = 4807526976 := by norm_num
  have := Nat.fib_mono (show 48 ≤ d + 2 by omega)
  omega

end Sys2Proof.Machine
end

section
/-! SUPPORT. Code tables (10_state.md R37): the codes of a table in terms of its lengths, when the table of a header is valid,
and the table BUILD commits as the table of a header. -/

namespace Sys2Proof.Machine

/-! ### The codes of a table -/

/-- Summands that are 0 from position `m` on do not count. -/
theorem sum_range_eq_of_zero_above {f : Nat → Nat} {m n : Nat} (hmn : m ≤ n) (hf : ∀ j, m ≤ j → f j = 0) :
    ((List.range n).map f).sum = ((List.range m).map f).sum := by
  obtain ⟨d, rfl⟩ := Nat.exists_eq_add_of_le hmn
  have htail : ((List.range d).map (f ∘ (m + ·))).sum = 0 :=
    List.sum_eq_zero fun x hx => by
      obtain ⟨j, -, rfl⟩ := List.mem_map.mp hx
      exact hf _ (Nat.le_add_right m j)
  rw [List.range_add, List.map_append, List.sum_append, List.map_map, htail, Nat.add_zero]

/-- A table has one position for each symbol its length counts account for. -/
theorem CodeTable.length_lengths {t : CodeTable} (hm : t.maxlen.toNat ≤ 50)
    (hz : ∀ l, t.maxlen.toNat < l → t.lcntAt l = 0) :
    t.lengths.length = t.lcntSum := by
  rw [CodeTable.lengths, length_lengthsUpTo, CodeTable.lcntSum]
  exact (sum_range_eq_of_zero_above hm fun j hj => hz _ (Nat.lt_succ_of_le hj)).symm

/-- What `canon(T)` gives a table of several symbols: it fails exactly when the lengths' Kraft sum exceeds 1, and otherwise
gives the symbols their lengths by position and consecutive intervals (43_coder.md R228, R229). -/
theorem CodeTable.canon_spec {t : CodeTable} (hk : t.k ≠ 1) (hl : t.lengths.length ≤ 259) (hm : t.maxlen.toNat ≤ 50) :
    (t.canon = none ↔ 2 ^ 50 < weights t.lengths)
      ∧ ∀ es, t.canon = some es → es.map (fun e => (e.sym, e.len)) = t.order.toList.zip t.lengths
        ∧ es.Pairwise fun a b => codeStop a ≤ codeStart b := by
  obtain ⟨hsort, hrange⟩ := lengthsUpTo_sorted t.lcntAt t.maxlen.toNat
  have hz := zip_snd hl
  have hmem : ∀ x ∈ t.order.toList.zip t.lengths, x.2 ∈ t.lengths := fun x hx => (List.of_mem_zip hx).2
  obtain ⟨h1, h2⟩ := assignCodes_spec (t.order.toList.zip t.lengths) none (by rw [hz]; exact hsort)
    (fun x hx => ((hrange x.2 (hmem x hx)).2).trans hm) (by simp) (by simp [used])
  have hc : t.canon = assignCodes none (t.order.toList.zip t.lengths) := by rw [CodeTable.canon, if_neg hk]
  rw [hc]
  refine ⟨by simpa [hz, used] using h1, fun es hes => ?_⟩
  obtain ⟨g1, g2, -⟩ := h2 es hes
  exact ⟨g1, g2⟩

/-- A table of one symbol has one entry, with the empty code (decision D27). -/
theorem CodeTable.entries_of_single {t : CodeTable} (hk : t.k = 1) : t.entries = [⟨t.order[0], 0, 0⟩] := by
  simp [CodeTable.entries, CodeTable.canon, hk]

section
variable {t : CodeTable} (hv : t.Valid)
include hv

theorem CodeTable.Valid.two_le_k (hk : t.k ≠ 1) : 2 ≤ t.k.toNat := by
  have h1 := hv.k_range.1
  have : t.k.toNat ≠ 1 := fun h => hk (BitVec.eq_of_toNat_eq h)
  omega

/-- A valid table of several symbols has one length for each symbol. -/
theorem CodeTable.Valid.length_lengths (hk : t.k ≠ 1) : t.lengths.length = t.k.toNat := by
  obtain ⟨⟨-, hm⟩, -, hz, hsum⟩ := hv.several (hv.two_le_k hk)
  rw [CodeTable.length_lengths hm hz, hsum]

theorem CodeTable.Valid.canon_eq : t.canon = some t.entries := by
  obtain ⟨es, hes⟩ := Option.isSome_iff_exists.mp hv.canon_fits
  simp [CodeTable.entries, hes]

/-- The entries of a valid table are those of its symbols, in order. -/
theorem CodeTable.Valid.map_sym_entries : t.entries.map CodeEntry.sym = t.symbols := by
  by_cases hk : t.k = 1
  · have hsym : t.symbols = [t.order[0]] := by
      obtain ⟨x, l, hx⟩ := List.exists_cons_of_length_pos (l := t.order.toList) (by simp)
      have : t.order[0] = x := by
        rw [← Vector.getElem_toList (by simp)]; simp [hx]
      simp [CodeTable.symbols, hk, hx, this]
    rw [CodeTable.entries_of_single hk, hsym]
    rfl
  · have hl := hv.length_lengths hk
    obtain ⟨⟨-, hm⟩, -⟩ := hv.several (hv.two_le_k hk)
    have hk259 := hv.k_range.2
    obtain ⟨hmap, -⟩ := (CodeTable.canon_spec hk (by omega) hm).2 _ hv.canon_eq
    rw [← zip_fst hl, ← hmap, List.map_map]
    rfl

/-- A symbol that a code of a valid table stands for is one of its symbols. -/
theorem CodeTable.Valid.matching_mem {q : Bits} {x : BitVec 9} (h : t.matching q = some x) : x ∈ t.symbols := by
  obtain ⟨e, he, rfl⟩ := Option.map_eq_some_iff.mp h
  rw [← hv.map_sym_entries]
  exact List.mem_map_of_mem (List.mem_of_find?_eq_some he)

/-- Whatever a valid table decodes is one of its symbols (45_decoder.md R271). -/
theorem nextSymbol_mem {s u : State} {x : BitVec 9} (ht : s.t = t) (h : nextSymbol s = .done x u) : x ∈ t.symbols := by
  subst ht
  unfold nextSymbol at h
  split at h
  · next hk =>
    cases h
    rw [← hv.map_sym_entries, CodeTable.entries_of_single hk]
    simp
  · next hk =>
    obtain ⟨⟨-, hm⟩, -⟩ := hv.several (hv.two_le_k hk)
    obtain ⟨n, -, -, hmatch, -⟩ := tryLengths_done (by omega) h
    exact hv.matching_mem hmatch

end

/-! ### The table of a header -/

/-- The length counts a header may carry for `k` symbols (30_encoding.md R140): none for one symbol, else at most 50 that
account for every symbol, the last of them not 0. -/
def HeaderCounts (k : Nat) (cs : List Nat) : Prop :=
  (k = 1 ∧ cs = []) ∨ (2 ≤ k ∧ cs.length ≤ 50 ∧ cs.sum = k ∧ ∃ init c, cs = init ++ [c] ∧ 1 ≤ c)

theorem HeaderCounts.length_le {k : Nat} {cs : List Nat} (h : HeaderCounts k cs) : cs.length ≤ 50 := by
  rcases h with ⟨-, rfl⟩ | ⟨-, h, -⟩
  · simp
  · exact h

theorem HeaderCounts.le_k {k : Nat} {cs : List Nat} (h : HeaderCounts k cs) : ∀ y ∈ cs, y ≤ k := by
  rcases h with ⟨-, rfl⟩ | ⟨-, -, h, -⟩
  · simp
  · exact fun y hy => h ▸ le_sum_of_mem hy

/-- The table of a header with distinct symbol ids and length counts that account for them satisfies R37 when its codes fit. -/
theorem headerTable_valid {ids cs : List Nat} (hk : ids.length ≤ 259) (hn : ids.Nodup) (hi : ∀ y ∈ ids, y ≤ 258)
    (hc : HeaderCounts ids.length cs) (hfit : (headerTable ids cs).canon.isSome = true) : (headerTable ids cs).Valid := by
  have hlen := hc.length_le
  have hk' : (headerTable ids cs).k.toNat = ids.length := by simp [headerTable]; omega
  have hm : (headerTable ids cs).maxlen.toNat = cs.length := by simp [headerTable]; omega
  have hl := headerTable_lcntAt ids cs hlen fun y hy => by have := hc.le_k y hy; omega
  have hsym := headerTable_symbols ids cs hk
  have hpos : 1 ≤ ids.length := by rcases hc with ⟨h, -⟩ | ⟨h, -⟩ <;> omega
  refine ⟨by omega, ?_, ?_, ?_, ?_, ?_, hfit⟩
  · rw [hsym]
    refine hn.map_on fun x hx y hy hxy => ?_
    have h1 := hi x hx
    have h2 := hi y hy
    have := congrArg BitVec.toNat hxy
    simp only [BitVec.toNat_ofNat] at this
    omega
  · rw [hsym]
    intro x hx
    obtain ⟨y, hy, rfl⟩ := List.mem_map.mp hx
    have := hi y hy
    simp only [BitVec.toNat_ofNat]
    omega
  · intro i hki
    rw [hk'] at hki
    simp [headerTable, getElem_fillFile, hki]
  · intro h1
    have h1 : ids.length = 1 := by rw [← hk', h1]; rfl
    rcases hc with ⟨-, rfl⟩ | ⟨h2, -⟩
    · exact ⟨rfl, fun l => by simp [hl]⟩
    · omega
  · intro h2
    rcases hc with ⟨h1, -⟩ | ⟨-, -, hsum, init, c, hcs, hc1⟩
    · omega
    · have hlast : cs.length = init.length + 1 := by simp [hcs]
      refine ⟨by omega, ?_, fun l hlt => ?_, ?_⟩
      · rw [hm, hl, hlast, if_neg (by omega)]
        simpa [hcs] using hc1
      · rw [hm] at hlt
        have : cs.length ≤ l - 1 := by omega
        simp [hl, this]
      · have hread : (List.range cs.length).map (fun j => cs[j]?.getD 0) = cs := by
          apply List.ext_getElem
          · simp
          · intro j h1 h2; simp [h2]
        have hsum50 := sum_range_eq_of_zero_above (f := fun j => cs[j]?.getD 0) hlen (fun j hj => by simp [hj])
        rw [CodeTable.lcntSum, hk', ← hsum]
        simp only [hl, Nat.succ_ne_zero, if_false, Nat.add_sub_cancel]
        rw [hsum50, hread]

/-! ### The table BUILD commits -/

/-- How many symbols have each length, from 1 to the largest. -/
def lengthCounts (ord : List SymLen) : List Nat := (List.range (maxLength ord)).map fun j => lengthCount ord (j + 1)

@[simp] theorem length_lengthCounts (ord : List SymLen) : (lengthCounts ord).length = maxLength ord := by
  simp [lengthCounts]

theorem lengthCount_eq_count (ord : List SymLen) (l : Nat) : lengthCount ord l = (ord.map SymLen.len).count l := by
  rw [lengthCount, List.count, List.countP_map, List.countP_eq_length_filter]
  rfl

/-- No symbol is longer than the longest. -/
theorem lengthCount_eq_zero {ord : List SymLen} {l : Nat} (h : maxLength ord < l) : lengthCount ord l = 0 := by
  rw [lengthCount_eq_count, List.count_eq_zero]
  intro hm
  obtain ⟨x, hx, rfl⟩ := List.mem_map.mp hm
  have := (maxLength_spec ord).1 x hx
  omega

/-- The table of a canonical order (43_coder.md R227) is the table of the header with its symbols and its length counts. -/
theorem tableOf_eq_headerTable (ord : List SymLen) :
    tableOf ord = headerTable (ord.map SymLen.sym) (lengthCounts ord) := by
  have hl : (tableOf ord).lcnt = (headerTable (ord.map SymLen.sym) (lengthCounts ord)).lcnt := by
    apply Vector.ext
    intro i hi
    by_cases hlt : i < maxLength ord
    · simp [tableOf, headerTable, getElem_fillFile, lengthCounts, hlt]
    · have : lengthCount ord (i + 1) = 0 := lengthCount_eq_zero (by omega)
      simp [tableOf, headerTable, getElem_fillFile, lengthCounts, hlt, this]
  simp only [tableOf, headerTable] at hl ⊢
  simp [hl, Function.comp_def]

/-- How often a length stands among the lengths by position. -/
theorem count_lengthsUpTo (f : Nat → Nat) (n a : Nat) :
    ((List.range n).flatMap fun j => List.replicate (f (j + 1)) (j + 1)).count a = if 1 ≤ a ∧ a ≤ n then f a else 0 := by
  induction n with
  | zero => simp; omega
  | succ n ih =>
    rw [List.range_succ, List.flatMap_append, List.count_append, ih]
    by_cases ha : a = n + 1
    · simp [ha]
    · have : (1 ≤ a ∧ a ≤ n + 1) ↔ (1 ≤ a ∧ a ≤ n) := by omega
      simp [List.count_replicate, this, Ne.symm ha]

/-- The lengths by position are the lengths of the symbols, when none is 0. -/
theorem lengths_perm {ord : List SymLen} (h1 : ∀ x ∈ ord, 1 ≤ x.len) :
    ((List.range (maxLength ord)).flatMap fun j => List.replicate (lengthCount ord (j + 1)) (j + 1)).Perm
      (ord.map SymLen.len) := by
  rw [List.perm_iff_count]
  intro a
  rw [count_lengthsUpTo, ← lengthCount_eq_count]
  split
  · rfl
  · next ha =>
    rw [eq_comm, lengthCount_eq_count, List.count_eq_zero]
    intro hm
    obtain ⟨x, hx, rfl⟩ := List.mem_map.mp hm
    exact ha ⟨h1 x hx, (maxLength_spec ord).1 x hx⟩

/-- The length counts of a canonical order of several symbols account for all of them. -/
theorem lengthCounts_headerCounts {ord : List SymLen} (h2 : 2 ≤ ord.length) (h1 : ∀ x ∈ ord, 1 ≤ x.len)
    (hm : maxLength ord ≤ 50) : HeaderCounts ord.length (lengthCounts ord) := by
  obtain ⟨x, hx, hxm⟩ := (maxLength_spec ord).2 (by rintro rfl; simp at h2)
  have hpos := h1 x hx
  obtain ⟨m, hmm⟩ : ∃ m, maxLength ord = m + 1 := ⟨maxLength ord - 1, by omega⟩
  refine .inr ⟨h2, by simpa using hm, ?_, (List.range m).map fun j => lengthCount ord (j + 1), lengthCount ord (m + 1),
    ?_, ?_⟩
  · rw [lengthCounts, ← length_lengthsUpTo, (lengths_perm h1).length_eq, List.length_map]
  · rw [lengthCounts, hmm, List.range_succ, List.map_append]; rfl
  · rw [lengthCount_eq_count, List.one_le_count_iff, ← hmm, ← hxm]
    exact List.mem_map_of_mem hx

/-- In a tree of several leaves none stands at the root. -/
theorem one_le_len_of_two_leaves {t : HTree} (h : 2 ≤ (t.depths 0).length) : ∀ x ∈ t.depths 0, 1 ≤ x.len := by
  cases t with
  | leaf y => simp [HTree.depths] at h
  | node a b =>
    intro x hx
    rcases List.mem_append.mp hx with hx | hx
    · exact (depths_le a 1 x hx).1
    · exact (depths_le b 1 x hx).1

theorem tableOf_maxlen {ord : List SymLen} (hm : maxLength ord ≤ 50) : (tableOf ord).maxlen.toNat = maxLength ord := by
  simp [tableOf]; omega

theorem tableOf_lcntAt {ord : List SymLen} (hk : ord.length ≤ 259) {l : Nat} (h1 : 1 ≤ l) (h50 : l ≤ 50) :
    (tableOf ord).lcntAt l = lengthCount ord l := by
  have hle : lengthCount ord l ≤ ord.length := List.length_filter_le _ _
  have hi : l - 1 < 50 := by omega
  have hl : l - 1 + 1 = l := by omega
  rw [CodeTable.lcntAt, if_neg (by omega)]
  simp [tableOf, hi, hl]; omega

/-- The lengths by position of the table of a canonical order. -/
theorem tableOf_lengths_perm {ord : List SymLen} (hk : ord.length ≤ 259) (h1 : ∀ x ∈ ord, 1 ≤ x.len)
    (hm : maxLength ord ≤ 50) : (tableOf ord).lengths.Perm (ord.map SymLen.len) := by
  have : (tableOf ord).lengths =
      (List.range (maxLength ord)).flatMap fun j => List.replicate (lengthCount ord (j + 1)) (j + 1) := by
    rw [CodeTable.lengths, tableOf_maxlen hm]
    refine List.flatMap_congr fun j hj => ?_
    have := List.mem_range.mp hj
    rw [tableOf_lcntAt hk (by omega) (by omega)]
  rw [this]
  exact lengths_perm h1

/-- The codes of a canonical order whose Kraft sum is at most 1 fit. -/
theorem tableOf_canon_isSome {ord : List SymLen} (hk : ord.length ≤ 259) (h1 : 2 ≤ ord.length → ∀ x ∈ ord, 1 ≤ x.len)
    (hpos : ord ≠ []) (hm : maxLength ord ≤ 50) (hw : weights (ord.map SymLen.len) ≤ 2 ^ 50) :
    (tableOf ord).canon.isSome = true := by
  by_cases hk1 : (tableOf ord).k = 1
  · rw [CodeTable.canon, if_pos hk1]; rfl
  · have h2 : 2 ≤ ord.length := by
      have h0 := List.length_pos_of_ne_nil hpos
      have : ord.length ≠ 1 := fun h => hk1 (by simp [tableOf, h])
      omega
    have hp := tableOf_lengths_perm hk (h1 h2) hm
    have hwt : weights (tableOf ord).lengths = weights (ord.map SymLen.len) := (hp.map _).sum_eq
    obtain ⟨hnone, -⟩ := CodeTable.canon_spec hk1 (by rw [hp.length_eq]; simpa using hk) (by rw [tableOf_maxlen hm]; exact hm)
    rw [Option.isSome_iff_ne_none, Ne, hnone, hwt]
    omega

/-- What BUILD's canonical order of a histogram is (43_coder.md R220 to R226): the present symbols with lengths of at most 45
whose Kraft sum is 1; with several symbols no length is 0. -/
structure BuiltOrder (h : Vector (BitVec 32) 259) (ord : List SymLen) : Prop where
  syms : (ord.map SymLen.sym).Perm (present h)
  max_le : maxLength ord ≤ 45
  several : 2 ≤ ord.length → ∀ x ∈ ord, 1 ≤ x.len
  kraft : weights (ord.map SymLen.len) = 2 ^ 50

theorem BuiltOrder.length {h : Vector (BitVec 32) 259} {ord : List SymLen} (ho : BuiltOrder h ord) :
    ord.length = (present h).length := by
  simpa using ho.syms.length_eq

/-- A single symbol has length 0 (43_coder.md R222): its code takes the whole unit interval. -/
theorem BuiltOrder.single {h : Vector (BitVec 32) 259} {ord : List SymLen} (ho : BuiltOrder h ord) (h1 : ord.length = 1) :
    maxLength ord = 0 := by
  obtain ⟨x, rfl⟩ := List.length_eq_one_iff.mp h1
  have hk : 2 ^ (50 - x.len) = 2 ^ 50 := by simpa [weights] using ho.kraft
  have := Nat.pow_right_injective (le_refl 2) hk
  show max x.len 0 = 0
  omega

theorem canonicalOrder_built {h : Vector (BitVec 32) 259} (ht : total h ≠ 0) (hle : total h ≤ 4294967295) :
    BuiltOrder h (canonicalOrder (codeLengths h)) := by
  obtain ⟨root, hroot, hleaves, hfib⟩ := codeLengths_spec ht
  have hh : treeHeight root ≤ 45 := height_le_of_fib_le hfib hle
  obtain ⟨hperm, -⟩ := canonicalOrder_spec (codeLengths h)
  generalize canonicalOrder (codeLengths h) = ord at hperm
  rw [hroot] at hperm
  have hsyms : (ord.map SymLen.sym).Perm (present h) := (hperm.map _).trans (by rw [depths_sym]; exact hleaves)
  have hne : ord ≠ [] := by
    rintro rfl
    exact present_ne_nil ht hsyms.symm.eq_nil
  obtain ⟨y, hy, hmax⟩ := (maxLength_spec ord).2 hne
  have hydepth := (depths_le root 0 y (hperm.mem_iff.mp hy)).2
  refine ⟨hsyms, by omega, fun h2 x hx => ?_, ?_⟩
  · exact one_le_len_of_two_leaves (hperm.length_eq ▸ h2) x (hperm.mem_iff.mp hx)
  · have hw : weights (ord.map SymLen.len) = ((root.depths 0).map fun x => 2 ^ (50 - x.len)).sum := by
      rw [weights, List.map_map]
      exact (hperm.map _).sum_eq
    rw [hw]
    exact depths_kraft root 0 50 (by omega)

/-- The table BUILD commits satisfies R37 (43_coder.md R227). -/
theorem buildTable_valid {h : Vector (BitVec 32) 259} (ht : total h ≠ 0) (hle : total h ≤ 4294967295) :
    (buildTable h).Valid := by
  have ho := canonicalOrder_built ht hle
  rw [buildTable]
  generalize canonicalOrder (codeLengths h) = ord at ho
  have hlen := ho.length
  have hk : ord.length ≤ 259 := hlen ▸ length_present_le h
  have hpos : ord.length ≠ 0 := fun h0 => present_ne_nil ht (List.length_eq_zero_iff.mp (hlen ▸ h0))
  have hm : maxLength ord ≤ 50 := ho.max_le.trans (by omega)
  have hfit := tableOf_canon_isSome hk ho.several (List.ne_nil_of_length_pos (by omega)) hm ho.kraft.le
  rw [tableOf_eq_headerTable] at hfit ⊢
  refine headerTable_valid (by simpa using hk) (ho.syms.nodup_iff.mpr (present_nodup h)) ?_ ?_ hfit
  · intro y hy
    exact (mem_present.mp (ho.syms.mem_iff.mp hy)).1
  · rw [List.length_map]
    by_cases h1 : ord.length = 1
    · exact .inl ⟨h1, by simp [lengthCounts, ho.single h1]⟩
    · exact lengthCounts_headerCounts (by omega) (ho.several (by omega)) hm

end Sys2Proof.Machine
end

section
/-! SUPPORT. The frames of reader and writer parts and of every command's own effect (10_state.md R50), and the register port
(10_state.md R40, R45 to R47): each said once. -/

namespace Sys2Proof.Machine

/-! ### What a reader or a writer part leaves alone -/

section
variable {s t : State}

theorem ReaderStep.keepsHist (h : ReaderStep s t) : KeepsHist s t := by rw [h.rest]; exact rfl
theorem ReaderStep.keepsTable (h : ReaderStep s t) : KeepsTable s t := by rw [h.rest]; exact ⟨rfl, rfl⟩
theorem ReaderStep.keepsWriter (h : ReaderStep s t) : KeepsWriter s t := by rw [h.rest]; exact ⟨rfl, rfl⟩
theorem ReaderStep.keepsRes (h : ReaderStep s t) : KeepsRes s t := by rw [h.rest]; exact rfl
theorem ReaderStep.keepsLast (h : ReaderStep s t) : KeepsLast s t := by rw [h.rest]; exact ⟨rfl, rfl⟩

theorem WriterStep.keepsHist (h : WriterStep s t) : KeepsHist s t := by rw [h.rest]; exact rfl
theorem WriterStep.keepsTable (h : WriterStep s t) : KeepsTable s t := by rw [h.rest]; exact ⟨rfl, rfl⟩
theorem WriterStep.keepsReader (h : WriterStep s t) : KeepsReader s t := by rw [h.rest]; exact ⟨rfl, rfl, rfl⟩
theorem WriterStep.keepsRes (h : WriterStep s t) : KeepsRes s t := by rw [h.rest]; exact rfl
theorem WriterStep.keepsLast (h : WriterStep s t) : KeepsLast s t := by rw [h.rest]; exact ⟨rfl, rfl⟩

end

theorem nextSymbol_readerStep {s t : State} {x : BitVec 9} (h : nextSymbol s = .done x t) : ReaderStep s t := by
  simpa [h] using nextSymbol_reader s

/-! ### What a command that completes leaves alone -/

theorem mayRead_of_mayDecode {i : Instr} (h : mayDecode i = true) : mayRead i = true := by
  cases i <;> simp_all [mayDecode, mayRead]

theorem mayWriteRes_of_mayDecode {i : Instr} (h : mayDecode i = true) : mayWriteRes i = true := by
  cases i <;> simp_all [mayDecode, mayWriteRes]

section
variable {i : Instr} {s u : State}

theorem Effect.keepsHist (h : Effect i s u) (hi : mayWriteHist i = false) : KeepsHist s u := by
  cases h with
  | nop => exact rfl
  | read _ hr => exact hr.keepsHist
  | readResult _ _ _ hr => exact hr.keepsHist
  | decoded _ _ _ hx => exact (nextSymbol_readerStep hx).keepsHist
  | committed _ _ hr => exact hr.keepsHist
  | built => exact rfl
  | counted _ hw => rw [hi] at hw; cases hw
  | queried => exact rfl
  | pushed _ hw => exact hw.keepsHist
  | flushed _ hw => exact hw.keepsHist
  | raw => exact rfl

theorem Effect.keepsTable (h : Effect i s u) (hi : mayCommitTable i = false) : KeepsTable s u := by
  cases h with
  | nop => exact ⟨rfl, rfl⟩
  | read _ hr => exact hr.keepsTable
  | readResult _ _ _ hr => exact hr.keepsTable
  | decoded _ _ _ hx => exact (nextSymbol_readerStep hx).keepsTable
  | committed _ hd => subst hd; cases hi
  | built hb => subst hb; cases hi
  | counted => exact ⟨rfl, rfl⟩
  | queried => exact ⟨rfl, rfl⟩
  | pushed _ hw => exact hw.keepsTable
  | flushed _ hw => exact hw.keepsTable
  | raw => exact ⟨rfl, rfl⟩

theorem Effect.keepsReader (h : Effect i s u) (hi : mayRead i = false) : KeepsReader s u := by
  cases h with
  | nop => exact ⟨rfl, rfl, rfl⟩
  | read hr => rw [hi] at hr; cases hr
  | readResult _ hr => rw [hi] at hr; cases hr
  | decoded _ hd => rw [mayRead_of_mayDecode hd] at hi; cases hi
  | committed _ hd => subst hd; cases hi
  | built => exact ⟨rfl, rfl, rfl⟩
  | counted => exact ⟨rfl, rfl, rfl⟩
  | queried => exact ⟨rfl, rfl, rfl⟩
  | pushed _ hw => exact hw.keepsReader
  | flushed _ hw => exact hw.keepsReader
  | raw => exact ⟨rfl, rfl, rfl⟩

/-- With less than a byte pending only the pushing commands change the writer, and WRAW the sink (20_memory.md R98, R99). -/
theorem Effect.keepsWriter (h : Effect i s u) (hw : s.wbuf.length ≤ 7) (hi : mayChangePending i = false) :
    u.wbuf = s.wbuf ∧ ((∀ b, i ≠ .wraw b) → u.sink = s.sink) := by
  have kept : ∀ {t}, KeepsWriter s t → t.wbuf = s.wbuf ∧ ((∀ b, i ≠ .wraw b) → t.sink = s.sink) :=
    fun ht => ⟨ht.1, fun _ => ht.2⟩
  cases h with
  | nop => exact kept ⟨rfl, rfl⟩
  | read _ hr => exact kept hr.keepsWriter
  | readResult _ _ _ hr => exact kept hr.keepsWriter
  | decoded _ _ _ hx => exact kept (nextSymbol_readerStep hx).keepsWriter
  | committed _ _ hr => exact kept hr.keepsWriter
  | built => exact kept ⟨rfl, rfl⟩
  | counted => exact kept ⟨rfl, rfl⟩
  | queried => exact kept ⟨rfl, rfl⟩
  | pushed hp => rw [hi] at hp; cases hp
  | flushed _ _ hn => rw [hn (Nat.lt_succ_of_le hw)]; exact kept ⟨rfl, rfl⟩
  | raw b hb => exact ⟨rfl, fun hne => absurd hb (hne b)⟩

theorem Effect.keepsRes (h : Effect i s u) (hi : mayWriteRes i = false) : KeepsRes s u := by
  cases h with
  | nop => exact rfl
  | read _ hr => exact hr.keepsRes
  | readResult _ _ hr => rw [hi] at hr; cases hr
  | decoded _ hd => rw [mayWriteRes_of_mayDecode hd] at hi; cases hi
  | committed _ _ hr => exact hr.keepsRes
  | built => exact rfl
  | counted => exact rfl
  | queried _ hr => rw [hi] at hr; cases hr
  | pushed _ hw => exact hw.keepsRes
  | flushed _ hw => exact hw.keepsRes
  | raw => exact rfl

theorem Effect.keepsLast (h : Effect i s u) (hi : mayDecode i = false) : KeepsLast s u := by
  cases h with
  | nop => exact ⟨rfl, rfl⟩
  | read _ hr => exact hr.keepsLast
  | readResult _ _ _ hr => exact hr.keepsLast
  | decoded _ hd => rw [hi] at hd; cases hd
  | committed _ _ hr => exact hr.keepsLast
  | built => exact ⟨rfl, rfl⟩
  | counted => exact ⟨rfl, rfl⟩
  | queried => exact ⟨rfl, rfl⟩
  | pushed _ hw => exact hw.keepsLast
  | flushed _ hw => exact hw.keepsLast
  | raw => exact ⟨rfl, rfl⟩

/-- No command but reset clears `TV`, `REOF` or `LASTV` (10_state.md R35, R39, R43). -/
theorem Effect.clears_nothing (h : Effect i s u) :
    (s.tv = true → u.tv = true) ∧ (s.reof = true → u.reof = true) ∧ (s.lastv = true → u.lastv = true) := by
  have kept : ∀ {t}, KeepsTable s t → KeepsLast s t → (s.reof = true → t.reof = true) →
      (s.tv = true → t.tv = true) ∧ (s.reof = true → t.reof = true) ∧ (s.lastv = true → t.lastv = true) :=
    fun ht hl hr => ⟨ht.1.trans, hr, hl.2.trans⟩
  cases h with
  | nop => exact ⟨id, id, id⟩
  | read _ hr => exact kept hr.keepsTable hr.keepsLast hr.reof
  | readResult _ _ _ hr => exact kept hr.keepsTable hr.keepsLast hr.reof
  | decoded _ _ _ hx =>
    have hr := nextSymbol_readerStep hx
    exact ⟨hr.keepsTable.1.trans, hr.reof, fun _ => rfl⟩
  | committed _ _ hr => exact ⟨fun _ => rfl, hr.reof, hr.keepsLast.2.trans⟩
  | built => exact ⟨fun _ => rfl, id, id⟩
  | counted => exact ⟨id, id, id⟩
  | queried => exact ⟨id, id, id⟩
  | pushed _ hw => exact kept hw.keepsTable hw.keepsLast (hw.keepsReader.2.1.trans)
  | flushed _ hw => exact kept hw.keepsTable hw.keepsLast (hw.keepsReader.2.1.trans)
  | raw => exact ⟨id, id, id⟩

end

/-- What changed was allowed to change. -/
theorem may_of_changed {α : Type} {may : Bool} {a b : α} (h : may = false → a = b) (hne : a ≠ b) : may = true := by
  cases may with
  | false => exact absurd (h rfl) hne
  | true => rfl

/-- A flag that changed and was not cleared is set. -/
theorem set_of_changed {a b : Bool} (h : b = true → a = true) (hne : a ≠ b) : a = true := by
  cases b with
  | false => exact Bool.eq_true_of_not_eq_false hne
  | true => exact h rfl

/-! ### Reset values (10_state.md R51) -/

theorem lcntAt_reset (l : Nat) : CodeTable.reset.lcntAt l = 0 := by
  unfold CodeTable.lcntAt
  split
  · rfl
  · by_cases hl : l - 1 < 50 <;> simp [CodeTable.reset, hl]

theorem blockReset_resetValues (s : State) : ResetValues (blockReset s) where
  hist x _ := countOf_replicate_zero x
  tv := rfl
  k := rfl
  order i := by simp [CodeTable.reset]
  lcnt := lcntAt_reset
  maxlen := rfl
  rbuf := rfl
  reof := rfl
  wbuf := rfl
  res := rfl
  err := rfl
  errf := rfl
  last := rfl
  lastv := rfl

theorem blockReset_tableInv (s : State) : TableInv (blockReset s) :=
  ⟨fun _ htv => absurd htv Bool.false_ne_true, fun _ _ => rfl, fun _ => Nat.zero_le _⟩

/-! ### The register port -/

/-- A step takes the host's next event. -/
theorem step_of_host {s : State} {e : HostEvent} {es : List HostEvent} (h : s.host = e :: es) :
    step s = handle e (s.setHost es) := by
  simp [step, hostStep, h]

section
variable {s : State} {es : List HostEvent} {o : Nat}

/-- An aligned 32-bit access of the map is taken (10_state.md R46). -/
theorem access_of_aligned (hr : s.resetIn = false) (ho : o % 4 = 0) (hlt : o < 0x20)
    (body : Host.Outcome State Fault Refusal) : access o 4 s body = body := by
  have : ¬ offEnd ≤ o := by simp only [offEnd]; omega
  simp [access, hr, ho, this]

theorem step_of_read (h : s.host = .read o 4 :: es) (hr : s.resetIn = false) (ho : o % 4 = 0) (hlt : o < 0x20) :
    step s = .next (readRegister o (s.setHost es)) := by
  rw [step_of_host h]
  exact access_of_aligned hr ho hlt _

theorem step_of_write {w : Word} (h : s.host = .write o 4 w :: es) (hr : s.resetIn = false) (ho : o % 4 = 0) (hlt : o < 0x20) :
    step s = writeRegister o w (s.setHost es) := by
  rw [step_of_host h]
  exact access_of_aligned hr ho hlt _

theorem step_of_issues {w : Word} (h : Issues w es s) : step s = issue w (s.setHost es) :=
  step_of_write h.1 h.2 rfl (by decide)

theorem step_of_reads (h : Reads o es s) (ho : o % 4 = 0) (hlt : o < 0x20) :
    step s = .next (readRegister o (s.setHost es)) := step_of_read h.1 h.2 ho hlt

end

/-- Issuing any word answers a next state. -/
theorem issue_next (w : Word) (s : State) : ∃ u, issue w s = .next u := by
  have key : ∀ e, ∃ u, rejectWord e s = .next u := by
    intro e
    unfold rejectWord command
    split
    · exact ⟨_, rfl⟩
    · exact ⟨_, rfl⟩
  unfold issue
  split
  · exact key _
  · exact key _
  · exact exec_next _ s

/-! ### The `STATUS` word (10_state.md R40) -/

theorem toNat_append_eq_add {n m : Nat} (x : BitVec n) (y : BitVec m) : (x ++ y).toNat = x.toNat * 2 ^ m + y.toNat := by
  rw [BitVec.toNat_append, ← Nat.shiftLeft_add_eq_or_of_lt y.isLt, Nat.shiftLeft_eq]

theorem toNat_statusWord {s : State} (hr : s.rbuf.length ≤ 57) (hw : s.wbuf.length ≤ 7) :
    (statusWord s).toNat = s.tv.toNat + 2 * s.errf.toNat + 4 * s.reof.toNat + 8 * s.lastv.toNat + 16 * s.rbuf.length
      + 1024 * s.wbuf.length + 65536 * s.t.k.toNat + 33554432 * s.t.maxlen.toNat := by
  have hra : (ravail s).toNat = s.rbuf.length := by simp [ravail]; omega
  have hwp : (wpend s).toNat = s.wbuf.length := by simp [wpend]; omega
  simp only [statusWord, toNat_append_eq_add, flagBit, BitVec.toNat_ofBool, hra, hwp]
  simp
  omega

end Sys2Proof.Machine
end

section
/-! The statements about the state (10_state.md): the table invariant, reset, what a command may write, and the register map. -/

namespace Sys2Proof.Machine

/-! ### The table DHDR commits -/

/-- A header that is read to its end commits the table of distinct symbols and of counts that account for them, so a valid one
(45_decoder.md R270). -/
theorem readHeaderBody_commits {k : Nat} {s t : State} (h1 : 1 ≤ k) (h259 : k ≤ 259) (h : readHeaderBody k s = .done () t) :
    ∃ r tbl, ReaderStep s r ∧ tbl.Valid ∧ t = r.setTable tbl := by
  obtain ⟨syms, u, hu, h⟩ := Ran.andThen_eq_done h
  have hr : ReaderStep s u := by simpa [hu] using readSymbols_reader k [] s
  obtain ⟨ids, hids, hlen, hn, hi, -⟩ := readSymbols_done hu List.nodup_nil
  rw [List.nil_append] at hids
  subst hids
  split at h
  · next hk =>
    obtain ⟨hfit, h⟩ := require_eq_done h
    cases h
    exact ⟨u, _, hr, headerTable_valid (by omega) hn hi (.inl ⟨by omega, rfl⟩) hfit, rfl⟩
  · next hk =>
    obtain ⟨counts, v, hv, h⟩ := Ran.andThen_eq_done h
    have hr' : ReaderStep u v := by simpa [hv] using readCounts_reader k Config.MAX_CODE_LEN [] u
    obtain ⟨cs, c, hcs, hroom, hsum, hc, -⟩ := readCounts_done hv h1
    rw [List.nil_append] at hcs
    have hcounts : HeaderCounts syms.length counts := by
      refine .inr ⟨by omega, ?_, hsum.trans hlen.symm, cs, c, hcs, hc⟩
      rw [hcs, List.length_append]
      exact hroom
    obtain ⟨hfit, h⟩ := require_eq_done h
    cases h
    exact ⟨v, _, hr.trans hr', headerTable_valid (by omega) hn hi hcounts hfit, rfl⟩

/-- DHDR that completes has read a header and committed a valid table. -/
theorem execDhdr_commits {s u : State} (hs : s.errf = false) (hu : u.errf = false) (h : execDhdr s = .next u) :
    ∃ r tbl, ReaderStep s r ∧ tbl.Valid ∧ u = r.setTable tbl := by
  rcases command_cases h with ⟨hh, -⟩ | ⟨-, h⟩ | ⟨-, e, t, -, h⟩
  · rw [hs] at hh; cases hh
  · obtain ⟨k, t, ht, h⟩ := Ran.andThen_eq_done h
    have hr : ReaderStep s t := by simpa [ht] using readField_reader 9 s
    split at h
    · cases h
    · split at h
      · cases h
      · obtain ⟨r, tbl, hr', hv, hu⟩ := readHeaderBody_commits (by omega) (by omega) h
        exact ⟨r, tbl, hr.trans hr', hv, hu⟩
  · rw [h] at hu; cases hu

/-! ### The table invariant -/

theorem tableInv_of_halted {s : State} (h : s.errf = true) : TableInv s := by
  have running : s.errf = false → False := fun hf => Bool.noConfusion (h.symm.trans hf)
  exact ⟨fun hf => (running hf).elim, fun hf => (running hf).elim, fun hf => (running hf).elim⟩

theorem TableInv.of_kept {s u : State} (h : TableInv s) (hs : s.errf = false) (ht : KeepsTable s u)
    (hl : u.last.toNat ≤ 258) : TableInv u :=
  ⟨fun _ htv => ht.2 ▸ h.valid hs (ht.1 ▸ htv), fun _ htv => ht.2 ▸ h.none hs (ht.1 ▸ htv), fun _ => hl⟩

theorem tableInv_of_commit {u : State} (htv : u.tv = true) (ht : u.t.Valid) (hl : u.last.toNat ≤ 258) : TableInv u :=
  ⟨fun _ _ => ht, fun _ hf => absurd (htv.symm.trans hf) Bool.noConfusion, fun _ => hl⟩

/-- A command that completes keeps the table invariant: BUILD and DHDR commit valid tables, the decoding commands return a
symbol of a valid table, and no other command writes `T`, `TV` or `LAST`. -/
theorem Effect.keeps_tableInv {i : Instr} {s u : State} (he : Effect i s u) (hb : BlockInv s) (ht : TableInv s)
    (hs : s.errf = false) (hu : u.errf = false) (h : exec i s = .next u) : TableInv u := by
  have hl := ht.last_symbol hs
  have kept : KeepsTable s u → KeepsLast s u → TableInv u := fun h1 h2 => ht.of_kept hs h1 (h2.1 ▸ hl)
  cases he with
  | nop => exact ht
  | read _ hr => exact kept hr.keepsTable hr.keepsLast
  | readResult _ _ _ hr => exact kept hr.keepsTable hr.keepsLast
  | decoded x _ htv hx =>
    have hv := ht.valid hs htv
    exact ht.of_kept hs (nextSymbol_readerStep hx).keepsTable (hv.symbol_ids x (nextSymbol_mem hv rfl hx))
  | committed tbl hi hr =>
    subst hi
    obtain ⟨r, tbl', hr', hv, hu'⟩ := execDhdr_commits hs hu h
    rw [hu']
    exact tableInv_of_commit rfl hv (hr'.keepsLast.1 ▸ hl)
  | built _ htot => exact tableInv_of_commit rfl (buildTable_valid htot (hb.count_cap hs)) hl
  | counted => exact kept ⟨rfl, rfl⟩ ⟨rfl, rfl⟩
  | queried => exact kept ⟨rfl, rfl⟩ ⟨rfl, rfl⟩
  | pushed _ hw => exact kept hw.keepsTable hw.keepsLast
  | flushed _ hw => exact kept hw.keepsTable hw.keepsLast
  | raw => exact kept ⟨rfl, rfl⟩ ⟨rfl, rfl⟩

theorem exec_keeps_tableInv {i : Instr} {s u : State} (hb : BlockInv s) (ht : TableInv s) (h : exec i s = .next u) :
    TableInv u := by
  by_cases hi : i = .srst
  · subst hi
    cases h
    exact blockReset_tableInv s
  · cases hs : s.errf with
    | true =>
      rw [exec_halted hi hs] at h
      cases h
      exact ht
    | false =>
      cases hu : u.errf with
      | true => exact tableInv_of_halted hu
      | false => exact (body_effect hi hs h hu).keeps_tableInv hb ht hs hu h

/-- Settles O14: of all a step can do, only a command and a reset write the table, and both leave it valid. -/
theorem stepKeepsTableInv : Obligations.StepKeepsTableInv := by
  unfold Obligations.StepKeepsTableInv
  intro s u hb ht h
  obtain ⟨hv, hn, hl⟩ := ht
  rcases step_cases h with ⟨-, rfl⟩ | ⟨e, es, -, he⟩
  · exact ⟨hv, hn, hl⟩
  · cases he with
    | command _ _ h =>
      obtain ⟨b1, b2, b3, b4, b5⟩ := hb
      exact exec_keeps_tableInv (s := s.setHost es) ⟨b1, b2, b3, b4, b5⟩ ⟨hv, hn, hl⟩ h
    | rejected => exact tableInv_of_halted rfl
    | ignored => exact ⟨hv, hn, hl⟩
    | answered => exact ⟨hv, hn, hl⟩
    | resetOn =>
      obtain ⟨rv, rn, rl⟩ := blockReset_tableInv s
      exact ⟨rv, rn, rl⟩
    | resetOff => exact ⟨hv, hn, hl⟩
    | newSource => exact ⟨hv, hn, hl⟩
    | newSink => exact ⟨hv, hn, hl⟩

/-! ### Reset -/

/-- Settles O10: `State.reset`, SRST and `RESET` all take every element from the one reset of the block. -/
theorem resetGivesResetValues : Obligations.ResetGivesResetValues := by
  unfold Obligations.ResetGivesResetValues
  refine ⟨blockReset_resetValues State.reset, fun s => ?_, fun s es h => ?_⟩
  · exact ⟨blockReset s, rfl, blockReset_resetValues s, rfl, rfl, rfl, rfl, rfl, rfl⟩
  · have hr := blockReset_resetValues (s.setHost es)
    exact ⟨_, step_of_host h, { hr with }, rfl, rfl, rfl⟩

/-- Settles O13: at reset the buffers and the histogram are empty and no error is recorded. -/
theorem resetMeetsBlockInv : Obligations.ResetMeetsBlockInv where
  rbuf_cap := Nat.zero_le _
  wbuf_cap := Nat.zero_le _
  err_defined := by decide
  errf_iff := by decide
  count_cap _ := by
    show total (Vector.replicate 259 0) ≤ 4294967295
    rw [total_replicate_zero]
    omega

/-- Settles O15: the reset state is what a reset of the block leaves. -/
theorem resetMeetsTableInv : Obligations.ResetMeetsTableInv := blockReset_tableInv State.reset

/-! ### What a command may write -/

/-- Settles O16: SRST is the reset; every other command has its own effect, which writes what the command is listed for and
clears no flag. -/
theorem onlyListedCommandsWrite : Obligations.OnlyListedCommandsWrite := by
  unfold Obligations.OnlyListedCommandsWrite
  intro i s u hw hs h hu
  by_cases hi : i = .srst
  · subst hi
    cases h
    simp [mayWriteHist]
  · have he := body_effect hi hs h hu
    obtain ⟨htv, hreof, hlastv⟩ := he.clears_nothing
    refine ⟨may_of_changed he.keepsHist, ?tv, ?t, ?reof, ?rbuf, ?source, ?wbuf, ?sink, ?res, ?last, ?lastv⟩
    case tv => exact fun hne => .inl ⟨may_of_changed (fun hf => (he.keepsTable hf).1) hne, set_of_changed htv hne⟩
    case t => exact fun hne => .inl (may_of_changed (fun hf => (he.keepsTable hf).2) hne)
    case reof => exact fun hne => .inl ⟨may_of_changed (fun hf => (he.keepsReader hf).2.1) hne, set_of_changed hreof hne⟩
    case rbuf => exact fun hne => .inl (may_of_changed (fun hf => (he.keepsReader hf).1) hne)
    case source => exact may_of_changed fun hf => (he.keepsReader hf).2.2
    case wbuf => exact fun hne => .inl (may_of_changed (fun hf => (he.keepsWriter hw hf).1) hne)
    case sink =>
      intro hne
      by_cases hraw : ∃ b, i = .wraw b
      · exact .inr hraw
      · exact .inl (may_of_changed (fun hf => (he.keepsWriter hw hf).2 (not_exists.mp hraw)) hne)
    case res => exact fun hne => .inl (may_of_changed he.keepsRes hne)
    case last => exact fun hne => .inl (may_of_changed (fun hf => (he.keepsLast hf).1) hne)
    case lastv => exact fun hne => .inl ⟨may_of_changed (fun hf => (he.keepsLast hf).2) hne, set_of_changed hlastv hne⟩

/-! ### The command port and the errors without a table -/

/-- Settles O8: the step is the issue of the word, which runs the command it decodes to. -/
theorem stepRunsTheDecodedCommand : Obligations.StepRunsTheDecodedCommand := by
  unfold Obligations.StepRunsTheDecodedCommand
  intro s w es h
  have hstep := step_of_issues h
  refine ⟨hstep, fun i hd => ?_⟩
  rw [hstep, issue, hd]

theorem decodeSymbol_no_table {s : State} (h : s.tv = false) : decodeSymbol s = .raised .noTable s := by
  simp [decodeSymbol, h]

/-- Settles O44: each of the five commands raises `E_NO_TABLE` in the state it started from. -/
theorem commandsWithoutTableRaiseNoTable : Obligations.CommandsWithoutTableRaiseNoTable := by
  unfold Obligations.CommandsWithoutTableRaiseNoTable
  intro s i x hs htv hx hi
  have hsym : symbolInRange x = true := decide_eq_true hx
  have hd := decodeSymbol_no_table htv
  refine ⟨enterHalt .noTable s, ?_, (Quiet.refl s).halts .noTable, rfl⟩
  rcases hi with rfl | rfl | rfl | rfl | rfl
  · simp [exec, execEhdr, command_running hs, htv]
  · simp [exec, execEnc, command_running hs, withSymbol, hsym, htv]
  · simp [exec, execDec, command_running hs, hd]
  · simp [exec, execDecn, command_running hs, hd]
  · simp [exec, execDecd, command_running hs, hd]

/-! ### The register map -/

/-- A read of `STATUS` in a halted block answers a word with `ERRF` set and keeps the error (10_state.md R40). -/
theorem readStatus_halted {s : State} (h : s.errf = true) :
    (readStatus s).rdata.getLsbD 1 = true ∧ KeepsErr s (readStatus s) := by
  simp [readStatus, h, errfMask, KeepsErr]

theorem readStatus_running {s : State} (h : s.errf = false) : readStatus s = s.answer (statusWord s) := by
  simp [readStatus, h]

/-- Settles O53: while running the answer is the assembled word, whose fields the buffers' bounds keep apart; while halted
only `ERRF` is looked at. -/
theorem statusReadGivesTheLayout : Obligations.StatusReadGivesTheLayout := by
  unfold Obligations.StatusReadGivesTheLayout
  intro s es h hb
  have hstep : step s = .next (readStatus (s.setHost es)) := step_of_reads h rfl (by decide)
  refine ⟨fun hs => ?_, fun hs => ?_⟩
  · rw [readStatus_running (s := s.setHost es) hs] at hstep
    exact ⟨_, hstep, toNat_statusWord (s := s.setHost es) hb.rbuf_cap hb.wbuf_cap, rfl⟩
  · obtain ⟨hbit, herr⟩ := readStatus_halted (s := s.setHost es) hs
    exact ⟨_, hstep, hbit, herr⟩

theorem readRes_running {s : State} (h : s.errf = false) (v : BitVec 32) : readRes v s = s.answer v := by
  simp [readRes, h]

/-- Settles O54: each offset reads its register, `CMD` and the reserved offsets read 0. -/
theorem registerReadsFollowTheMap : Obligations.RegisterReadsFollowTheMap := by
  unfold Obligations.RegisterReadsFollowTheMap
  intro s es hs
  refine ⟨fun h => ?_, fun h => ?_, fun h => ?_, fun o ho h => ?_⟩
  · have hstep : step s = .next (readRes (s.res.extractLsb' 0 32) (s.setHost es)) := step_of_reads h rfl (by decide)
    rw [readRes_running (s := s.setHost es) hs] at hstep
    exact ⟨_, hstep, by simp⟩
  · have hstep : step s = .next (readRes (s.res.extractLsb' 32 32) (s.setHost es)) := step_of_reads h rfl (by decide)
    rw [readRes_running (s := s.setHost es) hs] at hstep
    refine ⟨_, hstep, ?_⟩
    have := s.res.isLt
    simp [Nat.shiftRight_eq_div_pow]; omega
  · have hstep : step s = .next ((s.setHost es).answer (s.err.setWidth 32)) := step_of_reads h rfl (by decide)
    refine ⟨_, hstep, ?_⟩
    have := s.err.isLt
    simp; omega
  · simp only [List.mem_cons, List.not_mem_nil, or_false] at ho
    rcases ho with rfl | rfl | rfl | rfl <;> exact step_of_reads h rfl (by decide)

/-- Settles O55: a read changes only the answer and the model's counter; a write away from `CMD` is dropped. -/
theorem readsAndIgnoredWritesHaveNoEffect : Obligations.ReadsAndIgnoredWritesHaveNoEffect := by
  unfold Obligations.ReadsAndIgnoredWritesHaveNoEffect
  intro s es o hr ho hlt
  refine ⟨fun h => ?_, fun w hne h => ?_⟩
  · obtain ⟨v, n, hread⟩ := readRegister_eq o (s.setHost es)
    rw [step_of_read h hr ho hlt, hread]
    exact ⟨_, rfl, rfl, ⟨rfl, rfl⟩, ⟨rfl, rfl, rfl⟩, ⟨rfl, rfl⟩, rfl, ⟨rfl, rfl⟩, ⟨rfl, rfl⟩, rfl, rfl⟩
  · rw [step_of_write h hr ho hlt, writeRegister, if_neg hne]

theorem writeRegister_next (o : Nat) (w : Word) (s : State) : ∃ u, writeRegister o w s = .next u := by
  unfold writeRegister
  split
  · exact issue_next w s
  · exact ⟨s, rfl⟩

/-- Settles O56: the checks of an access stand in the order reset, width and alignment, offset; an access that passes them
answers a next state. -/
theorem onlyUnspecifiedAccessesAreRefused : Obligations.OnlyUnspecifiedAccessesAreRefused := by
  unfold Obligations.OnlyUnspecifiedAccessesAreRefused
  intro s es o n w e he h
  obtain ⟨body, hbody, hnext⟩ : ∃ body, step s = access o n (s.setHost es) body ∧ ∃ u, body = .next u := by
    rw [step_of_host h]
    rcases he with rfl | rfl
    · exact ⟨_, rfl, _, rfl⟩
    · exact ⟨_, rfl, writeRegister_next o w _⟩
  rw [hbody]
  refine ⟨fun hr => ?_, fun hr hn => ?_, fun hr hn ho hlt => ?_, fun hr hn ho hlt => ?_⟩
  · simp [access, hr]
  · simp [access, hr, hn]
  · simp [access, hr, hn, ho, offEnd, hlt]
  · subst hn
    rwa [access_of_aligned (s := s.setHost es) hr ho hlt]

end Sys2Proof.Machine
end

section
/-! SUPPORT. What a command does to the bounds of the block and to the two streams (20_memory.md R73 to R76, R81, R98): the
cases of `exec` said once, then each operation's part. -/

namespace Sys2Proof.Machine

/-! ### Every command -/

/-- Everything a command can do: SRST resets the block, a halted block keeps its state, and a running one completes with the
command's own effect or halts from a quiet state. -/
theorem exec_cases {i : Instr} {s u : State} (h : exec i s = .next u) :
    (i = .srst ∧ u = blockReset s) ∨ (s.errf = true ∧ u = s) ∨ (s.errf = false ∧ u.errf = false ∧ Effect i s u)
      ∨ (s.errf = false ∧ ∃ e t, Quiet s t ∧ u = enterHalt e t) := by
  by_cases hi : i = .srst
  · subst hi
    cases h
    exact .inl ⟨rfl, rfl⟩
  · cases hs : s.errf with
    | true =>
      rw [exec_halted hi hs] at h
      cases h
      exact .inr (.inl ⟨rfl, rfl⟩)
    | false =>
      cases hu : u.errf with
      | true => exact .inr (.inr (.inr ⟨rfl, body_raise hs h hu⟩))
      | false => exact .inr (.inr (.inl ⟨rfl, rfl, body_effect hi hs h hu⟩))

/-! ### The bounds of the block -/

theorem ErrCode.code_mem_definedCodes (e : ErrCode) : e.code ∈ definedCodes := by
  cases e <;> decide

theorem ErrCode.code_ne_zero (e : ErrCode) : e.code ≠ 0 := by
  cases e <;> decide

/-- The halted state meets the bounds: the free buffers are cut to their capacities (log entry 5), and the error is recorded. -/
theorem enterHalt_blockInv (e : ErrCode) (s : State) : BlockInv (enterHalt e s) where
  rbuf_cap := List.length_take_le _ _
  wbuf_cap := List.length_take_le _ _
  err_defined := e.code_mem_definedCodes
  errf_iff := iff_of_true rfl e.code_ne_zero
  count_cap hf := Bool.noConfusion hf

theorem blockReset_blockInv (s : State) : BlockInv (blockReset s) := { resetMeetsBlockInv with }

section
variable {s t : State}

theorem ReaderStep.keepsErr (h : ReaderStep s t) : KeepsErr s t := by rw [h.rest]; exact ⟨rfl, rfl⟩
theorem WriterStep.keepsErr (h : WriterStep s t) : KeepsErr s t := by rw [h.rest]; exact ⟨rfl, rfl⟩

/-- With the error register and the counts kept, only the buffers' bounds are left to show. -/
theorem BlockInv.of_kept (h : BlockInv s) (hr : t.rbuf.length ≤ 57) (hw : t.wbuf.length ≤ 7) (he : KeepsErr s t)
    (hh : KeepsHist s t) : BlockInv t where
  rbuf_cap := hr
  wbuf_cap := hw
  err_defined := he.1 ▸ h.err_defined
  errf_iff := he.1 ▸ he.2 ▸ h.errf_iff
  count_cap hf := hh ▸ h.count_cap (he.2 ▸ hf)

theorem ReaderStep.keeps_blockInv (h : ReaderStep s t) (hb : BlockInv s) : BlockInv t :=
  hb.of_kept (h.cap hb.rbuf_cap) (h.keepsWriter.1 ▸ hb.wbuf_cap) h.keepsErr h.keepsHist

theorem WriterStep.keeps_blockInv (h : WriterStep s t) (hb : BlockInv s) : BlockInv t := by
  have hw : t.wbuf.length ≤ 7 := h.pending.elim id fun hk => hk ▸ hb.wbuf_cap
  exact hb.of_kept (h.keepsReader.1 ▸ hb.rbuf_cap) hw h.keepsErr h.keepsHist

end

section
variable {i : Instr} {s u : State}

/-- A command that completes keeps the bounds: readers and writers keep their buffer's, counting commands the sum's, and the
other commands write neither. -/
theorem Effect.keeps_blockInv (h : Effect i s u) (hb : BlockInv s) : BlockInv u := by
  cases h with
  | nop => exact hb
  | read _ hr => exact hr.keeps_blockInv hb
  | readResult _ _ _ hr => exact { hr.keeps_blockInv hb with }
  | decoded _ _ _ hx => exact { (nextSymbol_readerStep hx).keeps_blockInv hb with }
  | committed _ _ hr => exact { hr.keeps_blockInv hb with }
  | built => exact { hb with }
  | counted _ _ _ ht => exact { hb with count_cap := fun _ => ht }
  | queried => exact { hb with }
  | pushed _ hw => exact hw.keeps_blockInv hb
  | flushed _ hw => exact hw.keeps_blockInv hb
  | raw b => exact (rawByte_writer b s).keeps_blockInv hb

theorem exec_keeps_blockInv (hb : BlockInv s) (h : exec i s = .next u) : BlockInv u := by
  rcases exec_cases h with ⟨-, rfl⟩ | ⟨-, rfl⟩ | ⟨-, -, he⟩ | ⟨-, e, t, -, rfl⟩
  · exact blockReset_blockInv s
  · exact hb
  · exact he.keeps_blockInv hb
  · exact enterHalt_blockInv e t

end

/-! ### The two streams -/

/-- `t` comes from `s` by taking bytes from the front of the source and appending bytes to the sink (20_memory.md R73, R76). -/
def StreamsForward (s t : State) : Prop :=
  (∃ pulled, s.source = pulled ++ t.source) ∧ ∃ emitted, t.sink = s.sink ++ emitted

section
variable {i : Instr} {s t u : State}

theorem StreamsForward.of_kept (hsource : t.source = s.source) (hsink : t.sink = s.sink) : StreamsForward s t :=
  ⟨⟨[], hsource.symm⟩, [], by rw [hsink, List.append_nil]⟩

theorem Quiet.streamsForward (h : Quiet s t) : StreamsForward s t :=
  ⟨h.pulls, [], by rw [h.sink, List.append_nil]⟩

theorem WriterStep.streamsForward (h : WriterStep s t) : StreamsForward s t :=
  ⟨⟨[], h.keepsReader.2.2.symm⟩, h.emits⟩

theorem Effect.streamsForward (h : Effect i s u) : StreamsForward s u := by
  cases h with
  | nop => exact .of_kept rfl rfl
  | read _ hr => exact hr.quiet.streamsForward
  | readResult _ _ _ hr => exact hr.quiet.streamsForward
  | decoded _ _ _ hx => exact (nextSymbol_readerStep hx).quiet.streamsForward
  | committed _ _ hr => exact hr.quiet.streamsForward
  | built => exact .of_kept rfl rfl
  | counted => exact .of_kept rfl rfl
  | queried => exact .of_kept rfl rfl
  | pushed _ hw => exact hw.streamsForward
  | flushed _ hw => exact hw.streamsForward
  | raw b => exact (rawByte_writer b s).streamsForward

end

/-! ### A short stream -/

/-- A read of more bits than the whole stream holds raises with the source at its end (20_memory.md R84). -/
theorem peekBits_short {n : Nat} {s : State} (hn : n ≤ 50) (h : s.input.length < n) :
    peekBits n s = .raised .truncated (refill s) ∧ (refill s).source = [] := by
  rcases peekBits_spec hn s with ⟨hle, -⟩ | ⟨-, hraise⟩
  · omega
  · exact hraise

/-! ### The output stream -/

theorem length_output (s : State) : s.output.length = 8 * s.sink.length + s.wbuf.length := by
  simp [State.output, length_streamBits]

end Sys2Proof.Machine
end

section
/-! The statements about the two streams and the buffers (20_memory.md). -/

namespace Sys2Proof.Machine

/-- Settles O12: a command keeps the bounds, an error and a reset restore them, and no other step touches what they speak of. -/
theorem stepKeepsBlockInv : Obligations.StepKeepsBlockInv := by
  unfold Obligations.StepKeepsBlockInv
  intro s u hb h
  rcases step_cases h with ⟨-, rfl⟩ | ⟨e, es, -, he⟩
  · exact hb
  · cases he with
    | command _ _ h => exact exec_keeps_blockInv (s := s.setHost es) { hb with } h
    | rejected c => exact enterHalt_blockInv c _
    | ignored => exact { hb with }
    | answered => exact { hb with }
    | resetOn => exact { blockReset_blockInv s with }
    | resetOff => exact { hb with }
    | newSource => exact { hb with }
    | newSink => exact { hb with }

/-- Settles O17: readers pull from the front, writers append, and whatever raises has emitted nothing. -/
theorem streamsOnlyMoveForward : Obligations.StreamsOnlyMoveForward := by
  unfold Obligations.StreamsOnlyMoveForward
  intro i s u h
  suffices hf : StreamsForward s u ∧ (s.errf = false → u.errf = true → u.sink = s.sink) from and_assoc.mp hf
  rcases exec_cases h with ⟨-, rfl⟩ | ⟨-, rfl⟩ | ⟨-, hu, he⟩ | ⟨-, e, t, hq, rfl⟩
  · exact ⟨.of_kept rfl rfl, fun _ _ => rfl⟩
  · exact ⟨.of_kept rfl rfl, fun _ _ => rfl⟩
  · exact ⟨he.streamsForward, fun _ hraised => Bool.noConfusion (hu.symm.trans hraised)⟩
  · exact ⟨hq.streamsForward, fun _ _ => hq.sink⟩

/-- Settles O19: `refill()` looks ahead by the fewest bytes, and those of them the source still has are pulled. -/
theorem refillPullsTheFewestBytes : Obligations.RefillPullsTheFewestBytes := by
  unfold Obligations.RefillPullsTheFewestBytes
  intro s
  obtain ⟨hsource, -, hreof⟩ := refill_looksAhead s
  have hfull : 50 ≤ (refill s).rbuf.length ∨ (refill s).reof = true := (refill_full s).imp_right And.left
  have hk : bytesAhead 0 s.rbuf.length = (50 - s.rbuf.length + 7) / 8 := rfl
  rw [hk] at hsource
  refine ⟨refill_input s, hfull, hreof, refill_cap, ?_, ?_⟩
  · rw [hsource, List.length_drop]
    omega
  · rw [hsource, Nat.min_comm]
    exact List.drop_eq_drop_min

/-- Settles O23: the peek each of the three commands begins with raises, having pulled the whole source. -/
theorem shortStreamTruncates : Obligations.ShortStreamTruncates := by
  unfold Obligations.ShortStreamTruncates
  intro s n i hs h1 h9 hshort hi
  obtain ⟨hpeek, hend⟩ := peekBits_short (by omega) hshort
  have hcount : countInRange n = true := by simp [countInRange, h1, h9]
  refine ⟨enterHalt .truncated (refill s), ?_, (refill_reader s).quiet.halts .truncated, hend⟩
  rcases hi with rfl | rfl | rfl
  · simp [exec, execPeek, command_running hs, withCount, hcount, hpeek]
  · simp [exec, execRdb, command_running hs, withCount, hcount, readField, hpeek]
  · simp [exec, execSkip, command_running hs, withCount, hcount, hpeek]

/-- Settles O27: the output stream keeps its length, so with fewer than 8 bits left the division by 8 says how many bytes went
out and how many bits stay. -/
theorem flushWhileFullKeepsTheStream : Obligations.FlushWhileFullKeepsTheStream := by
  unfold Obligations.FlushWhileFullKeepsTheStream
  intro s
  have hout := flushWhileFull_output s
  have hlt := flushWhileFull_wbuf_lt s
  obtain ⟨emitted, hsink⟩ := flushWhileFull_appends s
  have hlen := congrArg List.length hout
  rw [length_output, length_output, hsink, List.length_append] at hlen
  exact ⟨hout, by omega, emitted, hsink, by omega⟩

end Sys2Proof.Machine
end

section
/-! SUPPORT. The command word (30_encoding.md R110 to R121): its fields as numbers, what the opcode map says of the command an
opcode names, and the decoder on a word whose opcode is reserved or names a command. -/

namespace Sys2Proof

/-! ### The operands of a format (R111) -/

/-- The count field a command of this format has, from the field `N` of its word (R111). -/
def Format.count (n : BitVec 4) : Format → BitVec 4
  | .N | .NV => n
  | .Z | .S | .B => 0

/-- The operand field a command of this format has, from the field `OPD` of its word (R111). -/
def Format.operand (opd : BitVec 9) : Format → BitVec 9
  | .S | .NV => opd
  | .B => 0#1 ++ opd.extractLsb' 0 8
  | .Z | .N => 0

/-- The operand checks of R116, by format. -/
def Format.inRange (n : BitVec 4) (opd : BitVec 9) : Format → Bool
  | .S => symbolInRange opd
  | .N => countInRange n
  | .NV => countInRange n && valueInRange n opd
  | .Z | .B => true

end Sys2Proof

namespace Sys2Proof.Machine

/-! ### The fields (R110) -/

theorem toNat_opcField (w : Word) : (opcField w).toNat = wordOPC w := by
  simp only [opcField, wordOPC, BitVec.extractLsb'_toNat, Nat.shiftRight_eq_div_pow]
  omega

theorem toNat_rsv1Field (w : Word) : (rsv1Field w).toNat = wordRSV1 w := by
  simp only [rsv1Field, wordRSV1, BitVec.extractLsb'_toNat, Nat.shiftRight_eq_div_pow, Nat.reducePow]

theorem toNat_nField (w : Word) : (nField w).toNat = wordN w := by
  simp only [nField, wordN, BitVec.extractLsb'_toNat, Nat.shiftRight_eq_div_pow, Nat.reducePow]

theorem toNat_rsv2Field (w : Word) : (rsv2Field w).toNat = wordRSV2 w := by
  simp only [rsv2Field, wordRSV2, BitVec.extractLsb'_toNat, Nat.shiftRight_eq_div_pow, Nat.reducePow]

theorem toNat_opdField (w : Word) : (opdField w).toNat = wordOPD w := by
  simp only [opdField, wordOPD, BitVec.extractLsb'_toNat, Nat.shiftRight_zero, Nat.reducePow]

theorem toNat_commandWord (opc : BitVec 8) (n : BitVec 4) (opd : BitVec 9) :
    (commandWord opc n opd).toNat = opc.toNat * 2 ^ 24 + n.toNat * 2 ^ 16 + opd.toNat := by
  simp only [commandWord, toNat_append_eq_add, BitVec.ofNat_eq_ofNat, BitVec.toNat_ofNat]
  omega

section
variable (opc : BitVec 8) (n : BitVec 4) (opd : BitVec 9)

@[simp] theorem opcField_commandWord : opcField (commandWord opc n opd) = opc := by
  apply BitVec.eq_of_toNat_eq
  rw [toNat_opcField, wordOPC, toNat_commandWord]
  omega

@[simp] theorem rsv1Field_commandWord : rsv1Field (commandWord opc n opd) = 0 := by
  apply BitVec.eq_of_toNat_eq
  rw [toNat_rsv1Field, wordRSV1, toNat_commandWord]
  change _ = 0
  omega

@[simp] theorem nField_commandWord : nField (commandWord opc n opd) = n := by
  apply BitVec.eq_of_toNat_eq
  rw [toNat_nField, wordN, toNat_commandWord]
  omega

@[simp] theorem rsv2Field_commandWord : rsv2Field (commandWord opc n opd) = 0 := by
  apply BitVec.eq_of_toNat_eq
  rw [toNat_rsv2Field, wordRSV2, toNat_commandWord]
  change _ = 0
  omega

@[simp] theorem opdField_commandWord : opdField (commandWord opc n opd) = opd := by
  apply BitVec.eq_of_toNat_eq
  rw [toNat_opdField, wordOPD, toNat_commandWord]
  omega

end

/-- A word with zero reserved fields is the word of its other three fields. -/
theorem commandWord_fields {w : Word} (h1 : rsv1Field w = 0) (h2 : rsv2Field w = 0) :
    commandWord (opcField w) (nField w) (opdField w) = w := by
  have h1 : wordRSV1 w = 0 := by rw [← toNat_rsv1Field, h1]; rfl
  have h2 : wordRSV2 w = 0 := by rw [← toNat_rsv2Field, h2]; rfl
  apply BitVec.eq_of_toNat_eq
  rw [toNat_commandWord, toNat_opcField, toNat_nField, toNat_opdField]
  simp only [wordRSV1, wordRSV2, wordOPC, wordN, wordOPD] at h1 h2 ⊢
  omega

theorem eq_ofNat_of_toNat_eq {w k : Nat} {x : BitVec w} (h : x.toNat = k) : x = BitVec.ofNat w k := by
  rw [← h, BitVec.ofNat_toNat, BitVec.setWidth_eq]

/-! ### The opcode map (R111 to R113) -/

/-- What holds of the command that the fields of a word name: its row of R113 has the opcode, and its format (R111) says which
fields its operands are, what they must satisfy, and so what its own word is. -/
structure Names (opc : BitVec 8) (n : BitVec 4) (opd : BitVec 9) (i : Instr) : Prop where
  opcode : opc.toNat ∈ opcodesOf i.format
  inRange : operandsInRange i = i.format.inRange n opd
  word : encode i = commandWord opc (i.format.count n) (i.format.operand opd)

/-- Row by row of the opcode map. -/
theorem commandOf_names {opc : BitVec 8} {n : BitVec 4} {opd : BitVec 9} {i : Instr} (h : commandOf opc n opd = some i) :
    Names opc n opd i := by
  unfold commandOf at h
  split at h
  case h_25 => cases h
  all_goals
    rename_i hopc
    obtain rfl := eq_ofNat_of_toNat_eq hopc
    cases h
    exact ⟨by simp [Instr.format, opcodesOf], rfl, rfl⟩

/-- The opcodes of a format are those that name a command of that format. -/
theorem mem_opcodesOf_iff {opc : BitVec 8} (n : BitVec 4) (opd : BitVec 9) {f : Format} :
    opc.toNat ∈ opcodesOf f ↔ ∃ i, commandOf opc n opd = some i ∧ i.format = f := by
  constructor
  · intro h
    cases f <;> simp only [opcodesOf, List.mem_cons, List.not_mem_nil, or_false] at h
    case Z => rcases h with h | h | h | h | h | h | h | h | h | h | h | h | h | h <;> simp [commandOf, h, Instr.format]
    case S => rcases h with h | h | h | h | h <;> simp [commandOf, h, Instr.format]
    case N => rcases h with h | h | h <;> simp [commandOf, h, Instr.format]
    case NV => simp [commandOf, h, Instr.format]
    case B => simp [commandOf, h, Instr.format]
  · rintro ⟨i, h, rfl⟩
    exact (commandOf_names h).opcode

/-- The fields of a command's word name that command. -/
theorem commandOf_encode (i : Instr) :
    commandOf (opcField (encode i)) (nField (encode i)) (opdField (encode i)) = some i := by
  cases i with
  | wraw b =>
    have hb : ((0 : BitVec 1) ++ b).extractLsb' 0 8 = b := BitVec.extractLsb'_append_eq_right
    simpa [encode, commandOf] using hb
  | _ => simp [encode, commandOf]

/-- The decoder checks of a command what R111 says of it. -/
theorem operandsInRange_eq_wellFormed (i : Instr) : operandsInRange i = i.wellFormed := by cases i <;> rfl

/-- The bit `OPD[8]`, as a number. -/
theorem getElem_eight (x : BitVec 9) : x[8] = decide (256 ≤ x.toNat) := x.msb_eq_decide

/-- The operand field holds a byte exactly if `OPD[8]` is 0. -/
theorem byteOperand_eq_iff (x : BitVec 9) : x = 0#1 ++ x.extractLsb' 0 8 ↔ x[8] = false := by
  rw [getElem_eight, ← BitVec.toNat_inj, toNat_append_eq_add, BitVec.extractLsb'_toNat]
  simp [eq_comm (a := x.toNat)]

/-- The layout check of R115: the reserved fields are 0, and the other fields hold only what the format has. -/
theorem layoutLegal_iff {f : Format} {w : Word} : layoutLegal f w = true ↔ rsv1Field w = 0 ∧ rsv2Field w = 0
    ∧ nField w = f.count (nField w) ∧ opdField w = f.operand (opdField w) := by
  cases f <;> simp [layoutLegal, Format.count, Format.operand, byteOperand_eq_iff, and_assoc]

/-! ### A word whose opcode names a command -/

/-- The command the fields of a word name (R113), before the checks of R115 and R116. -/
def namedCommand (w : Word) : Option Instr := commandOf (opcField w) (nField w) (opdField w)

theorem opcodeDefined_iff {w : Word} : OpcodeDefined w ↔ ∃ i, namedCommand w = some i := by
  simp only [OpcodeDefined, ← toNat_opcField, mem_opcodesOf_iff (nField w) (opdField w)]
  exact ⟨fun ⟨_, i, h, _⟩ => ⟨i, h⟩, fun ⟨i, h⟩ => ⟨_, i, h, rfl⟩⟩

theorem decode_of_reserved {w : Word} (h : namedCommand w = none) : decode w = .illegal := by
  unfold decode
  rw [← namedCommand, h]

theorem decode_of_named {w : Word} {i : Instr} (h : namedCommand w = some i) :
    decode w = if layoutLegal i.format w then if operandsInRange i then .command i else .badOperand i else .illegal := by
  unfold decode
  rw [← namedCommand, h]

/-- An accepted word passed every check. -/
theorem decode_eq_command_iff {w : Word} {i : Instr} :
    decode w = .command i ↔ namedCommand w = some i ∧ layoutLegal i.format w = true ∧ operandsInRange i = true := by
  constructor
  · intro h
    cases hn : namedCommand w with
    | none => rw [decode_of_reserved hn] at h; cases h
    | some j =>
      rw [decode_of_named hn] at h
      split at h
      · split at h
        · cases h; exact ⟨rfl, ‹_›, ‹_›⟩
        · cases h
      · cases h
  · rintro ⟨hn, hl, ho⟩
    rw [decode_of_named hn, if_pos hl, if_pos ho]

section
variable {w : Word} {i : Instr} (hn : namedCommand w = some i)
include hn

theorem mem_opcodesOf_iff_of_named (f : Format) : wordOPC w ∈ opcodesOf f ↔ i.format = f := by
  rw [← toNat_opcField, mem_opcodesOf_iff (nField w) (opdField w), ← namedCommand, hn]
  simp

/-- The decoder's layout check refuses R115's list. -/
theorem layoutLegal_iff_not_broken : layoutLegal i.format w = true ↔ ¬ LayoutBroken w := by
  simp only [LayoutBroken, mem_opcodesOf_iff_of_named hn, layoutLegal]
  cases i.format <;>
    simp [getElem_eight, ← BitVec.toNat_inj, toNat_rsv1Field, toNat_nField, toNat_rsv2Field, toNat_opdField, and_assoc]

/-- The decoder's operand check refuses R116's list. -/
theorem operandsInRange_iff_not_broken : operandsInRange i = true ↔ ¬ OperandBroken w := by
  simp only [OperandBroken, mem_opcodesOf_iff_of_named hn, (commandOf_names hn).inRange]
  cases i.format <;>
    simp [Format.inRange, symbolInRange, countInRange, valueInRange, toNat_nField, toNat_opdField, Nat.one_le_iff_ne_zero]

/-- The layout of a word is legal exactly if the word is the encoding of the command it names (R117). -/
theorem layoutLegal_iff_encode_eq : layoutLegal i.format w = true ↔ encode i = w := by
  rw [layoutLegal_iff, (commandOf_names hn).word]
  constructor
  · rintro ⟨h1, h2, hcount, hoperand⟩
    rw [← hcount, ← hoperand, commandWord_fields h1 h2]
  · intro h
    exact ⟨by rw [← h, rsv1Field_commandWord], by rw [← h, rsv2Field_commandWord],
      by simpa using congrArg nField h.symm, by simpa using congrArg opdField h.symm⟩

end

/-! ### Rejected words -/

/-- A rejected word halts a running block with its error's code and touches neither stream (60_exceptions.md R303). -/
theorem rejectWord_running {s : State} (hs : s.errf = false) (e : ErrCode) :
    ∃ u, rejectWord e s = .next u ∧ HaltsWith e.code s u ∧ u.source = s.source :=
  ⟨enterHalt e s, command_running hs _, (Quiet.refl s).halts e, rfl⟩

theorem issue_of_illegal {w : Word} (h : decode w = .illegal) (s : State) : issue w s = rejectWord .illegalCmd s := by
  rw [issue, h]

theorem issue_of_badOperand {w : Word} {i : Instr} (h : decode w = .badOperand i) (s : State) :
    issue w s = rejectWord .badOperand s := by
  rw [issue, h]

end Sys2Proof.Machine
end

section
/-! The statements about the encoding (30_encoding.md). -/

namespace Sys2Proof.Machine

/-- Settles O2: the fields of the word name the command, its layout is legal as the word is an encoding, and its operands are
in range by well-formedness. -/
theorem decodeOfEncodeIsTheCommand : Obligations.DecodeOfEncodeIsTheCommand := by
  unfold Obligations.DecodeOfEncodeIsTheCommand
  intro i hwf
  have hn : namedCommand (encode i) = some i := commandOf_encode i
  exact decode_eq_command_iff.mpr ⟨hn, (layoutLegal_iff_encode_eq hn).mpr rfl, (operandsInRange_eq_wellFormed i).trans hwf⟩

/-- Settles O3: an accepted word has a legal layout, and so is the encoding of the command it names. -/
theorem acceptedWordIsTheEncoding : Obligations.AcceptedWordIsTheEncoding := by
  unfold Obligations.AcceptedWordIsTheEncoding
  intro w i h
  obtain ⟨hn, hlayout, hrange⟩ := decode_eq_command_iff.mp h
  exact ⟨(layoutLegal_iff_encode_eq hn).mp hlayout, (operandsInRange_eq_wellFormed i).symm.trans hrange⟩

/-- Settles O4: the fields of the word name no command. -/
theorem reservedOpcodeRaisesIllegal : Obligations.ReservedOpcodeRaisesIllegal := by
  unfold Obligations.ReservedOpcodeRaisesIllegal
  intro s w hs hop
  have hn : namedCommand w = none := by
    rw [opcodeDefined_iff] at hop
    exact Option.eq_none_iff_forall_ne_some.mpr fun i h => hop ⟨i, h⟩
  rw [issue_of_illegal (decode_of_reserved hn)]
  exact rejectWord_running hs .illegalCmd

/-- Settles O5: the decoder's layout check fails, before the operand check. -/
theorem brokenLayoutRaisesIllegal : Obligations.BrokenLayoutRaisesIllegal := by
  unfold Obligations.BrokenLayoutRaisesIllegal
  intro s w hs hop hbroken
  obtain ⟨i, hn⟩ := opcodeDefined_iff.mp hop
  have hlayout : layoutLegal i.format w ≠ true := fun h => (layoutLegal_iff_not_broken hn).mp h hbroken
  have hd : decode w = .illegal := by rw [decode_of_named hn, if_neg hlayout]
  rw [issue_of_illegal hd]
  exact rejectWord_running hs .illegalCmd

/-- Settles O6: the layout check passes and the operand check fails. -/
theorem brokenOperandRaisesBadOperand : Obligations.BrokenOperandRaisesBadOperand := by
  unfold Obligations.BrokenOperandRaisesBadOperand
  intro s w hs hop hlegal hbroken
  obtain ⟨i, hn⟩ := opcodeDefined_iff.mp hop
  have hlayout := (layoutLegal_iff_not_broken hn).mpr hlegal
  have hrange : operandsInRange i ≠ true := fun h => (operandsInRange_iff_not_broken hn).mp h hbroken
  have hd : decode w = .badOperand i := by rw [decode_of_named hn, if_pos hlayout, if_neg hrange]
  rw [issue_of_badOperand hd]
  exact rejectWord_running hs .badOperand

/-- Settles O7: the word names a command and passes both checks. -/
theorem unbrokenWordIsAccepted : Obligations.UnbrokenWordIsAccepted := by
  unfold Obligations.UnbrokenWordIsAccepted
  intro w hop hlegal hsound
  obtain ⟨i, hn⟩ := opcodeDefined_iff.mp hop
  exact ⟨i, decode_eq_command_iff.mpr
    ⟨hn, (layoutLegal_iff_not_broken hn).mpr hlegal, (operandsInRange_iff_not_broken hn).mpr hsound⟩⟩

/-- Settles O1: each word is the encoding of its well-formed command. -/
theorem wordsFromTheOpcodeMapDecode : Obligations.WordsFromTheOpcodeMapDecode := by
  unfold Obligations.WordsFromTheOpcodeMapDecode
  have key := decodeOfEncodeIsTheCommand
  exact ⟨key .nop rfl, key (.peek 9) rfl, key (.putb 3 5) rfl, key (.wraw 0x41) rfl, key (.hadd 97) rfl,
    key (.enc 258) rfl, key .uend rfl⟩

end Sys2Proof.Machine
end

section
/-! The statement about the control commands (40_control.md). -/

namespace Sys2Proof.Machine

/-- Settles O18: a halted block ignores NOP as it does any command but SRST (60_exceptions.md R304), and a running block runs
its body, which is empty. -/
theorem nopChangesNothing : Obligations.NopChangesNothing := by
  unfold Obligations.NopChangesNothing
  intro s
  cases hs : s.errf with
  | true => exact command_halted hs _
  | false => exact command_running hs _

end Sys2Proof.Machine
end

section
/-! SUPPORT. The reader commands on a stream that is long enough (20_memory.md R84 to R86, 41_bitreader.md): what the two
reads answer, and what a reader part leaves alone. -/

namespace Sys2Proof.Machine

section
variable {s t : State}

theorem ReaderStep.keepsHostSide (h : ReaderStep s t) : KeepsHostSide s t := by rw [h.rest]; exact ⟨rfl, rfl, rfl, rfl⟩

/-- The frame that the statements of the reader commands end with; writing `RES` afterwards keeps it too. -/
theorem ReaderStep.frame (h : ReaderStep s t) :
    KeepsHist s t ∧ KeepsTable s t ∧ KeepsWriter s t ∧ KeepsLast s t ∧ KeepsErr s t ∧ KeepsHostSide s t :=
  ⟨h.keepsHist, h.keepsTable, h.keepsWriter, h.keepsLast, h.keepsErr, h.keepsHostSide⟩

/-- `RES` is no part of the reader. -/
theorem LooksAhead.setRes {n : Nat} (h : LooksAhead n s t) (v : BitVec 64) : LooksAhead n s (t.setRes v) := { h with }

end

/-- A running block runs the body of a command whose count is in range (30_encoding.md R112). -/
theorem command_withCount {s : State} {n : BitVec 4} (hs : s.errf = false) (h1 : 1 ≤ n.toNat) (h9 : n.toNat ≤ 9)
    (body : Nat → State → Ran Unit) : (command s fun s => withCount n s body) = (body n.toNat s).outcome := by
  have hcount : countInRange n = true := by simp [countInRange, h1, h9]
  rw [command_running hs, withCount, hcount, require_true]

/-- A number of at most 64 stream bits fits `RES`. -/
theorem toNat_ofNat_lsbVal_take {n : Nat} (hn : n ≤ 64) (q : Bits) :
    (BitVec.ofNat 64 (lsbVal (q.take n))).toNat = lsbVal (q.take n) := by
  have hlen : (q.take n).length ≤ 64 := (List.length_take_le n q).trans hn
  have hlt : lsbVal (q.take n) < 2 ^ 64 := (lsbVal_lt _).trans_le (Nat.pow_le_pow_right (by decide) hlen)
  rw [BitVec.toNat_ofNat, Nat.mod_eq_of_lt hlt]

section
variable {n : Nat} {s : State}

/-- `peekBits(n)` on a stream of at least `n` bits answers the next `n`, which `refill()` has buffered (20_memory.md R84). -/
theorem peekBits_enough (hn : n ≤ 50) (h : n ≤ s.input.length) :
    peekBits n s = .done (lsbVal (s.input.take n)) (refill s) ∧ n ≤ (refill s).rbuf.length := by
  rcases peekBits_spec hn s with ⟨-, hdone⟩ | ⟨hlt, -⟩
  · exact hdone
  · omega

/-- `readField(n)` on such a stream answers the same bits and consumes them (20_memory.md R86). -/
theorem readField_enough (hn : n ≤ 50) (h : n ≤ s.input.length) :
    readField n s = .done (lsbVal (s.input.take n)) (consume n (refill s)) := by
  rw [readField, (peekBits_enough hn h).1, Ran.andThen_done]

end

/-- What consuming buffered bits after a refill leaves of the reader, everything else being kept. -/
theorem consume_refill_reader (n : Nat) (s : State) : ReaderStep s (consume n (refill s)) :=
  (refill_reader s).trans (consume_reader n _)

end Sys2Proof.Machine
end

section
/-! The statements about the bit-stream reader (41_bitreader.md). -/

namespace Sys2Proof.Machine

/-- Settles O20: PEEK ends in the refilled state, `RES` apart. -/
theorem peekReturnsTheNextBits : Obligations.PeekReturnsTheNextBits := by
  unfold Obligations.PeekReturnsTheNextBits
  intro s n hs h1 h9 hlen
  obtain ⟨hpeek, -⟩ := peekBits_enough (by omega) hlen
  have hexec : exec (.peek n) s = .next ((refill s).setRes (BitVec.ofNat 64 (lsbVal (s.input.take n.toNat)))) := by
    rw [exec, execPeek, command_withCount hs h1 h9, hpeek, Ran.andThen_done, Ran.outcome_done]
  exact ⟨_, hexec, toNat_ofNat_lsbVal_take (by omega) s.input, refill_input s, (refill_looksAhead s).setRes _,
    (refill_reader s).frame⟩

/-- Settles O21: RDB ends in the state refilled once more after the field was dropped, `RES` apart. -/
theorem rdbReturnsAndConsumes : Obligations.RdbReturnsAndConsumes := by
  unfold Obligations.RdbReturnsAndConsumes
  intro s n hs h1 h9 hlen
  have hread := readField_enough (by omega) hlen
  have hahead : LooksAhead n.toNat s (consume n.toNat (refill s)) := readField_looksAhead (by omega) hread
  have hexec : exec (.rdb n) s
      = .next ((consume n.toNat (refill s)).setRes (BitVec.ofNat 64 (lsbVal (s.input.take n.toNat)))) := by
    rw [exec, execRdb, command_withCount hs h1 h9, hread, Ran.andThen_done, Ran.outcome_done]
  exact ⟨_, hexec, toNat_ofNat_lsbVal_take (by omega) s.input, hahead.input hlen, hahead.setRes _,
    (consume_refill_reader n.toNat s).frame⟩

/-- Settles O22: SKIP ends in the state RDB ends in, but for `RES`, which it keeps. -/
theorem skipOnlyConsumes : Obligations.SkipOnlyConsumes := by
  unfold Obligations.SkipOnlyConsumes
  intro s n hs h1 h9 hlen
  obtain ⟨hpeek, hbuffered⟩ := peekBits_enough (by omega) hlen
  have hahead : LooksAhead n.toNat s (consume n.toNat (refill s)) := consume_looksAhead hbuffered
  have hexec : exec (.skip n) s = .next (consume n.toNat (refill s)) := by
    rw [exec, execSkip, command_withCount hs h1 h9, hpeek, Ran.andThen_done, Ran.outcome_done]
  have hreader := consume_refill_reader n.toNat s
  exact ⟨_, hexec, hahead.input hlen, hahead, hreader.keepsRes, hreader.frame⟩

/-- Settles O24: the test of the refilled state is exact, because with more than 8 bits left `refill()` buffers more than 8. -/
theorem rchkTestsForPadding : Obligations.RchkTestsForPadding := by
  unfold Obligations.RchkTestsForPadding
  intro s hs
  have hexec : exec .rchk s = .next ((refill s).setRes (if atPadding (refill s) then 1 else 0)) := by
    rw [exec, execRchk, command_running hs, Ran.outcome_done]
  have hres : (if atPadding (refill s) then 1 else 0 : BitVec 64) = if s.input.length ≤ 8 then 1 else 0 := by
    simp only [atPadding_refill, decide_eq_true_eq]
  exact ⟨_, hexec, hres, refill_input s, (refill_looksAhead s).setRes _, (refill_reader s).frame⟩

end Sys2Proof.Machine
end

section
/-! SUPPORT. The writer commands (20_memory.md R95 to R98, 42_bitwriter.md): what a push and its flush leave pending and emit,
the byte that pads the pending bits, and what a writer part leaves alone. -/

namespace Sys2Proof.Machine

section
variable {s t : State}

theorem WriterStep.keepsHostSide (h : WriterStep s t) : KeepsHostSide s t := by rw [h.rest]; exact ⟨rfl, rfl, rfl, rfl⟩

/-- The frame that the statements of the writer commands end with. -/
theorem WriterStep.frame (h : WriterStep s t) :
    KeepsHist s t ∧ KeepsTable s t ∧ KeepsReader s t ∧ KeepsRes s t ∧ KeepsLast s t ∧ KeepsErr s t ∧ KeepsHostSide s t :=
  ⟨h.keepsHist, h.keepsTable, h.keepsReader, h.keepsRes, h.keepsLast, h.keepsErr, h.keepsHostSide⟩

end

/-- A running block runs the body of a command whose count and value are in range (30_encoding.md R112). -/
theorem command_withField {s : State} {n : BitVec 4} {v : BitVec 9} (hs : s.errf = false) (h1 : 1 ≤ n.toNat)
    (h9 : n.toNat ≤ 9) (hv : v.toNat < 2 ^ n.toNat) (body : Bits → State → Ran Unit) :
    (command s fun s => withField n v s body) = (body (lsbSeq v.toNat n.toNat) s).outcome := by
  have hcount : countInRange n = true := by simp [countInRange, h1, h9]
  have hvalue : valueInRange n v = true := decide_eq_true hv
  rw [command_running hs, withField, hcount, hvalue, Bool.and_self, require_true]

/-! ### A push and its flush -/

/-- How the pushed and the pending bits divide into whole bytes, which go out, and a rest, which stays (20_memory.md R98). -/
theorem pushFlush_lengths (q : Bits) (s : State) :
    (pushFlush q s).wbuf.length = (s.wbuf.length + q.length) % 8
      ∧ (pushFlush q s).sink.length = s.sink.length + (s.wbuf.length + q.length) / 8 := by
  have hlt := pushFlush_wbuf_lt q s
  have hlen := congrArg List.length (pushFlush_output q s)
  rw [List.length_append, length_output, length_output] at hlen
  omega

/-! ### The padded byte -/

/-- Zero bits at the high-order end do not change a value. -/
theorem lsbVal_append_zeros (q : Bits) (k : Nat) : lsbVal (q ++ List.replicate k false) = lsbVal q := by
  induction q with
  | nil =>
    induction k with
    | zero => rfl
    | succ k ih => simpa [List.replicate_succ, lsbVal] using ih
  | cons b q ih => rw [List.cons_append, lsbVal, lsbVal, ih]

/-- The byte formed from at most eight bits holds them, then zeros (42_bitwriter.md R192). -/
theorem byteBits_byteOf_short {q : Bits} (h : q.length ≤ 8) :
    byteBits (byteOf q) = q ++ List.replicate (8 - q.length) false := by
  have hpad : byteOf (q ++ List.replicate (8 - q.length) false) = byteOf q := by
    rw [byteOf, lsbVal_append_zeros, byteOf]
  have hlen : (q ++ List.replicate (8 - q.length) false).length = 8 := by
    rw [List.length_append, List.length_replicate]
    omega
  rw [← hpad, byteBits_byteOf hlen]

/-! ### `flushAll()` (20_memory.md R97) -/

section
variable {s : State}

theorem emitRest_empty (h : s.wbuf = []) : emitRest s = s := if_pos h

theorem emitRest_pending (h : s.wbuf ≠ []) : emitRest s = s.setWriter [] (s.sink ++ [byteOf s.wbuf]) := if_neg h

theorem emitRest_wbuf (s : State) : (emitRest s).wbuf = [] := by
  by_cases h : s.wbuf = []
  · rw [emitRest_empty h, h]
  · rw [emitRest_pending h, State.setWriter_wbuf]

/-- With fewer than 8 bits pending only the last, padded byte is left to emit. -/
theorem flushAll_of_lt (h : s.wbuf.length < 8) : flushAll s = emitRest s := by
  rw [flushAll, flushWhileFull_of_lt h]

end

end Sys2Proof.Machine
end

section
/-! The statements about the bit-stream writer (42_bitwriter.md). -/

namespace Sys2Proof.Machine

/-- Settles O25: PUTB pushes the field and flushes, which keeps the output stream in order. -/
theorem putbAppendsTheField : Obligations.PutbAppendsTheField := by
  unfold Obligations.PutbAppendsTheField
  intro s n v hs h1 h9 hv
  have hexec : exec (.putb n v) s = .next (pushFlush (lsbSeq v.toNat n.toNat) s) := by
    rw [exec, execPutb, command_withField hs h1 h9 hv, Ran.outcome_done]
  obtain ⟨hpending, hemitted⟩ := pushFlush_lengths (lsbSeq v.toNat n.toNat) s
  rw [length_lsbSeq] at hpending hemitted
  exact ⟨_, hexec, pushFlush_output _ s, hpending, hemitted, (pushFlush_writer _ s).frame⟩

/-- Settles O26: with at most 7 bits pending there is no whole byte to flush, and FLA is left with the padded one. -/
theorem flushesEmitWholeAndPaddedBytes : Obligations.FlushesEmitWholeAndPaddedBytes := by
  unfold Obligations.FlushesEmitWholeAndPaddedBytes
  intro s hs hw
  have hlt : s.wbuf.length < 8 := Nat.lt_succ_of_le hw
  have hflb : exec .flb s = .next s := by
    rw [exec, execFlb, command_running hs, flushWhileFull_of_lt hlt, Ran.outcome_done]
  have hfla : exec .fla s = .next (emitRest s) := by
    rw [exec, execFla, command_running hs, flushAll_of_lt hlt, Ran.outcome_done]
  refine ⟨hflb, emitRest s, hfla, emitRest_wbuf s, fun hempty => ?_, fun hpending => ?_, (emitRest_writer s).frame⟩
  · rw [emitRest_empty hempty]
  · refine ⟨byteOf s.wbuf, ?_, byteBits_byteOf_short hlt.le⟩
    rw [emitRest_pending hpending, State.setWriter_sink]

/-- Settles O28: the check of WRAW is whether `WBUF` is empty; a raise leaves the streams as they were. -/
theorem wrawNeedsAnEmptyBuffer : Obligations.WrawNeedsAnEmptyBuffer := by
  unfold Obligations.WrawNeedsAnEmptyBuffer
  intro s b hs
  refine ⟨fun hempty => ?_, fun hpending => ?_⟩
  · have hexec : exec (.wraw b) s = .next (rawByte b s) := by
      rw [exec, execWraw, command_running hs, List.isEmpty_iff.mpr hempty, require_true, Ran.outcome_done]
    exact ⟨_, hexec, rfl, hempty, (rawByte_writer b s).frame⟩
  · have hexec : exec (.wraw b) s = .next (enterHalt .rawPending s) := by
      rw [exec, execWraw, command_running hs, List.isEmpty_eq_false_iff.mpr hpending, require_false, Ran.outcome_raised]
    exact ⟨_, hexec, (Quiet.refl s).halts .rawPending, rfl⟩

end Sys2Proof.Machine
end

section
/-! SUPPORT. The tree BUILD makes (43_coder.md R222 to R225): the sorted queue makes the runs of the spec's extraction loop, how
many leaves a tree of a given height has, and a histogram that reaches the depth bound. -/

namespace Sys2Proof.Machine

/-! ### The extraction loop (R223) -/

/-- The head of a sorted queue is the node the spec extracts from any arrangement of it. -/
theorem QueueSorted.least {a : QNode} {q q' : List QNode} (hs : QueueSorted (a :: q)) (hp : q'.Perm (a :: q)) :
    a ∈ q' ∧ ∀ x ∈ q', a.le x = true := by
  refine ⟨hp.mem_iff.mpr List.mem_cons_self, fun x hx => ?_⟩
  rcases List.mem_cons.mp (hp.mem_iff.mp hx) with rfl | hx
  · exact (QNode_le_total x x).elim id id
  · exact List.rel_of_pairwise_cons hs hx

theorem erase_perm_of_perm_cons {a : QNode} {q q' : List QNode} (hp : q'.Perm (a :: q)) : (q'.erase a).Perm q := by
  simpa using hp.erase a

/-- The merging loop on the sorted queue is a run of the spec's loop on any arrangement of the same nodes. -/
theorem mergeLoop_treeRun (fuel : Nat) : ∀ (j : Nat) (q q' : List QNode) (root : QNode),
    QueueSorted q → q'.Perm q → mergeLoop fuel j q = [root] → TreeRun j q' root := by
  induction fuel with
  | zero =>
    intro j q q' root _ hp hq
    cases hq
    rw [List.perm_singleton.mp hp]
    exact .root j root
  | succ fuel ih =>
    intro j q q' root hs hp hq
    match q with
    | [] => cases hq
    | [a] =>
      cases hq
      rw [List.perm_singleton.mp hp]
      exact .root j root
    | a :: b :: q =>
      have hs1 : QueueSorted (b :: q) := List.Pairwise.of_cons hs
      have hp1 := erase_perm_of_perm_cons hp
      have hp2 := erase_perm_of_perm_cons hp1
      obtain ⟨ha, hmin⟩ := hs.least hp
      obtain ⟨hb, hmin2⟩ := hs1.least hp1
      exact .merge j q' a b root ha hmin hb hmin2
        (ih (j + 1) _ _ root (enqueue_sorted (List.Pairwise.of_cons hs1)) ((hp2.cons _).trans (enqueue_perm _ q).symm) hq)

/-! ### Leaves and height (R222, R224) -/

/-- Some leaf stands as deep as the tree is high. -/
theorem exists_deepest_leaf (t : HTree) (d : Nat) : ∃ x ∈ t.depths d, x.len = d + treeHeight t := by
  induction t generalizing d with
  | leaf x => exact ⟨⟨d, x⟩, by simp [HTree.depths], rfl⟩
  | node a b iha ihb =>
    simp only [HTree.depths, treeHeight, List.mem_append]
    rcases Nat.le_total (treeHeight a) (treeHeight b) with hle | hle
    · obtain ⟨x, hx, hlen⟩ := ihb (d + 1)
      exact ⟨x, .inr hx, by omega⟩
    · obtain ⟨x, hx, hlen⟩ := iha (d + 1)
      exact ⟨x, .inl hx, by omega⟩

theorem length_treeLeaves_le (t : HTree) : (treeLeaves t).length ≤ 2 ^ treeHeight t := by
  induction t with
  | leaf x => exact le_rfl
  | node a b iha ihb =>
    have ha := Nat.pow_le_pow_right (n := 2) (by decide) (Nat.le_max_left (treeHeight a) (treeHeight b))
    have hb := Nat.pow_le_pow_right (n := 2) (by decide) (Nat.le_max_right (treeHeight a) (treeHeight b))
    rw [treeLeaves, treeHeight, List.length_append, Nat.pow_succ]
    omega

theorem length_depths (t : HTree) (d : Nat) : (t.depths d).length = (treeLeaves t).length := by
  rw [← depths_sym t d, List.length_map]

theorem length_treeLeaves_pos (t : HTree) : 0 < (treeLeaves t).length := by
  induction t with
  | leaf x => exact Nat.one_pos
  | node a b iha _ => rw [treeLeaves, List.length_append]; omega

/-- A tree of one leaf is that leaf. -/
theorem eq_leaf_of_treeLeaves {t : HTree} {x : Nat} (h : treeLeaves t = [x]) : t = .leaf x := by
  cases t with
  | leaf y => cases h; rfl
  | node a b =>
    have hlen := congrArg List.length h
    have ha := length_treeLeaves_pos a
    have hb := length_treeLeaves_pos b
    simp only [treeLeaves, List.length_append, List.length_singleton] at hlen
    omega

theorem total_ne_zero_of_present {h : Vector (BitVec 32) 259} (hp : present h ≠ []) : total h ≠ 0 := by
  intro ht
  obtain ⟨x, hx⟩ := List.exists_mem_of_ne_nil _ hp
  obtain ⟨hle, hne⟩ := mem_present.mp hx
  exact hne ((total_eq_zero_iff h).mp ht x hle)

/-- With a present symbol the code lengths are the depths of a tree whose leaves are the present symbols. -/
theorem codeLengths_of_present {h : Vector (BitVec 32) 259} (hp : 1 ≤ (present h).length) :
    ∃ root : HTree, codeLengths h = root.depths 0 ∧ (treeLeaves root).Perm (present h) := by
  obtain ⟨root, hroot, hleaves, -⟩ := codeLengths_spec (total_ne_zero_of_present (List.ne_nil_of_length_pos hp))
  exact ⟨root, hroot, hleaves⟩

/-- Without counts there is no tree and no code length. -/
theorem codeLengths_of_total_zero {h : Vector (BitVec 32) 259} (ht : total h = 0) : codeLengths h = [] := by
  have hp : present h = [] := by
    by_contra hne
    exact total_ne_zero_of_present hne ht
  simp [codeLengths, rootQueue, leafQueue, hp, mergeLoop]

/-- A code length of `d` needs a sum of counts of at least F(d + 2) (R224). -/
theorem fib_len_le_total (h : Vector (BitVec 32) 259) : ∀ x ∈ codeLengths h, Nat.fib (x.len + 2) ≤ total h := by
  intro x hx
  by_cases ht : total h = 0
  · simp [codeLengths_of_total_zero ht] at hx
  · obtain ⟨root, hroot, -, hfib⟩ := codeLengths_spec ht
    have hlen := (depths_le root 0 x (hroot ▸ hx)).2
    exact (Nat.fib_mono (by omega)).trans hfib

/-- The counts of symbols 0 to 45 in vector C9 of 95_test_vectors.md: each from the fourth on is the sum of all before it and 1
more, so that every merge takes the tree made so far and the next leaf. -/
def deepestCounts : List (BitVec 32) :=
  [1, 1, 1, 3, 4, 7, 11, 18, 29, 47, 76, 123, 199, 322, 521, 843, 1364, 2207, 3571, 5778, 9349, 15127, 24476, 39603, 64079,
   103682, 167761, 271443, 439204, 710647, 1149851, 1860498, 3010349, 4870847, 7881196, 12752043, 20633239, 33385282, 54018521,
   87403803, 141422324, 228826127, 370248451, 599074578, 969323029, 1568397607]

/-- The histogram of vector C9. -/
def deepestHist : Vector (BitVec 32) 259 := ⟨(deepestCounts ++ List.replicate 213 0).toArray, by
  rw [List.size_toArray, List.length_append, List.length_replicate]; rfl⟩

theorem total_deepestHist : total deepestHist = 4106118242 := by decide +kernel

theorem deepest_leaf_at_45 : (⟨45, 0⟩ : SymLen) ∈ codeLengths deepestHist := by decide +kernel

end Sys2Proof.Machine
end

section
/-! SUPPORT. Code tables (10_state.md R37, R38; 43_coder.md R227 to R229): the Kraft sum of a table, the codes of a valid table
symbol by symbol, and the lengths and the order of the table BUILD commits. -/

namespace Sys2Proof.Machine

/-! ### The Kraft sum (R229) -/

/-- The Kraft sum of the length counts is that of the lengths by position, when no count stands above `T.MAXLEN`. -/
theorem CodeTable.kraft_eq_weights {t : CodeTable} (hm : t.maxlen.toNat ≤ 50)
    (hz : ∀ l, t.maxlen.toNat < l → t.lcntAt l = 0) : t.kraft = weights t.lengths := by
  rw [CodeTable.lengths, weights_lengthsUpTo, CodeTable.kraft]
  exact sum_range_eq_of_zero_above hm fun j hj => by rw [hz _ (Nat.lt_succ_of_le hj), Nat.zero_mul]

/-! ### The codes of a valid table (R38, R229) -/

/-- Every code that is assigned fits its length: that is the check of R228. -/
theorem assignCodes_fits {l : List (BitVec 9 × Nat)} : ∀ {prev : Option (Nat × Nat)} {es : List CodeEntry},
    assignCodes prev l = some es → ∀ e ∈ es, e.code < 2 ^ e.len := by
  induction l with
  | nil =>
    intro prev es h e he
    cases h
    cases he
  | cons a l ih =>
    intro prev es h e he
    obtain ⟨x, n⟩ := a
    rw [assignCodes] at h
    split at h
    · cases h
    · next hfit =>
      obtain ⟨es', hes', rfl⟩ := Option.map_eq_some_iff.mp h
      rcases List.mem_cons.mp he with rfl | he
      · exact Nat.lt_of_not_le hfit
      · exact ih hes' e he

/-- Two codes take intervals of the unit interval that do not meet. -/
def CodesApart (a b : CodeEntry) : Prop := codeStop a ≤ codeStart b ∨ codeStop b ≤ codeStart a

/-- A code whose bits begin another code's bits has an interval in which the other's begins (first bit first). -/
theorem codeStart_of_prefix {a b : CodeEntry} (hb50 : b.len ≤ 50) (ha : a.code < 2 ^ a.len) (hb : b.code < 2 ^ b.len)
    (hp : msbSeq a.code a.len <+: msbSeq b.code b.len) : codeStart a ≤ codeStart b ∧ codeStart b < codeStop a := by
  obtain ⟨hle, hdiv⟩ := msbSeq_prefix hp ha hb
  have hscale : 2 ^ (50 - a.len) = 2 ^ (b.len - a.len) * 2 ^ (50 - b.len) := by rw [← Nat.pow_add]; congr 1; omega
  have hpos : 0 < 2 ^ (b.len - a.len) := Nat.two_pow_pos _
  have hlow : a.code * 2 ^ (b.len - a.len) ≤ b.code := hdiv ▸ Nat.div_mul_le_self _ _
  have hhigh : b.code < (a.code + 1) * 2 ^ (b.len - a.len) := by
    rw [← hdiv, ← Nat.div_lt_iff_lt_mul hpos]
    exact Nat.lt_succ_self _
  rw [codeStart, codeStart, codeStop, hscale, ← Nat.mul_assoc, ← Nat.mul_assoc]
  exact ⟨Nat.mul_le_mul_right _ hlow, Nat.mul_lt_mul_of_pos_right hhigh (Nat.two_pow_pos _)⟩

theorem CodesApart.not_prefix {a b : CodeEntry} (h : CodesApart a b) (hb50 : b.len ≤ 50) (ha : a.code < 2 ^ a.len)
    (hb : b.code < 2 ^ b.len) : ¬ msbSeq a.code a.len <+: msbSeq b.code b.len := by
  intro hp
  obtain ⟨hstart, hstop⟩ := codeStart_of_prefix hb50 ha hb hp
  have hwidth : codeStart b < codeStop b := Nat.mul_lt_mul_of_pos_right (Nat.lt_succ_self _) (Nat.two_pow_pos _)
  rcases h with h | h <;> omega

section
variable {t : CodeTable} (hv : t.Valid)
include hv

theorem CodeTable.Valid.length_symbols : t.symbols.length = t.k.toNat := by
  have hk := hv.k_range.2
  rw [CodeTable.symbols, List.length_take, Vector.length_toList]
  omega

/-- An entry of a valid table is the entry of its symbol. -/
theorem CodeTable.Valid.entryOf_eq {e : CodeEntry} (he : e ∈ t.entries) : t.entryOf e.sym = e := by
  rw [CodeTable.entryOf, find_entry (hv.map_sym_entries ▸ hv.distinct) he, Option.getD_some]

/-- A present symbol has an entry. -/
theorem CodeTable.Valid.entryOf_mem {x : BitVec 9} (hx : x ∈ t.symbols) :
    t.entryOf x ∈ t.entries ∧ (t.entryOf x).sym = x := by
  rw [← hv.map_sym_entries] at hx
  obtain ⟨e, he, rfl⟩ := List.mem_map.mp hx
  rw [hv.entryOf_eq he]
  exact ⟨he, rfl⟩

/-- The symbols of a valid table of several symbols have their lengths by position. -/
theorem CodeTable.Valid.map_len_entries (hk : t.k ≠ 1) : t.entries.map CodeEntry.len = t.lengths := by
  obtain ⟨⟨-, hm⟩, -⟩ := hv.several (hv.two_le_k hk)
  have hl : t.lengths.length ≤ 259 := (hv.length_lengths hk).trans_le hv.k_range.2
  obtain ⟨hmap, -⟩ := (CodeTable.canon_spec hk hl hm).2 _ hv.canon_eq
  rw [← zip_snd hl, ← hmap, List.map_map]
  rfl

theorem CodeTable.Valid.map_len_symbols : t.symbols.map t.len = t.entries.map CodeEntry.len := by
  rw [← hv.map_sym_entries, List.map_map]
  exact List.map_congr_left fun e he => congrArg CodeEntry.len (hv.entryOf_eq he)

/-- Every code of a valid table fits its length, which is at most 50. -/
theorem CodeTable.Valid.entry_fits {e : CodeEntry} (he : e ∈ t.entries) : e.len ≤ 50 ∧ e.code < 2 ^ e.len := by
  by_cases hk : t.k = 1
  · rw [CodeTable.entries_of_single hk, List.mem_singleton] at he
    rw [he]
    exact ⟨Nat.zero_le 50, Nat.one_pos⟩
  · obtain ⟨⟨-, hm⟩, -⟩ := hv.several (hv.two_le_k hk)
    have hlen : e.len ∈ t.lengths := hv.map_len_entries hk ▸ List.mem_map_of_mem he
    have hcanon := hv.canon_eq
    rw [CodeTable.canon, if_neg hk] at hcanon
    exact ⟨((lengthsUpTo_sorted t.lcntAt _).2 _ hlen).2.trans hm, assignCodes_fits hcanon e he⟩

theorem CodeTable.Valid.code_fits {x : BitVec 9} (hx : x ∈ t.symbols) : t.len x ≤ 50 ∧ t.code x < 2 ^ t.len x :=
  hv.entry_fits (hv.entryOf_mem hx).1

/-- The codes of a valid table take separate intervals. -/
theorem CodeTable.Valid.entries_apart : t.entries.Pairwise CodesApart := by
  by_cases hk : t.k = 1
  · rw [CodeTable.entries_of_single hk]
    exact List.pairwise_singleton _ _
  · obtain ⟨⟨-, hm⟩, -⟩ := hv.several (hv.two_le_k hk)
    have hl : t.lengths.length ≤ 259 := (hv.length_lengths hk).trans_le hv.k_range.2
    obtain ⟨-, hpair⟩ := (CodeTable.canon_spec hk hl hm).2 _ hv.canon_eq
    exact hpair.imp Or.inl

/-- The codes of different symbols of a valid table take separate intervals. -/
theorem CodeTable.Valid.codes_apart {x y : BitVec 9} (hx : x ∈ t.symbols) (hy : y ∈ t.symbols) (hxy : x ≠ y) :
    CodesApart (t.entryOf x) (t.entryOf y) := by
  obtain ⟨hex, hsx⟩ := hv.entryOf_mem hx
  obtain ⟨hey, hsy⟩ := hv.entryOf_mem hy
  have : Std.Symm CodesApart := ⟨fun _ _ => Or.symm⟩
  exact hv.entries_apart.forall hex hey fun h => hxy (by rw [← hsx, ← hsy, h])

end

/-! ### The table of a canonical order (R226, R227) -/

theorem tableOf_symbols {ord : List SymLen} (hk : ord.length ≤ 259) :
    (tableOf ord).symbols = ord.map fun x => BitVec.ofNat 9 x.sym := by
  rw [tableOf_eq_headerTable, headerTable_symbols _ _ (by simpa using hk), List.map_map]
  rfl

/-- The lengths by position are those of the symbols in canonical order: both ascend. -/
theorem tableOf_lengths {ord : List SymLen} (hk : ord.length ≤ 259) (h1 : ∀ x ∈ ord, 1 ≤ x.len)
    (hm : maxLength ord ≤ 50) (hs : CanonicallySorted ord) : (tableOf ord).lengths = ord.map SymLen.len := by
  have hsorted : (ord.map SymLen.len).Pairwise (· ≤ ·) := by
    refine List.pairwise_map.mpr (hs.imp fun {a b} hab => ?_)
    have := (SymLen_le_iff a b).mp hab
    omega
  exact (tableOf_lengths_perm hk h1 hm).eq_of_pairwise' (lengthsUpTo_sorted _ _).1 hsorted

section
variable {h : Vector (BitVec 32) 259} {ord : List SymLen} (ho : BuiltOrder h ord)
include ho

theorem BuiltOrder.length_le : ord.length ≤ 259 := ho.length ▸ length_present_le h

theorem BuiltOrder.sym_le {x : SymLen} (hx : x ∈ ord) : x.sym ≤ 258 :=
  (mem_present.mp (ho.syms.mem_iff.mp (List.mem_map_of_mem hx))).1

theorem BuiltOrder.mem_symbols {x : BitVec 9} : x ∈ (tableOf ord).symbols ↔ countOf h x.toNat ≠ 0 := by
  have hpresent : x ∈ (tableOf ord).symbols ↔ x.toNat ∈ ord.map SymLen.sym := by
    simp only [tableOf_symbols ho.length_le, List.mem_map]
    refine exists_congr fun y => and_congr_right fun hy => ?_
    have := ho.sym_le hy
    bv_omega
  rw [hpresent, ho.syms.mem_iff, mem_present, and_iff_right_iff_imp]
  intro hx
  by_contra hlt
  exact hx (countOf_of_le (by omega))

/-- The table gives every symbol of the order its length there. -/
theorem BuiltOrder.len_eq (hs : CanonicallySorted ord) (hv : (tableOf ord).Valid) :
    ∀ x ∈ ord, (tableOf ord).len (BitVec.ofNat 9 x.sym) = x.len := by
  have hk := ho.length_le
  have hlens : (tableOf ord).entries.map CodeEntry.len = ord.map SymLen.len := by
    by_cases hk1 : (tableOf ord).k = 1
    · have h1 : ord.length = 1 := by
        have := hv.length_symbols
        rw [tableOf_symbols hk, List.length_map, hk1] at this
        exact this
      have hz := ho.single h1
      obtain ⟨x, rfl⟩ := List.length_eq_one_iff.mp h1
      have hx : x.len = 0 := Nat.le_zero.mp (hz ▸ (maxLength_spec [x]).1 x (List.mem_singleton_self x))
      rw [CodeTable.entries_of_single hk1, List.map_singleton, List.map_singleton, hx]
    · have h2 := hv.two_le_k hk1
      rw [← hv.length_symbols, tableOf_symbols hk, List.length_map] at h2
      rw [hv.map_len_entries hk1, tableOf_lengths hk (ho.several h2) (ho.max_le.trans (by decide)) hs]
  rw [← hv.map_len_symbols, tableOf_symbols hk, List.map_map] at hlens
  exact List.map_inj_left.mp hlens

/-- The present symbols stand in the order of (length, symbol id), strictly (R226). -/
theorem BuiltOrder.symbols_sorted (hs : CanonicallySorted ord) (hv : (tableOf ord).Valid) :
    (tableOf ord).symbols.Pairwise fun x y => (tableOf ord).len x < (tableOf ord).len y
      ∨ ((tableOf ord).len x = (tableOf ord).len y ∧ x.toNat < y.toNat) := by
  have hdistinct : ord.Pairwise fun a b => a.sym ≠ b.sym :=
    List.pairwise_map.mp (ho.syms.nodup_iff.mpr (present_nodup h))
  rw [tableOf_symbols ho.length_le, List.pairwise_map]
  refine (List.Pairwise.and hs hdistinct).imp_of_mem fun {a b} ha hb hab => ?_
  obtain ⟨hle, hne⟩ := hab
  have ha258 := ho.sym_le ha
  have hb258 := ho.sym_le hb
  rw [SymLen_le_iff] at hle
  rw [ho.len_eq hs hv a ha, ho.len_eq hs hv b hb, BitVec.toNat_ofNat, BitVec.toNat_ofNat]
  omega

/-- A length count of the table counts the symbols of that length (R227). -/
theorem BuiltOrder.lcntAt_eq (hs : CanonicallySorted ord) (hv : (tableOf ord).Valid) {l : Nat} (h1 : 1 ≤ l) (h50 : l ≤ 50) :
    (tableOf ord).lcntAt l = ((tableOf ord).symbols.filter fun x => (tableOf ord).len x = l).length := by
  rw [tableOf_lcntAt ho.length_le h1 h50, lengthCount, tableOf_symbols ho.length_le, List.filter_map, List.length_map]
  congr 1
  refine List.filter_congr fun x hx => ?_
  simp [ho.len_eq hs hv x hx, beq_eq_decide]

/-- `T.MAXLEN` is the largest length (R227). -/
theorem BuiltOrder.maxlen_spec (hne : ord ≠ []) (hs : CanonicallySorted ord) (hv : (tableOf ord).Valid) :
    (∀ x ∈ (tableOf ord).symbols, (tableOf ord).len x ≤ (tableOf ord).maxlen.toNat)
      ∧ ∃ x ∈ (tableOf ord).symbols, (tableOf ord).len x = (tableOf ord).maxlen.toNat := by
  obtain ⟨hle, hex⟩ := maxLength_spec ord
  have hlen := ho.len_eq hs hv
  rw [tableOf_maxlen (ho.max_le.trans (by decide)), tableOf_symbols ho.length_le, List.forall_mem_map]
  refine ⟨fun x hx => (hlen x hx).trans_le (hle x hx), ?_⟩
  obtain ⟨x, hx, hmax⟩ := hex hne
  exact ⟨_, List.mem_map_of_mem hx, (hlen x hx).trans hmax⟩

/-- The code of several symbols is complete (R229). -/
theorem BuiltOrder.kraft_eq (h2 : 2 ≤ ord.length) (hv : (tableOf ord).Valid) : (tableOf ord).kraft = 2 ^ 50 := by
  have hk : 2 ≤ (tableOf ord).k.toNat := by
    rw [← hv.length_symbols, tableOf_symbols ho.length_le, List.length_map]
    exact h2
  obtain ⟨⟨-, hm⟩, -, hz, -⟩ := hv.several hk
  have hperm := tableOf_lengths_perm ho.length_le (ho.several h2) (ho.max_le.trans (by decide))
  calc (tableOf ord).kraft = weights (tableOf ord).lengths := CodeTable.kraft_eq_weights hm hz
    _ = weights (ord.map SymLen.len) := (hperm.map _).sum_eq
    _ = 2 ^ 50 := ho.kraft

end

end Sys2Proof.Machine
end

section
/-! SUPPORT. The histogram and query commands (43_coder.md R210 to R216): what a seeded histogram counts, what a query answers,
and what a command that writes one register leaves alone. -/

namespace Sys2Proof.Machine

/-- A running block runs the body of a command whose symbol is in range (30_encoding.md R112). -/
theorem command_withSymbol {s : State} {x : BitVec 9} (hs : s.errf = false) (hx : x.toNat ≤ 258)
    (body : BitVec 9 → State → Ran Unit) : (command s fun s => withSymbol x s body) = (body x s).outcome := by
  have hsym : symbolInRange x = true := decide_eq_true hx
  rw [command_running hs, withSymbol, hsym, require_true]

/-! ### Frames -/

section
variable (s : State)

theorem State.setHist_frame (h : Vector (BitVec 32) 259) : KeepsTable s (s.setHist h) ∧ KeepsReader s (s.setHist h)
    ∧ KeepsWriter s (s.setHist h) ∧ KeepsRes s (s.setHist h) ∧ KeepsLast s (s.setHist h) ∧ KeepsErr s (s.setHist h)
    ∧ KeepsHostSide s (s.setHist h) :=
  ⟨⟨rfl, rfl⟩, ⟨rfl, rfl, rfl⟩, ⟨rfl, rfl⟩, rfl, ⟨rfl, rfl⟩, ⟨rfl, rfl⟩, ⟨rfl, rfl, rfl, rfl⟩⟩

theorem State.setRes_frame (v : BitVec 64) : KeepsHist s (s.setRes v) ∧ KeepsTable s (s.setRes v)
    ∧ KeepsReader s (s.setRes v) ∧ KeepsWriter s (s.setRes v) ∧ KeepsLast s (s.setRes v) ∧ KeepsErr s (s.setRes v)
    ∧ KeepsHostSide s (s.setRes v) :=
  ⟨rfl, ⟨rfl, rfl⟩, ⟨rfl, rfl, rfl⟩, ⟨rfl, rfl⟩, ⟨rfl, rfl⟩, ⟨rfl, rfl⟩, ⟨rfl, rfl, rfl, rfl⟩⟩

theorem State.setTable_frame (t : CodeTable) : KeepsHist s (s.setTable t) ∧ KeepsReader s (s.setTable t)
    ∧ KeepsWriter s (s.setTable t) ∧ KeepsRes s (s.setTable t) ∧ KeepsLast s (s.setTable t) ∧ KeepsErr s (s.setTable t)
    ∧ KeepsHostSide s (s.setTable t) :=
  ⟨rfl, ⟨rfl, rfl, rfl⟩, ⟨rfl, rfl⟩, rfl, ⟨rfl, rfl⟩, ⟨rfl, rfl⟩, ⟨rfl, rfl, rfl, rfl⟩⟩

end

/-! ### Counts -/

/-- HADD's write, count by count: with the sum below 2^32 − 1 the count it adds to does not overflow (R211). -/
theorem countOf_add_one {h : Vector (BitVec 32) 259} {x : Nat} (hx : x < 259) (ht : total h < 4294967295) (y : Nat) :
    countOf (setCount h x (BitVec.ofNat 32 (countOf h x + 1))) y = if y = x then countOf h y + 1 else countOf h y := by
  split
  · next hyx =>
    have hle := countOf_le_total h x
    rw [hyx, countOf_setCount_self hx, BitVec.toNat_ofNat, Nat.mod_eq_of_lt (by omega)]
  · next hyx => exact countOf_setCount_ne (Ne.symm hyx) _

/-- Seeding a list of symbols raises those with a zero count to 1 (R212). -/
theorem countOf_foldl_seedOne {l : List Nat} (hl : ∀ x ∈ l, x < 259) (h : Vector (BitVec 32) 259) (y : Nat) :
    countOf (l.foldl seedOne h) y = if y ∈ l ∧ countOf h y = 0 then 1 else countOf h y := by
  induction l generalizing h with
  | nil => simp
  | cons x l ih =>
    rw [List.foldl_cons, ih fun z hz => hl z (List.mem_cons_of_mem x hz)]
    by_cases hyx : y = x
    · subst hyx
      rw [countOf_seedOne_self (hl y List.mem_cons_self)]
      by_cases hz : countOf h y = 0 <;> simp [hz]
    · simp [countOf_seedOne_ne (Ne.symm hyx), hyx]

/-- HSEED's writes, count by count (R212). -/
theorem countOf_hseed (h : Vector (BitVec 32) 259) (y : Nat) : countOf (controlSymbols.foldl seedOne h) y
    = if y ∈ [256, 257, 258] ∧ countOf h y = 0 then 1 else countOf h y := by
  have hcontrol : controlSymbols = [256, 257, 258] := rfl
  rw [hcontrol]
  exact countOf_foldl_seedOne (by decide) h y

/-- HSEED counts the zero control counts as the statement does. -/
theorem seedsNeeded_eq (h : Vector (BitVec 32) 259) :
    seedsNeeded h = ([256, 257, 258].filter fun c => countOf h c = 0).length := by
  simp only [seedsNeeded, beq_eq_decide]
  rfl

/-! ### Queries -/

theorem CodeTable.isPresent_iff {t : CodeTable} {x : BitVec 9} : t.isPresent x = true ↔ x ∈ t.symbols :=
  List.contains_iff_mem

section
variable {s : State} {x : BitVec 9} (v : BitVec 64)

/-- A query of a present symbol answers its value. -/
theorem query_present (htv : s.tv = true) (hx : x ∈ s.t.symbols) :
    (if s.tv && s.t.isPresent x then v else absentMark) = v := by
  rw [htv, CodeTable.isPresent_iff.mpr hx, Bool.and_self, if_pos rfl]

/-- A query without a table or of an absent symbol answers all ones. -/
theorem query_absent (h : s.tv = false ∨ x ∉ s.t.symbols) :
    (if s.tv && s.t.isPresent x then v else absentMark) = 0xFFFFFFFFFFFFFFFF := by
  have hcond : (s.tv && s.t.isPresent x) = false := by
    rcases h with htv | hx
    · rw [htv, Bool.false_and]
    · rw [Bool.eq_false_iff.mpr (mt CodeTable.isPresent_iff.mp hx), Bool.and_false]
  rw [hcond]
  rfl

end

end Sys2Proof.Machine
end

section
/-! The statements about the histogram and the code table (43_coder.md). -/

namespace Sys2Proof.Machine

/-! ### The histogram commands -/

/-- Settles O29: HCLR writes the histogram of zero counts. -/
theorem hclrClearsEveryCount : Obligations.HclrClearsEveryCount := by
  unfold Obligations.HclrClearsEveryCount
  intro s hs
  have hexec : exec .hclr s = .next (s.setHist (Vector.replicate 259 0)) := by
    rw [exec, execHclr, command_running hs, Ran.outcome_done]
  exact ⟨_, hexec, countOf_replicate_zero, total_replicate_zero, s.setHist_frame _⟩

/-- Settles O30: HADD's check is whether the sum has room for one more. -/
theorem haddCountsOneOccurrence : Obligations.HaddCountsOneOccurrence := by
  unfold Obligations.HaddCountsOneOccurrence
  intro s x hs hx
  refine ⟨fun hroom => ?_, fun hfull => ?_⟩
  · have hexec : exec (.hadd x) s
        = .next (s.setHist (setCount s.hist x.toNat (BitVec.ofNat 32 (countOf s.hist x.toNat + 1)))) := by
      rw [exec, execHadd, command_withSymbol hs hx, decide_eq_true hroom, require_true, Ran.outcome_done]
    have hlt : x.toNat < 259 := by omega
    exact ⟨_, hexec, countOf_add_one hlt hroom, total_add_one hlt hroom, s.setHist_frame _⟩
  · have hexec : exec (.hadd x) s = .next (enterHalt .countOverflow s) := by
      rw [exec, execHadd, command_withSymbol hs hx, decide_eq_false hfull.not_lt, require_false, Ran.outcome_raised]
    exact ⟨_, hexec, (Quiet.refl s).halts .countOverflow, rfl⟩

/-- Settles O31: HSEED's check is whether the sum has room for the zero control counts. -/
theorem hseedForcesControlCounts : Obligations.HseedForcesControlCounts := by
  unfold Obligations.HseedForcesControlCounts
  intro s hs
  rw [← seedsNeeded_eq]
  refine ⟨fun hroom => ?_, fun hfull => ?_⟩
  · have hexec : exec .hseed s = .next (s.setHist (controlSymbols.foldl seedOne s.hist)) := by
      rw [exec, execHseed, command_running hs, decide_eq_true hroom, require_true, Ran.outcome_done]
    refine ⟨_, hexec, ?_, ?_, s.setHist_frame _⟩
    · rw [State.setHist_hist]
      exact countOf_hseed s.hist
    · rw [State.setHist_hist]
      exact total_hseed s.hist
  · have hexec : exec .hseed s = .next (enterHalt .countOverflow s) := by
      rw [exec, execHseed, command_running hs, decide_eq_false hfull.not_ge, require_false, Ran.outcome_raised]
    exact ⟨_, hexec, (Quiet.refl s).halts .countOverflow, rfl⟩

/-- Settles O32: a 32-bit count fits `RES`. -/
theorem qhistReturnsTheCount : Obligations.QhistReturnsTheCount := by
  unfold Obligations.QhistReturnsTheCount
  intro s x hs hx
  have hexec : exec (.qhist x) s = .next (s.setRes (BitVec.ofNat 64 (countOf s.hist x.toNat))) := by
    rw [exec, execQhist, command_withSymbol hs hx, Ran.outcome_done]
  have hcount : countOf s.hist x.toNat < 2 ^ 64 := (BitVec.isLt _).trans (by decide)
  exact ⟨_, hexec, by rw [State.setRes_res, BitVec.toNat_ofNat, Nat.mod_eq_of_lt hcount], s.setRes_frame _⟩

/-! ### The queries -/

/-- Settles O33: lengths of at most 50 and codes below 2^50 fit `RES`. -/
theorem queriesReturnLengthAndCode : Obligations.QueriesReturnLengthAndCode := by
  unfold Obligations.QueriesReturnLengthAndCode
  intro s x hs hx
  have hlen : exec (.qlen x) s
      = .next (s.setRes (if s.tv && s.t.isPresent x then BitVec.ofNat 64 (s.t.len x) else absentMark)) := by
    rw [exec, execQlen, command_withSymbol hs hx, Ran.outcome_done]
  have hcode : exec (.qcode x) s
      = .next (s.setRes (if s.tv && s.t.isPresent x then BitVec.ofNat 64 (s.t.code x) else absentMark)) := by
    rw [exec, execQcode, command_withSymbol hs hx, Ran.outcome_done]
  refine ⟨⟨_, hlen, fun htv hv hmem => ?_, query_absent _, s.setRes_frame _⟩,
    ⟨_, hcode, fun htv hv hmem => ?_, query_absent _, s.setRes_frame _⟩⟩
  · obtain ⟨hle, -⟩ := hv.code_fits hmem
    rw [State.setRes_res, query_present _ htv hmem, BitVec.toNat_ofNat, Nat.mod_eq_of_lt (by omega)]
  · obtain ⟨hle, hlt⟩ := hv.code_fits hmem
    have h64 : s.t.code x < 2 ^ 64 := hlt.trans_le (Nat.pow_le_pow_right (by decide) (by omega))
    rw [State.setRes_res, query_present _ htv hmem, BitVec.toNat_ofNat, Nat.mod_eq_of_lt h64]

/-! ### BUILD -/

/-- Settles O34: BUILD commits the table of the present symbols in canonical order. -/
theorem buildCommitsTheCanonicalTable : Obligations.BuildCommitsTheCanonicalTable := by
  unfold Obligations.BuildCommitsTheCanonicalTable
  intro s hs hne hle
  have hexec : exec .build s = .next (s.setTable (buildTable s.hist)) := by
    rw [exec, execBuild, command_running hs, decide_eq_true hne, require_true, Ran.outcome_done]
  have hv := buildTable_valid hne hle
  have ho := canonicalOrder_built hne hle
  obtain ⟨hperm, hsorted⟩ := canonicalOrder_spec (codeLengths s.hist)
  have hnil : canonicalOrder (codeLengths s.hist) ≠ [] := fun h0 => present_ne_nil hne (by simpa [h0] using ho.syms)
  obtain ⟨hmax, hlongest⟩ := ho.maxlen_spec hnil hsorted hv
  exact ⟨_, hexec, rfl, fun x => ho.mem_symbols, hv, hv.length_symbols,
    fun x hx => ho.len_eq hsorted hv x (hperm.mem_iff.mpr hx), ho.symbols_sorted hsorted hv, hv.order_zero,
    fun l h1 h50 => ho.lcntAt_eq hsorted hv h1 h50, hmax, hlongest, s.setTable_frame _⟩

/-- Settles O35: a sum of 0 is BUILD's check. -/
theorem buildOfNothingRaisesEmptyHist : Obligations.BuildOfNothingRaisesEmptyHist := by
  unfold Obligations.BuildOfNothingRaisesEmptyHist
  intro s hs hz
  have hexec : exec .build s = .next (enterHalt .emptyHist s) := by
    rw [exec, execBuild, command_running hs, decide_eq_false (not_not.mpr ((total_eq_zero_iff s.hist).mpr hz)),
      require_false, Ran.outcome_raised]
  exact ⟨_, hexec, (Quiet.refl s).halts .emptyHist, rfl⟩

/-! ### The tree -/

/-- Settles O36: the queue BUILD keeps in order makes a run of the loop on the leaves in any arrangement. -/
theorem codeLengthsComeFromTheTreeLoop : Obligations.CodeLengthsComeFromTheTreeLoop := by
  unfold Obligations.CodeLengthsComeFromTheTreeLoop
  intro h ht
  obtain ⟨root, hroot, -⟩ := rootQueue_spec ht
  obtain ⟨hperm, hsorted⟩ := leafQueue_perm h
  exact ⟨root, mergeLoop_treeRun _ 0 _ _ root hsorted hperm.symm hroot, by simp [codeLengths, hroot]⟩

/-- Settles O37: one leaf is the root, two leaves or more stand below it, and a tree of height 1 has at most two. -/
theorem lengthsOfSmallAlphabets : Obligations.LengthsOfSmallAlphabets := by
  unfold Obligations.LengthsOfSmallAlphabets
  intro h
  refine ⟨fun h1 => ?_, fun h2 => ?_, fun h3 => ?_⟩
  · obtain ⟨root, hroot, hleaves⟩ := codeLengths_of_present h1.ge
    obtain ⟨x, hx⟩ := List.length_eq_one_iff.mp h1
    rw [hx, List.perm_singleton] at hleaves
    rw [hroot, eq_leaf_of_treeLeaves hleaves, hx]
    rfl
  · obtain ⟨root, hroot, hleaves⟩ := codeLengths_of_present (h := h) (by omega)
    rw [hroot]
    exact one_le_len_of_two_leaves (by rw [length_depths, hleaves.length_eq]; exact h2)
  · obtain ⟨root, hroot, hleaves⟩ := codeLengths_of_present (h := h) (by omega)
    obtain ⟨x, hx, hlen⟩ := exists_deepest_leaf root 0
    refine ⟨x, hroot ▸ hx, ?_⟩
    by_contra hlt
    have hcount := (length_treeLeaves_le root).trans (Nat.pow_le_pow_right (by decide) (show treeHeight root ≤ 1 by omega))
    rw [hleaves.length_eq] at hcount
    omega

/-- Settles O38: a leaf is no deeper than the tree is high, and vector C9 has a leaf at depth 45. -/
theorem treeDepthIsAtMost45 : Obligations.TreeDepthIsAtMost45 := by
  unfold Obligations.TreeDepthIsAtMost45
  exact ⟨fib_len_le_total, fun h hle x hx => height_le_of_fib_le (fib_len_le_total h x hx) hle,
    deepestHist, by rw [total_deepestHist]; decide, _, deepest_leaf_at_45, rfl⟩

/-! ### The codes -/

/-- Settles O39: the committed table has the lengths of a full binary tree's leaves. -/
theorem builtCodeIsComplete : Obligations.BuiltCodeIsComplete := by
  unfold Obligations.BuiltCodeIsComplete
  intro h hle h2
  have hne : total h ≠ 0 := total_ne_zero_of_present (List.ne_nil_of_length_pos (by omega))
  have ho := canonicalOrder_built hne hle
  exact ho.kraft_eq (ho.length ▸ h2) (buildTable_valid hne hle)

/-- Settles O40: the intervals the codes take end past 1 exactly when the Kraft sum exceeds 1. -/
theorem canonFailsIffKraftExceedsOne : Obligations.CanonFailsIffKraftExceedsOne := by
  unfold Obligations.CanonFailsIffKraftExceedsOne
  intro t h2 h259 hm hz hsum
  have hk : t.k ≠ 1 := by
    intro h1
    rw [h1] at h2
    exact absurd h2 (by decide)
  have hl : t.lengths.length ≤ 259 := by rw [CodeTable.length_lengths hm hz, hsum]; exact h259
  rw [CodeTable.kraft_eq_weights hm hz]
  exact (CodeTable.canon_spec hk hl hm).1

/-- Settles O41: the codes of different symbols take separate intervals, so neither begins the other. -/
theorem validTableIsPrefixFree : Obligations.ValidTableIsPrefixFree := by
  unfold Obligations.ValidTableIsPrefixFree
  intro t hv
  refine ⟨fun x hx => hv.code_fits hx, fun x hx y hy hxy => ?_⟩
  obtain ⟨-, hfitx⟩ := hv.code_fits hx
  obtain ⟨hy50, hfity⟩ := hv.code_fits hy
  exact (hv.codes_apart hx hy hxy).not_prefix hy50 hfitx hfity

end Sys2Proof.Machine
end

section
/-! SUPPORT. The encoder commands (44_encoder.md): what EHDR and ENC do in a running block with a table, how long a header is,
and the host's programs that count symbols and emit their codes (30_encoding.md R120, 44_encoder.md R253). -/

namespace Sys2Proof.Machine

/-! ### EHDR and ENC (R250, R251) -/

section
variable {s : State} {x : BitVec 9} (hs : s.errf = false) (htv : s.tv = true)
include hs htv

theorem exec_ehdr : exec .ehdr s = .next (pushFields s.t.headerFields s) := by
  rw [exec, execEhdr, command_running hs, htv, require_true, Ran.outcome_done]

theorem exec_enc_present (hx : x.toNat ≤ 258) (hmem : x ∈ s.t.symbols) :
    exec (.enc x) s = .next (pushFlush (s.t.codeBits x) s) := by
  rw [exec, execEnc, command_withSymbol hs hx, htv, require_true, CodeTable.isPresent_iff.mpr hmem, require_true,
    Ran.outcome_done]

theorem exec_enc_absent (hx : x.toNat ≤ 258) (hmem : x ∉ s.t.symbols) :
    exec (.enc x) s = .next (enterHalt .symbolAbsent s) := by
  rw [exec, execEnc, command_withSymbol hs hx, htv, require_true,
    Bool.eq_false_iff.mpr (mt CodeTable.isPresent_iff.mp hmem), require_false, Ran.outcome_raised]

end

/-- A header has one 9-bit field for `T.K`, for each symbol and for each length up to `T.MAXLEN` (30_encoding.md R140). -/
theorem CodeTable.Valid.length_header {t : CodeTable} (hv : t.Valid) :
    t.header.length = 9 * (1 + t.k.toNat + t.maxlen.toNat) := by
  have hfields : t.headerFields.length = 1 + t.k.toNat + t.maxlen.toNat := by
    simp [CodeTable.headerFields, hv.length_symbols]
    omega
  have hbits : t.header.length = t.headerFields.length * 9 := by simp [CodeTable.header, List.length_flatMap]
  rw [hbits, hfields, Nat.mul_comm]

/-- After a push of at least one field less than a byte is pending. -/
theorem pushFields_wbuf_lt (f : Nat) (fs : List Nat) (s : State) : (pushFields (f :: fs) s).wbuf.length < 8 := by
  induction fs generalizing f s with
  | nil => exact pushFlush_wbuf_lt _ s
  | cons g fs ih => exact ih g (pushFlush (lsbSeq f Config.SYM_W) s)

/-- Whole bytes go out, so the bits appended say how many are left pending when less than a byte is (20_memory.md R98). -/
theorem wbuf_length_of_output {s u : State} {q : Bits} (ho : u.output = s.output ++ q) (hlt : u.wbuf.length < 8) :
    u.wbuf.length = (s.wbuf.length + q.length) % 8 := by
  have hlen := congrArg List.length ho
  rw [List.length_append, length_output, length_output] at hlen
  omega

/-! ### Programs that complete -/

/-- The program completes in `u`, which is not halted. -/
structure Completes (is : List Instr) (s u : State) : Prop where
  run : runProgram is s = some u
  running : u.errf = false

theorem Completes.nil {s : State} (hs : s.errf = false) : Completes [] s s := ⟨rfl, hs⟩

theorem Completes.cons {i : Instr} {is : List Instr} {s t u : State} (hi : exec i s = .next t) (ht : t.errf = false)
    (h : Completes is t u) : Completes (i :: is) s u := by
  have hone : runCommand i s = some t := by simp [runCommand, hi, ht]
  exact ⟨by rw [runProgram, hone, Option.bind_some, h.run], h.running⟩

theorem Completes.single {i : Instr} {s t : State} (hi : exec i s = .next t) (ht : t.errf = false) : Completes [i] s t :=
  .cons hi ht (.nil ht)

theorem runProgram_append (is js : List Instr) (s : State) :
    runProgram (is ++ js) s = (runProgram is s).bind (runProgram js) := by
  induction is generalizing s with
  | nil => rfl
  | cons i is ih =>
    rw [List.cons_append, runProgram, runProgram, Option.bind_assoc]
    exact congrArg _ (funext ih)

theorem Completes.append {is js : List Instr} {s t u : State} (h1 : Completes is s t) (h2 : Completes js t u) :
    Completes (is ++ js) s u :=
  ⟨by rw [runProgram_append, h1.run, Option.bind_some, h2.run], h2.running⟩

/-! ### What the next command of a program needs of a frame -/

section
variable {s t : State}

theorem KeepsWriter.output_eq (h : KeepsWriter s t) : t.output = s.output := by
  rw [State.output, State.output, h.1, h.2]

theorem KeepsErr.running (h : KeepsErr s t) (hs : s.errf = false) : t.errf = false := h.2.trans hs

end

/-! ### Counting (43_coder.md R210 to R212) -/

theorem literal_toNat (b : Byte) : (literal b).toNat = b.toNat := by
  rw [literal, BitVec.toNat_setWidth, Nat.mod_eq_of_lt (b.isLt.trans (by decide))]

/-- `HADDS` counts every byte of its string, and completes when the sum has room for them. -/
theorem hadds_completes (str : List Byte) (s : State) (hs : s.errf = false) (hroom : total s.hist + str.length ≤ 4294967295) :
    ∃ u, Completes (hadds str) s u ∧ u.output = s.output ∧ total u.hist = total s.hist + str.length
      ∧ ∀ y, countOf u.hist y = countOf s.hist y + (str.map BitVec.toNat).count y := by
  induction str generalizing s with
  | nil => exact ⟨s, .nil hs, rfl, rfl, fun y => rfl⟩
  | cons b str ih =>
    rw [List.length_cons] at hroom ⊢
    have hb : (literal b).toNat ≤ 258 := by have := b.isLt; rw [literal_toNat]; omega
    obtain ⟨t, hexec, hcount, htotal, -, -, hwriter, -, -, herr, -⟩ :=
      (haddCountsOneOccurrence s (literal b) hs hb).1 (by omega)
    have ht := herr.running hs
    obtain ⟨u, hrun, hout, htotal', hcount'⟩ := ih t ht (by omega)
    refine ⟨u, .cons hexec ht hrun, hout.trans hwriter.output_eq, by omega, fun y => ?_⟩
    rw [hcount', hcount, literal_toNat, List.map_cons, List.count_cons]
    by_cases hy : y = b.toNat
    · simp [hy]; omega
    · simp [hy, Ne.symm hy]

/-! ### Emitting (R250, R251) -/

/-- A list of present symbols is encoded to their codes, one after another. -/
theorem encs_complete (xs : List (BitVec 9)) (s : State) (hs : s.errf = false) (htv : s.tv = true) (hv : s.t.Valid)
    (hmem : ∀ x ∈ xs, x ∈ s.t.symbols) :
    ∃ u, Completes (xs.map .enc) s u ∧ WriterStep s u ∧ u.output = s.output ++ xs.flatMap s.t.codeBits := by
  induction xs generalizing s with
  | nil => exact ⟨s, .nil hs, .refl s, by simp⟩
  | cons x xs ih =>
    obtain ⟨hx, hxs⟩ := List.forall_mem_cons.mp hmem
    have hexec := exec_enc_present hs htv (hv.symbol_ids x hx) hx
    have hstep := pushFlush_writer (s.t.codeBits x) s
    have ht := hstep.keepsErr.running hs
    obtain ⟨htv', htable⟩ := hstep.keepsTable
    obtain ⟨u, hrun, hwriter, hout⟩ := ih _ ht (htv'.trans htv) (htable ▸ hv) (htable ▸ hxs)
    refine ⟨u, .cons hexec ht hrun, hstep.trans hwriter, ?_⟩
    rw [hout, pushFlush_output, htable, List.flatMap_cons, List.append_assoc]

/-! ### The parts of `ENCODE_UNIT` (R253) -/

/-- The content's terminator (30_encoding.md R142). -/
def terminator (last : Bool) : BitVec 9 := if last then Config.ARCHIVE_END else Config.ONE_MORE_FILE

/-- The symbols of one encoding unit after its header (30_encoding.md R142). -/
def unitSymbols (name data : List Byte) (term : BitVec 9) : List (BitVec 9) :=
  name.map literal ++ [Config.FILENAME_END] ++ data.map literal ++ [term]

theorem unitBits_eq (t : CodeTable) (name data : List Byte) (term : BitVec 9) :
    t.unitBits name data term = t.header ++ (unitSymbols name data term).flatMap t.codeBits := by
  have hliteral : literal = fun b : Byte => b.setWidth 9 := rfl
  simp [CodeTable.unitBits, unitSymbols, hliteral, List.flatMap_append, List.append_assoc]

/-- The symbols of a unit are control symbols and the literals of its name and content. -/
theorem mem_unitSymbols {name data : List Byte} {last : Bool} {x : BitVec 9}
    (hx : x ∈ unitSymbols name data (terminator last)) : x.toNat ∈ [256, 257, 258] ∨ ∃ b ∈ name ++ data, x = literal b := by
  have hterm : (terminator last).toNat ∈ [256, 257, 258] := by cases last <;> decide
  simp only [unitSymbols, List.mem_append, List.mem_map, List.mem_singleton] at hx
  rcases hx with ((⟨b, hb, rfl⟩ | rfl) | ⟨b, hb, rfl⟩) | rfl
  · exact .inr ⟨b, List.mem_append_left _ hb, rfl⟩
  · exact .inl (by decide)
  · exact .inr ⟨b, List.mem_append_right _ hb, rfl⟩
  · exact .inl hterm

/-- `ENCODE_UNIT` counts, builds the table and emits the unit. -/
theorem encodeUnit_eq (name data : List Byte) (last : Bool) : encodeUnit name data last
    = [.hclr] ++ hadds (name ++ data) ++ [.hseed] ++ [.build]
      ++ ([.ehdr] ++ (unitSymbols name data (terminator last)).map .enc ++ [.flb]) := by
  simp [encodeUnit, hadds, encs, unitSymbols, terminator, List.map_append, Function.comp_def]

/-- The counting part of `ENCODE_UNIT` leaves a sum within range in which every symbol of the unit is counted. -/
theorem countUnit_completes (name data : List Byte) (last : Bool) (s : State) (hs : s.errf = false)
    (hfit : name.length + data.length + 3 ≤ 4294967295) :
    ∃ u, Completes ([.hclr] ++ hadds (name ++ data) ++ [.hseed]) s u ∧ u.output = s.output ∧ total u.hist ≤ 4294967295
      ∧ ∀ x ∈ unitSymbols name data (terminator last), countOf u.hist x.toNat ≠ 0 := by
  obtain ⟨s1, hclr, hzero, htotal1, -, -, hwriter1, -, -, herr1, -⟩ := hclrClearsEveryCount s hs
  have hs1 := herr1.running hs
  obtain ⟨s2, hadd, hout2, htotal2, hcount2⟩ := hadds_completes (name ++ data) s1 hs1 (by simp; omega)
  have hseeds : ([256, 257, 258].filter fun c => countOf s2.hist c = 0).length ≤ 3 := List.length_filter_le _ _
  rw [List.length_append] at htotal2
  obtain ⟨s3, hseed, hcount3, htotal3, -, -, hwriter3, -, -, herr3, -⟩ :=
    (hseedForcesControlCounts s2 hadd.running).1 (by omega)
  have hs3 := herr3.running hadd.running
  have hseeded : ∀ y, y ∈ [256, 257, 258] ∨ countOf s2.hist y ≠ 0 → countOf s3.hist y ≠ 0 := fun y hy => by
    rw [hcount3]
    split
    · exact Nat.one_ne_zero
    · next hkept => exact hy.elim (fun hcontrol hz => hkept ⟨hcontrol, hz⟩) id
  refine ⟨s3, ((Completes.single hclr hs1).append hadd).append (.single hseed hs3), ?_, by omega, fun x hx => ?_⟩
  · rw [hwriter3.output_eq, hout2, hwriter1.output_eq]
  · refine hseeded _ ((mem_unitSymbols hx).imp_right ?_)
    rintro ⟨b, hb, rfl⟩
    have hpos := List.count_pos_iff.mpr (List.mem_map_of_mem (f := BitVec.toNat) hb)
    rw [hcount2, literal_toNat]
    omega

/-- The emitting part of `ENCODE_UNIT` appends the header and the codes. -/
theorem emitUnit_completes (xs : List (BitVec 9)) (s : State) (hs : s.errf = false) (htv : s.tv = true) (hv : s.t.Valid)
    (hmem : ∀ x ∈ xs, x ∈ s.t.symbols) :
    ∃ u, Completes ([.ehdr] ++ xs.map .enc ++ [.flb]) s u ∧ WriterStep s u
      ∧ u.output = s.output ++ (s.t.header ++ xs.flatMap s.t.codeBits) := by
  have hstep1 := pushFields_writer s.t.headerFields s
  have hs1 := hstep1.keepsErr.running hs
  obtain ⟨htv1, htable1⟩ := hstep1.keepsTable
  obtain ⟨s2, henc, hstep2, hout2⟩ := encs_complete xs _ hs1 (htv1.trans htv) (htable1.symm ▸ hv) (htable1.symm ▸ hmem)
  have hstep3 := flushWhileFull_writer s2
  have hflb : exec .flb s2 = .next (flushWhileFull s2) := by
    rw [exec, execFlb, command_running henc.running, Ran.outcome_done]
  refine ⟨_, ((Completes.single (exec_ehdr hs htv) hs1).append henc).append
    (.single hflb (hstep3.keepsErr.running henc.running)), (hstep1.trans hstep2).trans hstep3, ?_⟩
  rw [flushWhileFull_output, hout2, pushFields_output, htable1, List.append_assoc]
  rfl

end Sys2Proof.Machine
end

section
/-! The statements about the encoder (44_encoder.md). -/

namespace Sys2Proof.Machine

/-- Settles O42: each field is pushed and flushed in order. -/
theorem ehdrEmitsTheHeader : Obligations.EhdrEmitsTheHeader := by
  unfold Obligations.EhdrEmitsTheHeader
  intro s hs htv hv
  have hout : (pushFields s.t.headerFields s).output = s.output ++ s.t.header := pushFields_output _ s
  have hpending := wbuf_length_of_output hout (pushFields_wbuf_lt _ _ s)
  rw [hv.length_header] at hpending
  exact ⟨_, exec_ehdr hs htv, hout, hpending, (pushFields_writer _ s).frame⟩

/-- Settles O43: ENC's check is whether the symbol is present. -/
theorem encEmitsTheCode : Obligations.EncEmitsTheCode := by
  unfold Obligations.EncEmitsTheCode
  intro s x hs htv hx
  refine ⟨fun hv hmem => ?_, fun hmem => ?_⟩
  · obtain ⟨hpending, -⟩ := pushFlush_lengths (s.t.codeBits x) s
    rw [CodeTable.codeBits, length_msbSeq] at hpending
    exact ⟨_, exec_enc_present hs htv hx hmem, pushFlush_output _ s, hpending, (pushFlush_writer _ s).frame⟩
  · exact ⟨_, exec_enc_absent hs htv hx hmem, (Quiet.refl s).halts .symbolAbsent, rfl⟩

/-- Settles O57: the counting part counts every symbol of the unit, so the table BUILD commits has them all, and the emitting
part writes the header and their codes. -/
theorem encodeUnitEmitsTheUnit : Obligations.EncodeUnitEmitsTheUnit := by
  unfold Obligations.EncodeUnitEmitsTheUnit
  intro s name data last hs hfit
  obtain ⟨s1, hcount, hout1, hle, hpresent⟩ := countUnit_completes name data last s hs hfit
  have hne : total s1.hist ≠ 0 := by
    have hsum := countOf_le_total s1.hist Config.FILENAME_END.toNat
    have hend := hpresent Config.FILENAME_END (by simp [unitSymbols])
    omega
  obtain ⟨s2, hbuild, htv, hsymbols, hv, -, -, -, -, -, -, -, -, -, hwriter, -, -, herr, -⟩ :=
    buildCommitsTheCanonicalTable s1 hcount.running hne hle
  have hs2 := herr.running hcount.running
  obtain ⟨u, hemit, hstep, hout⟩ := emitUnit_completes _ s2 hs2 htv hv fun x hx => (hsymbols x).mpr (hpresent x hx)
  obtain ⟨htv', htable⟩ := hstep.keepsTable
  have hrun := (hcount.append (.single hbuild hs2)).append hemit
  rw [← encodeUnit_eq] at hrun
  refine ⟨u, hrun.run, hrun.running, htv'.trans htv, htable ▸ hv, ?_⟩
  rw [htable, hout, hwriter.output_eq, hout1, unitBits_eq]
  rfl

end Sys2Proof.Machine
end

section
/-! SUPPORT. Decoding one symbol (45_decoder.md R271 to R275): which bits a code of a valid table matches, what the search over
the lengths finds, the one shape of DEC, DECN and DECD, and UEND. -/

namespace Sys2Proof.Machine

/-! ### The codes of a valid table as bits (30_encoding.md R141) -/

@[simp] theorem CodeTable.length_codeBits (t : CodeTable) (x : BitVec 9) : (t.codeBits x).length = t.len x :=
  length_msbSeq _ _

section
variable {t : CodeTable} (hv : t.Valid)
include hv

/-- Among present symbols a code begins another only if it is that code. -/
theorem CodeTable.Valid.eq_of_codeBits_prefix {x y : BitVec 9} (hx : x ∈ t.symbols) (hy : y ∈ t.symbols)
    (h : t.codeBits x <+: t.codeBits y) : x = y :=
  by_contra fun hne => (validTableIsPrefixFree t hv).2 x hx y hy hne h

/-- At most one code begins a stream. -/
theorem CodeTable.Valid.eq_of_codes_begin {x y : BitVec 9} {q : Bits} (hx : x ∈ t.symbols) (hy : y ∈ t.symbols)
    (hxq : t.codeBits x <+: q) (hyq : t.codeBits y <+: q) : x = y := by
  rcases List.prefix_or_prefix_of_prefix hxq hyq with h | h
  · exact hv.eq_of_codeBits_prefix hx hy h
  · exact (hv.eq_of_codeBits_prefix hy hx h).symm

/-- A symbol is matched only by its own code. -/
theorem CodeTable.Valid.codeBits_of_matching {q : Bits} {x : BitVec 9} (h : t.matching q = some x) : t.codeBits x = q := by
  obtain ⟨e, he, rfl⟩ := Option.map_eq_some_iff.mp h
  have hfound := List.find?_some he
  rw [Bool.and_eq_true, beq_iff_eq, beq_iff_eq] at hfound
  rw [CodeTable.codeBits, CodeTable.code, CodeTable.len, hv.entryOf_eq (List.mem_of_find?_eq_some he), hfound.2]

/-- The code of a present symbol matches that symbol. -/
theorem CodeTable.Valid.matching_codeBits {x : BitVec 9} (hx : x ∈ t.symbols) : t.matching (t.codeBits x) = some x := by
  cases hm : t.matching (t.codeBits x) with
  | none =>
    have hnone := List.find?_eq_none.mp (Option.map_eq_none_iff.mp hm) _ (hv.entryOf_mem hx).1
    exact absurd (by simp [CodeTable.codeBits, CodeTable.len, CodeTable.code]) hnone
  | some y =>
    have hy : t.codeBits y = t.codeBits x := hv.codeBits_of_matching hm
    rw [hv.eq_of_codeBits_prefix (hv.matching_mem hm) hx (hy ▸ List.prefix_rfl)]

/-- A table of one symbol holds `T.ORDER[0]` alone, with the empty code (decision D27). -/
theorem CodeTable.Valid.symbols_of_single (hk : t.k = 1) : t.symbols = [t.order[0]] := by
  rw [← hv.map_sym_entries, CodeTable.entries_of_single hk]
  rfl

theorem CodeTable.Valid.len_of_single {x : BitVec 9} (hk : t.k = 1) (hx : x ∈ t.symbols) : t.len x = 0 := by
  have he := (hv.entryOf_mem hx).1
  rw [CodeTable.entries_of_single hk, List.mem_singleton] at he
  rw [CodeTable.len, he]

/-- With several symbols every length is one the search tries. -/
theorem CodeTable.Valid.len_range {x : BitVec 9} (hk : t.k ≠ 1) (hx : x ∈ t.symbols) :
    1 ≤ t.len x ∧ t.len x ≤ t.maxlen.toNat := by
  have hmem : t.len x ∈ t.lengths := hv.map_len_entries hk ▸ List.mem_map_of_mem (hv.entryOf_mem hx).1
  exact (lengthsUpTo_sorted t.lcntAt _).2 _ hmem

theorem CodeTable.Valid.maxlen_le (hk : t.k ≠ 1) : t.maxlen.toNat ≤ 50 := (hv.several (hv.two_le_k hk)).1.2

end

/-! ### The search over the lengths (R271) -/

/-- A search that fails has matched nothing at any length the stream has; it is cut short exactly when the stream is shorter
than the longest length to try. -/
theorem tryLengths_raised_spec {room l : Nat} {s u : State} {e : ErrCode} (hl : l + room ≤ 51) (h1 : l ≤ s.input.length + 1)
    (h : tryLengths room l s = .raised e u) :
    (∀ n, l ≤ n → n < l + room → n ≤ s.input.length → s.t.matching (s.input.take n) = none)
      ∧ ((e = .truncated ∧ s.input.length + 1 < l + room) ∨ (e = .noMatch ∧ l + room ≤ s.input.length + 1)) := by
  induction room generalizing l s with
  | zero =>
    cases h
    exact ⟨fun n hn hlt => absurd hlt (by omega), .inr ⟨rfl, h1⟩⟩
  | succ room ih =>
    rcases peekBits_spec (n := l) (by omega) s with ⟨hle, hpeek, -⟩ | ⟨hlt, hpeek, -⟩
    · have hbits := lsbSeq_lsbVal (s.input.take l)
      rw [List.length_take, Nat.min_eq_left hle] at hbits
      simp only [tryLengths, hpeek, Ran.andThen_done, hbits, refill_t] at h
      split at h
      · cases h
      · next hnone =>
        have hrest := ih (by omega) (by rw [refill_input]; omega) h
        rw [refill_input] at hrest
        refine ⟨fun n hn hlt hlen => ?_, hrest.2.imp (And.imp_right (by omega)) (And.imp_right (by omega))⟩
        rcases Nat.eq_or_lt_of_le hn with rfl | hn
        · exact hnone
        · exact hrest.1 n hn (by omega) hlen
    · rw [tryLengths, hpeek, Ran.andThen_raised] at h
      cases h
      exact ⟨fun n hn _ hlen => absurd hlen (by omega), .inl ⟨rfl, by omega⟩⟩

section
variable {s : State} (hv : s.t.Valid)
include hv

theorem nextSymbol_single (hk : s.t.k = 1) {x : BitVec 9} (hx : x ∈ s.t.symbols) : nextSymbol s = .done x s := by
  rw [hv.symbols_of_single hk, List.mem_singleton] at hx
  rw [nextSymbol, if_pos hk, hx]

/-- The code of a present symbol at the head of the stream is found, and it is consumed. -/
theorem tryLengths_of_code {x : BitVec 9} (hk : s.t.k ≠ 1) (hx : x ∈ s.t.symbols) (hcode : s.t.codeBits x <+: s.input) :
    ∃ u, tryLengths s.t.maxlen.toNat 1 s = .done x u ∧ LooksAhead (s.t.len x) s u := by
  have hm := hv.maxlen_le hk
  cases h : tryLengths s.t.maxlen.toNat 1 s with
  | done y u =>
    obtain ⟨n, -, hn, hmatch, hahead⟩ := tryLengths_done (by omega) h
    have hbits := hv.codeBits_of_matching hmatch
    have hxy : x = y := hv.eq_of_codes_begin hx (hv.matching_mem hmatch) hcode (hbits ▸ List.take_prefix n _)
    have hlen : s.t.len y = n := by rw [← CodeTable.length_codeBits, hbits, List.length_take, Nat.min_eq_left hn]
    subst hxy
    exact ⟨u, rfl, hlen ▸ hahead⟩
  | raised e u =>
    obtain ⟨h1, h2⟩ := hv.len_range hk hx
    have htake : s.input.take (s.t.len x) = s.t.codeBits x := by
      rw [← CodeTable.length_codeBits]
      exact (List.prefix_iff_eq_take.mp hcode).symm
    have hnone := (tryLengths_raised_spec (by omega) (by omega) h).1 (s.t.len x) h1 (by omega)
      (by simpa using hcode.length_le)
    rw [htake, hv.matching_codeBits hx] at hnone
    cases hnone

/-- When no code begins the stream nothing is found, and the stream's length says which error is raised. -/
theorem tryLengths_of_no_code (hk : s.t.k ≠ 1) (hno : ∀ x ∈ s.t.symbols, ¬ s.t.codeBits x <+: s.input) :
    ∃ e u, tryLengths s.t.maxlen.toNat 1 s = .raised e u
      ∧ ((e = .truncated ∧ s.input.length < s.t.maxlen.toNat ∧ u.source = [])
        ∨ (e = .noMatch ∧ s.t.maxlen.toNat ≤ s.input.length ∧ LooksAhead 0 s u)) := by
  have hm := hv.maxlen_le hk
  have hpos := (hv.several (hv.two_le_k hk)).1.1
  cases h : tryLengths s.t.maxlen.toNat 1 s with
  | done y u =>
    obtain ⟨n, -, -, hmatch, -⟩ := tryLengths_done (by omega) h
    exact absurd (hv.codeBits_of_matching hmatch ▸ List.take_prefix n _) (hno y (hv.matching_mem hmatch))
  | raised e u =>
    refine ⟨e, u, rfl, ?_⟩
    rcases (tryLengths_raised_spec (by omega) (by omega) h).2 with ⟨rfl, hlen⟩ | ⟨rfl, hlen⟩
    · rcases tryLengths_raised (by omega) hpos h with ⟨-, hend⟩ | ⟨he, -⟩
      · exact .inl ⟨rfl, by omega, hend⟩
      · cases he
    · rcases tryLengths_raised (by omega) hpos h with ⟨he, -⟩ | ⟨-, hahead⟩
      · cases he
      · exact .inr ⟨rfl, by omega, hahead⟩

/-- The symbol whose code begins the stream is decoded and its code consumed; a table of one symbol reads nothing. -/
theorem nextSymbol_of_code {x : BitVec 9} {rest : Bits} (hx : x ∈ s.t.symbols) (hin : s.input = s.t.codeBits x ++ rest) :
    ∃ u, nextSymbol s = .done x u ∧ u.input = rest ∧ (s.t.k = 1 → u = s)
      ∧ (s.t.k ≠ 1 → LooksAhead (s.t.len x) s u) := by
  by_cases hk : s.t.k = 1
  · have hempty : s.t.codeBits x = [] := List.eq_nil_of_length_eq_zero (by simp [hv.len_of_single hk hx])
    exact ⟨s, nextSymbol_single hv hk hx, by rw [hin, hempty, List.nil_append], fun _ => rfl, fun h => absurd hk h⟩
  · obtain ⟨u, hfound, hahead⟩ := tryLengths_of_code hv hk hx (hin ▸ List.prefix_append _ _)
    refine ⟨u, by rw [nextSymbol, if_neg hk, hfound], ?_, fun h => absurd h hk, fun _ => hahead⟩
    rw [hahead.input (by simp [hin]), hin, List.drop_left' (CodeTable.length_codeBits _ _)]

end

/-! ### DEC, DECN and DECD (R272 to R274) -/

/-- The symbols a decoding command accepts: DECN rejects the content terminators, DECD rejects `FILENAME_END`. -/
def acceptsSymbol : Instr → BitVec 9 → Bool
  | .decn, x => !(x == Config.ONE_MORE_FILE || x == Config.ARCHIVE_END)
  | .decd, x => !(x == Config.FILENAME_END)
  | _, _ => true

/-- A decoding command of a running block with a table: the next symbol, its record, and the check of its position. -/
theorem exec_decoder {i : Instr} {s : State} (hi : mayDecode i = true) (hs : s.errf = false) (htv : s.tv = true) :
    exec i s = ((nextSymbol s).andThen fun x u =>
      require (acceptsSymbol i x) .controlInLiteral ((u.setRes (x.setWidth 64)).setLast x) fun u => .done () u).outcome := by
  have hdecode : decodeSymbol s = (nextSymbol s).andThen fun x u => .done x ((u.setRes (x.setWidth 64)).setLast x) :=
    if_pos htv
  have hassoc (f : BitVec 9 → State → Ran Unit) : (decodeSymbol s).andThen f
      = (nextSymbol s).andThen fun x u => f x ((u.setRes (x.setWidth 64)).setLast x) := by
    rw [hdecode]
    cases nextSymbol s <;> rfl
  cases i <;> cases hi
  case dec => rw [exec, execDec, command_running hs, hassoc]; rfl
  case decn => rw [exec, execDecn, command_running hs, hassoc]; rfl
  case decd => rw [exec, execDecd, command_running hs, hassoc]; rfl

/-- A decoding command whose position accepts the decoded symbol returns and records it. -/
theorem exec_decoder_accepts {i : Instr} {s u : State} {x : BitVec 9} (hi : mayDecode i = true) (hs : s.errf = false)
    (htv : s.tv = true) (hnext : nextSymbol s = .done x u) (hacc : acceptsSymbol i x = true) :
    exec i s = .next ((u.setRes (x.setWidth 64)).setLast x) := by
  rw [exec_decoder hi hs htv, hnext, Ran.andThen_done, hacc, require_true, Ran.outcome_done]

/-! ### UEND (R275) -/

theorem terminatorDecoded_iff {s : State} : terminatorDecoded s = true ↔ s.lastv = true ∧ (s.last = 257 ∨ s.last = 258) := by
  rw [terminatorDecoded, Bool.and_eq_true, Bool.or_eq_true, beq_iff_eq, beq_iff_eq]

/-- UEND after a content terminator: it looks ahead and compares that terminator with the one the remaining stream asks for. -/
theorem exec_uend {s : State} (hs : s.errf = false) (ht : terminatorDecoded s = true) :
    exec .uend s = (require (s.last == if s.input.length ≤ 8 then 258 else 257) .termMismatch (refill s) fun _ =>
      .done () ((refill s).setRes (if s.input.length ≤ 8 then 1 else 0))).outcome := by
  have hexpect : expectedTerminator (refill s) = if s.input.length ≤ 8 then 258 else 257 := by
    simp only [expectedTerminator, atPadding_refill, decide_eq_true_eq]
  have hres : (if atPadding (refill s) then 1 else 0 : BitVec 64) = if s.input.length ≤ 8 then 1 else 0 := by
    simp only [atPadding_refill, decide_eq_true_eq]
  rw [exec, execUend, command_running hs, ht, require_true, hexpect, refill_last, ← hres]
  cases s.last == if s.input.length ≤ 8 then 258 else 257 <;> rfl

end Sys2Proof.Machine
end

section
/-! The statements about the decoder (45_decoder.md): symbols and terminators. -/

namespace Sys2Proof.Machine

/-- Settles O49: the one code that begins the stream is found, and the position's check accepts its symbol. -/
theorem decodersReturnTheCodedSymbol : Obligations.DecodersReturnTheCodedSymbol := by
  unfold Obligations.DecodersReturnTheCodedSymbol
  intro s x rest i hs htv hv hx hin hi
  obtain ⟨u, hnext, hrest, hsingle, hseveral⟩ := nextSymbol_of_code hv hx hin
  obtain ⟨hdec, hacc⟩ : mayDecode i = true ∧ acceptsSymbol i x = true := by
    rcases hi with rfl | ⟨rfl, h257, h258⟩ | ⟨rfl, h256⟩
    · exact ⟨rfl, rfl⟩
    · exact ⟨rfl, by rw [acceptsSymbol, beq_false_of_ne h257, beq_false_of_ne h258]; rfl⟩
    · exact ⟨rfl, by rw [acceptsSymbol, beq_false_of_ne h256]; rfl⟩
  have hr := nextSymbol_readerStep hnext
  refine ⟨(u.setRes (x.setWidth 64)).setLast x, exec_decoder_accepts hdec hs htv hnext hacc, ?_, rfl, rfl, hrest,
    fun hk => ?_, fun hk => ?_, hr.keepsHist, hr.keepsTable, hr.keepsWriter, hr.keepsErr, hr.keepsHostSide⟩
  · have := x.isLt
    simp; omega
  · rw [hsingle hk]
    exact ⟨rfl, rfl, rfl⟩
  · exact { hseveral hk with }

/-- Settles O50: the symbol is decoded as in O49, and then the position's check rejects it. -/
theorem controlSymbolsAreRejectedInLiterals : Obligations.ControlSymbolsAreRejectedInLiterals := by
  unfold Obligations.ControlSymbolsAreRejectedInLiterals
  intro s x rest i hs htv hv hx hin hi
  obtain ⟨u, hnext, -, hsingle, hseveral⟩ := nextSymbol_of_code hv hx hin
  obtain ⟨hdec, hrej⟩ : mayDecode i = true ∧ acceptsSymbol i x = false := by
    rcases hi with ⟨rfl, rfl | rfl⟩ | ⟨rfl, rfl⟩ <;> exact ⟨rfl, rfl⟩
  obtain ⟨q1, q2, q3, q4, q5⟩ := (nextSymbol_readerStep hnext).quiet
  have hquiet : Quiet s ((u.setRes (x.setWidth 64)).setLast x) := ⟨q1, q2, q3, q4, q5⟩
  refine ⟨_, ?_, hquiet.halts .controlInLiteral, ?_⟩
  · rw [exec_decoder hdec hs htv, hnext, Ran.andThen_done, hrej, require_false, Ran.outcome_raised]
  · split
    · next hk => rw [hsingle hk]; rfl
    · next hk => exact (hseveral hk).source

/-- Settles O51: a search that matches nothing is cut short exactly when the stream is shorter than the longest code. -/
theorem decodersRejectUnknownBits : Obligations.DecodersRejectUnknownBits := by
  unfold Obligations.DecodersRejectUnknownBits
  intro s i hs htv hv hno hi
  have hk : s.t.k ≠ 1 := fun hk => by
    have hx : s.t.order[0] ∈ s.t.symbols := by simp [hv.symbols_of_single hk]
    have hempty : s.t.codeBits s.t.order[0] = [] := List.eq_nil_of_length_eq_zero (by simp [hv.len_of_single hk hx])
    exact hno _ hx (hempty ▸ List.nil_prefix)
  obtain ⟨e, u, hraise, hcases⟩ := tryLengths_of_no_code hv hk hno
  have hdec : mayDecode i = true := by rcases hi with rfl | rfl | rfl <;> rfl
  have hnext : nextSymbol s = .raised e u := by rw [nextSymbol, if_neg hk, hraise]
  have hexec : exec i s = .next (enterHalt e u) := by
    rw [exec_decoder hdec hs htv, hnext, Ran.andThen_raised, Ran.outcome_raised]
  have hhalts := (nextSymbol_raised hnext).halts e
  rcases hcases with ⟨rfl, hlen, hend⟩ | ⟨rfl, hlen, hahead⟩
  · exact ⟨fun _ => ⟨_, hexec, hhalts, hend⟩, fun hle => by omega⟩
  · exact ⟨fun hlt => by omega, fun _ => ⟨_, hexec, hhalts, hahead.source⟩⟩

/-- Settles O52: UEND's first check is whether a content terminator was decoded last, its second whether it is the one the
remaining stream asks for. -/
theorem uendChecksTheTerminator : Obligations.UendChecksTheTerminator := by
  unfold Obligations.UendChecksTheTerminator
  intro s hs
  refine ⟨fun hnone => ?_, fun hlastv hmatch => ?_, fun hlastv hmismatch => ?_⟩
  · have ht : terminatorDecoded s = false := Bool.eq_false_iff.mpr fun ht => by
      obtain ⟨hlastv, hlast⟩ := terminatorDecoded_iff.mp ht
      rcases hnone with h | ⟨h257, h258⟩
      · exact Bool.noConfusion (hlastv.symm.trans h)
      · exact hlast.elim h257 h258
    refine ⟨_, ?_, (Quiet.refl s).halts .sequence, rfl⟩
    rw [exec, execUend, command_running hs, ht, require_false, Ran.outcome_raised]
  · have ht := terminatorDecoded_iff.mpr ⟨hlastv, hmatch.elim (fun h => .inr h.1) (fun h => .inl h.1)⟩
    have hexpected : s.last = if s.input.length ≤ 8 then 258 else 257 := by
      rcases hmatch with ⟨hlast, hlen⟩ | ⟨hlast, hlen⟩
      · rw [hlast, if_pos hlen]
      · rw [hlast, if_neg (by omega)]
    have hres : (if s.input.length ≤ 8 then 1 else 0 : BitVec 64) = if s.last = 258 then 1 else 0 := by
      rcases hmatch with ⟨hlast, hlen⟩ | ⟨hlast, hlen⟩
      · rw [if_pos hlen, if_pos hlast]
      · rw [if_neg (by omega), hlast, if_neg (by decide)]
    refine ⟨(refill s).setRes (if s.input.length ≤ 8 then 1 else 0), ?_, hres, refill_input s,
      (refill_looksAhead s).setRes _, (refill_reader s).frame⟩
    rw [exec_uend hs ht, ← hexpected, beq_self_eq_true, require_true, Ran.outcome_done]
  · have ht := terminatorDecoded_iff.mpr ⟨hlastv, hmismatch.elim (fun h => .inr h.1) (fun h => .inl h.1)⟩
    have hunexpected : s.last ≠ if s.input.length ≤ 8 then 258 else 257 := by
      rcases hmismatch with ⟨hlast, hlen⟩ | ⟨hlast, hlen⟩
      · rw [hlast, if_neg (by omega)]; decide
      · rw [hlast, if_pos hlen]; decide
    refine ⟨_, ?_, (refill_reader s).quiet.halts .termMismatch, (refill_looksAhead s).source⟩
    rw [exec_uend hs ht, beq_false_of_ne hunexpected, require_false, Ran.outcome_raised]

end Sys2Proof.Machine
end

section
/-! SUPPORT. Reading a header (45_decoder.md R270): what a run of 9-bit fields leaves of the reader, the table a header stands for
in both directions (30_encoding.md R140), and DHDR up to each of its checks. -/

namespace Sys2Proof.Machine

/-! ### A run of fields -/

theorem length_fields (l : List Nat) : (fields l).length = 9 * l.length := by
  simp [fields, List.length_flatMap, Nat.mul_comm]

/-- `t` is `s` after the fields `l` were read from the head of the stream, one by one. -/
structure FieldsRead (l : List Nat) (s t : State) : Prop where
  reader : ReaderStep s t
  input : s.input = fields l ++ t.input
  ahead : LooksAhead (9 * l.length) s t

theorem FieldsRead.trans {l m : List Nat} {s t u : State} (h1 : FieldsRead l s t) (h2 : FieldsRead m t u) :
    FieldsRead (l ++ m) s u where
  reader := h1.reader.trans h2.reader
  input := by rw [h1.input, h2.input, fields_append, List.append_assoc]
  ahead := by
    rw [List.length_append, Nat.mul_add]
    exact h1.ahead.trans h2.ahead (by rw [h1.input, List.length_append, length_fields]; omega)

theorem FieldsRead.of_readField {v : Nat} {s t : State} (h : readField 9 s = .done v t) : FieldsRead [v] s t where
  reader := by simpa [h] using readField_reader 9 s
  input := by simpa [fields] using (readField_done h).2
  ahead := readField_looksAhead (n := 9) (by omega) h

/-- A raise after a run of fields has pulled exactly the look-ahead of these fields (60_exceptions.md R303). -/
theorem FieldsRead.haltsAfter {l : List Nat} {s t : State} (h : FieldsRead l s t) (e : ErrCode) :
    HaltsAfter e.code (9 * l.length) s (enterHalt e t) :=
  ⟨h.reader.quiet.halts e, h.ahead.source⟩

/-- A field that the stream ends in raises `F_TRUNCATED` with the source at its end (20_memory.md R84). -/
theorem readField_short {s : State} (h : s.input.length < 9) :
    readField 9 s = .raised .truncated (refill s) ∧ (refill s).source = [] := by
  obtain ⟨hpeek, hend⟩ := peekBits_short (by omega) h
  exact ⟨by rw [readField, hpeek, Ran.andThen_raised], hend⟩

theorem ReaderStep.halts_truncated {s t : State} (h : ReaderStep s t) :
    HaltsWith 0x10 s (enterHalt .truncated (refill t)) :=
  (h.trans (refill_reader t)).quiet.halts .truncated

/-! ### The table of a header (R140) -/

/-- Distinct symbol ids are no more than the alphabet. -/
theorem length_le_alpha {ids : List Nat} (hn : ids.Nodup) (hi : ∀ y ∈ ids, y ≤ 258) : ids.length ≤ 259 := by
  have hsub : ids ⊆ List.range 259 := fun y hy => List.mem_range.mpr (Nat.lt_succ_of_le (hi y hy))
  simpa using (hn.subperm hsub).length_le

/-- A list read through its positions is that list. -/
theorem map_range_getD (l : List Nat) : (List.range l.length).map (fun j => l[j]?.getD 0) = l := by
  apply List.ext_getElem
  · simp
  · intro j _ h
    simp [h]

theorem CodeTable.lcntAt_zero (t : CodeTable) : t.lcntAt 0 = 0 := if_pos rfl

section
variable {ids cs : List Nat} (hc : HeaderCounts ids.length cs)
include hc

theorem HeaderCounts.toNat_maxlen : (headerTable ids cs).maxlen.toNat = cs.length := by
  have := hc.length_le
  simp [headerTable]; omega

theorem HeaderCounts.lcntAt_succ (hk : ids.length ≤ 259) (j : Nat) : (headerTable ids cs).lcntAt (j + 1) = cs[j]?.getD 0 := by
  rw [headerTable_lcntAt ids cs hc.length_le (fun y hy => by have := hc.le_k y hy; omega), if_neg (by omega)]
  rfl

/-- The header of the table of a header is that header (R140). -/
theorem HeaderCounts.header_headerTable (hk : ids.length ≤ 259) (hi : ∀ y ∈ ids, y ≤ 258) :
    (headerTable ids cs).header = fields (ids.length :: (ids ++ cs)) := by
  have hkn : (headerTable ids cs).k.toNat = ids.length := by simp [headerTable]; omega
  have hids : ids.map (BitVec.toNat ∘ BitVec.ofNat 9) = ids := by
    conv_rhs => rw [← List.map_id ids]
    refine List.map_congr_left fun y hy => ?_
    have := hi y hy
    simp; omega
  have hfields : (headerTable ids cs).headerFields = ids.length :: (ids ++ cs) := by
    simp only [CodeTable.headerFields, hkn, headerTable_symbols ids cs hk, List.map_map, hids, hc.toNat_maxlen,
      hc.lcntAt_succ hk, map_range_getD]
  rw [CodeTable.header, hfields]
  rfl

/-- The codes of a header do not fit when the Kraft sum of its length counts exceeds 1 (43_coder.md R229). -/
theorem HeaderCounts.canon_eq_none (h2 : 2 ≤ ids.length) (hk : ids.length ≤ 259)
    (hsum : cs.sum = ids.length)
    (hkraft : 2 ^ 50 < ((List.range cs.length).map fun j => cs[j]?.getD 0 * 2 ^ (50 - (j + 1))).sum) :
    (headerTable ids cs).canon = none := by
  have hlen := hc.length_le
  have hkn : (headerTable ids cs).k.toNat = ids.length := by simp [headerTable]; omega
  have hbeyond (j : Nat) (hj : cs.length ≤ j) : cs[j]?.getD 0 = 0 := by simp [hj]
  refine (canonFailsIffKraftExceedsOne _ (by omega) (by omega) (by rw [hc.toNat_maxlen]; exact hlen) ?_ ?_).mpr ?_
  · intro l hl
    rw [hc.toNat_maxlen] at hl
    obtain ⟨j, rfl⟩ : ∃ j, l = j + 1 := ⟨l - 1, by omega⟩
    rw [hc.lcntAt_succ hk, hbeyond j (by omega)]
  · simp only [CodeTable.lcntSum, hc.lcntAt_succ hk]
    rw [sum_range_eq_of_zero_above hlen hbeyond, map_range_getD, hsum, hkn]
  · simp only [CodeTable.kraft, hc.lcntAt_succ hk]
    rwa [sum_range_eq_of_zero_above hlen fun j hj => by rw [hbeyond j hj, Nat.zero_mul]]

end

/-- The symbol ids of a table's header. -/
def CodeTable.symbolIds (t : CodeTable) : List Nat := t.symbols.map BitVec.toNat

/-- The length counts of a table's header. -/
def CodeTable.headerCounts (t : CodeTable) : List Nat := (List.range t.maxlen.toNat).map fun j => t.lcntAt (j + 1)

section
variable {t : CodeTable} (hv : t.Valid)
include hv

theorem CodeTable.Valid.length_symbolIds : t.symbolIds.length = t.k.toNat := by
  rw [CodeTable.symbolIds, List.length_map, hv.length_symbols]

theorem CodeTable.Valid.header_eq : t.header = fields (t.symbolIds.length :: (t.symbolIds ++ t.headerCounts)) := by
  rw [hv.length_symbolIds]
  rfl

theorem CodeTable.Valid.symbolIds_nodup : t.symbolIds.Nodup :=
  hv.distinct.map fun _ _ => BitVec.eq_of_toNat_eq

theorem CodeTable.Valid.symbolIds_le : ∀ y ∈ t.symbolIds, y ≤ 258 := by
  intro y hy
  obtain ⟨x, hx, rfl⟩ := List.mem_map.mp hy
  exact hv.symbol_ids x hx

theorem CodeTable.Valid.headerCounts_spec : HeaderCounts t.symbolIds.length t.headerCounts := by
  rw [hv.length_symbolIds]
  by_cases hk : t.k = 1
  · exact .inl ⟨by rw [hk]; rfl, by simp [CodeTable.headerCounts, (hv.single hk).1]⟩
  · obtain ⟨⟨h1, h50⟩, hlast, hz, hsum⟩ := hv.several (hv.two_le_k hk)
    obtain ⟨m, hm⟩ : ∃ m, t.maxlen.toNat = m + 1 := ⟨t.maxlen.toNat - 1, by omega⟩
    refine .inr ⟨hv.two_le_k hk, by simpa [CodeTable.headerCounts] using h50, ?_,
      (List.range m).map fun j => t.lcntAt (j + 1), t.lcntAt t.maxlen.toNat, ?_, hlast⟩
    · rw [CodeTable.headerCounts, ← hsum, CodeTable.lcntSum]
      exact (sum_range_eq_of_zero_above h50 fun j hj => hz _ (Nat.lt_succ_of_le hj)).symm
    · rw [CodeTable.headerCounts, hm, List.range_succ, List.map_append]
      rfl

/-- A valid table is the table of its own header. -/
theorem CodeTable.Valid.headerTable_eq : headerTable t.symbolIds t.headerCounts = t := by
  have hc := hv.headerCounts_spec
  have hlen := hv.length_symbolIds
  have hk259 := hv.k_range.2
  have hk : (headerTable t.symbolIds t.headerCounts).k = t.k := by simp [headerTable, hlen]
  have hmaxlen : (headerTable t.symbolIds t.headerCounts).maxlen = t.maxlen :=
    BitVec.eq_of_toNat_eq (by rw [hc.toNat_maxlen]; simp [CodeTable.headerCounts])
  have hlcnt : (headerTable t.symbolIds t.headerCounts).lcnt = t.lcnt := by
    refine lcnt_eq_of_lcntAt fun l => ?_
    cases l with
    | zero => rw [CodeTable.lcntAt_zero, CodeTable.lcntAt_zero]
    | succ j =>
      rw [hc.lcntAt_succ (by omega)]
      by_cases hj : j < t.maxlen.toNat
      · simp [CodeTable.headerCounts, hj]
      · have hz : t.lcntAt (j + 1) = 0 := by
          by_cases h1 : t.k = 1
          · exact (hv.single h1).2 _
          · exact (hv.several (hv.two_le_k h1)).2.2.1 _ (by omega)
        simp [CodeTable.headerCounts, hj, hz]
  have horder : (headerTable t.symbolIds t.headerCounts).order = t.order := by
    apply Vector.ext
    intro i hi
    by_cases hik : i < t.k.toNat
    · simp [headerTable, getElem_fillFile, CodeTable.symbolIds, CodeTable.symbols, hik, hi]
    · have hz : t.order[i] = 0 := hv.order_zero ⟨i, hi⟩ (by simpa using hik)
      simp [headerTable, getElem_fillFile, CodeTable.symbolIds, CodeTable.symbols, hik, hz]
  calc headerTable t.symbolIds t.headerCounts
      = ⟨(headerTable t.symbolIds t.headerCounts).k, (headerTable t.symbolIds t.headerCounts).order,
          (headerTable t.symbolIds t.headerCounts).lcnt, (headerTable t.symbolIds t.headerCounts).maxlen⟩ := rfl
    _ = t := by rw [hk, horder, hlcnt, hmaxlen]

end

/-! ### DHDR up to each check (R270) -/

/-- DHDR after its symbol ids: the length counts unless there is one symbol, then the commit. -/
def afterSymbols (k : Nat) (syms : List Nat) (s : State) : Ran Unit :=
  if k = 1 then commitTable (headerTable syms []) s
  else (readCounts k Config.MAX_CODE_LEN [] s).andThen fun counts s => commitTable (headerTable syms counts) s

theorem readHeaderBody_eq (k : Nat) (s : State) : readHeaderBody k s = (readSymbols k [] s).andThen (afterSymbols k) := rfl

theorem exec_dhdr {s : State} (hs : s.errf = false) :
    exec .dhdr s = ((readField 9 s).andThen fun k u => if k = 0 then .raised .emptyOrder u
      else if 259 < k then .raised .badCount u else readHeaderBody k u).outcome := by
  rw [exec, execDhdr, command_running hs]

section
variable {s : State} {ids counts : List Nat} {tail : Bits} (hs : s.errf = false) (hn : ids.Nodup) (hi : ∀ y ∈ ids, y ≤ 258)
include hs hn hi

/-- On a stream of a count and as many of its symbol ids as are well-formed, DHDR comes to read the `m` others. -/
theorem exec_dhdr_symbols (m : Nat) (h1 : 1 ≤ ids.length + m) (h259 : ids.length + m ≤ 259)
    (hin : s.input = lsbSeq (ids.length + m) 9 ++ (fields ids ++ tail)) :
    ∃ t, exec .dhdr s = ((readSymbols m ids t).andThen (afterSymbols (ids.length + m))).outcome
      ∧ FieldsRead ((ids.length + m) :: ids) s t ∧ t.input = tail := by
  obtain ⟨r, hcount, hrin⟩ := readField_field (by omega) hin
  have hfirst := FieldsRead.of_readField hcount
  obtain ⟨t, hsyms, hreader, htin, hahead⟩ := readSymbols_ok (seen := []) hn hi m hrin
  refine ⟨t, ?_, hfirst.trans ⟨hreader, by rw [hrin, htin], hahead hfirst.ahead.settled⟩, htin⟩
  rw [exec_dhdr hs, hcount, Ran.andThen_done, if_neg (by omega), if_neg (by omega), readHeaderBody_eq, hsyms,
    List.nil_append]

/-- After distinct symbol ids and length counts that do not reach their number, DHDR comes to read the next length count. -/
theorem exec_dhdr_counts (room : Nat) (h2 : 2 ≤ ids.length) (hb : ∀ y ∈ counts, y < 512) (hsum : counts.sum < ids.length)
    (hroom : counts.length + room = 50) (hin : s.input = lsbSeq ids.length 9 ++ (fields ids ++ (fields counts ++ tail))) :
    ∃ t, exec .dhdr s = ((readCounts ids.length room counts t).andThen fun cs u =>
        commitTable (headerTable ids cs) u).outcome
      ∧ FieldsRead (ids.length :: ids ++ counts) s t ∧ t.input = tail := by
  have h259 := length_le_alpha hn hi
  obtain ⟨r, hexec, hfirst, hrin⟩ := exec_dhdr_symbols hs hn hi 0 (by omega) h259 hin
  rw [Nat.add_zero] at hexec hfirst
  obtain ⟨t, hcounts, hreader, htin, hahead⟩ := readCounts_ok (counts := []) ids.length room (by simpa using hsum) hb hrin
  refine ⟨t, ?_, hfirst.trans ⟨hreader, by rw [hrin, htin], hahead hfirst.ahead.settled⟩, htin⟩
  rw [hroom] at hcounts
  rw [hexec, readSymbols, Ran.andThen_done, afterSymbols, if_neg (by omega), hcounts, List.nil_append]

/-- On a whole header DHDR comes to commit its table. -/
theorem exec_dhdr_header (hc : HeaderCounts ids.length counts)
    (hin : s.input = fields (ids.length :: (ids ++ counts)) ++ tail) :
    ∃ t, exec .dhdr s = (commitTable (headerTable ids counts) t).outcome
      ∧ FieldsRead (ids.length :: (ids ++ counts)) s t ∧ t.input = tail := by
  have h259 := length_le_alpha hn hi
  have hb : ∀ y ∈ counts, y < 512 := fun y hy => by have := hc.le_k y hy; omega
  rw [fields_cons, fields_append, List.append_assoc, List.append_assoc] at hin
  rcases hc with ⟨h1, rfl⟩ | ⟨h2, h50, hsum, init, c, rfl, hc1⟩
  · obtain ⟨t, hexec, hread, htin⟩ := exec_dhdr_symbols hs hn hi 0 (by omega) h259 hin
    refine ⟨t, ?_, by simpa using hread, by simpa [fields] using htin⟩
    rw [hexec, readSymbols, Ran.andThen_done, afterSymbols, Nat.add_zero, if_pos h1]
  · rw [fields_append, List.append_assoc] at hin
    rw [List.length_append, List.length_singleton] at h50
    rw [List.sum_append, List.sum_singleton] at hsum
    obtain ⟨room, hroom⟩ : ∃ room, init.length + (room + 1) = 50 := ⟨49 - init.length, by omega⟩
    obtain ⟨r, hexec, hread, hrin⟩ := exec_dhdr_counts hs hn hi (room + 1) h2
      (fun y hy => hb y (List.mem_append_left _ hy)) (by omega) hroom hin
    obtain ⟨t, hlast, htin⟩ := readField_field (hb c (by simp)) (by simpa [fields] using hrin)
    refine ⟨t, ?_, by simpa using hread.trans (.of_readField hlast), htin⟩
    rw [hexec, readCounts, hlast, Ran.andThen_done, if_neg (by omega), if_pos hsum, Ran.andThen_done]

end

/-! ### All that DHDR can do -/

/-- The errors R270 lists. -/
def headerErrors : List ErrCode :=
  [.truncated, .emptyOrder, .badCount, .badSymbolId, .dupSymbol, .countMismatch, .codeTooLong, .oversubscribed]

theorem code_of_headerErrors {e : ErrCode} (h : e ∈ headerErrors) :
    e.code ∈ [0x10, 0x12, 0x13, 0x14, 0x15, 0x16, 0x17, 0x18] :=
  List.mem_map_of_mem (f := ErrCode.code) h

theorem readField_raised {s t : State} {e : ErrCode} (h : readField 9 s = .raised e t) : e ∈ headerErrors := by
  rcases readField_spec (n := 9) (by omega) s with ⟨-, hdone, -⟩ | ⟨-, hraise, -⟩
  · rw [hdone] at h
    cases h
  · rw [hraise] at h
    cases h
    decide

theorem readSymbols_raised {k : Nat} {seen : List Nat} {s t : State} {e : ErrCode} (h : readSymbols k seen s = .raised e t) :
    e ∈ headerErrors := by
  induction k generalizing seen s with
  | zero => cases h
  | succ k ih =>
    rcases Ran.andThen_eq_raised h with h | ⟨x, u, -, h⟩
    · exact readField_raised h
    · split at h
      · cases h; decide
      · split at h
        · cases h; decide
        · exact ih h

theorem readCounts_raised {k room : Nat} {counts : List Nat} {s t : State} {e : ErrCode}
    (h : readCounts k room counts s = .raised e t) : e ∈ headerErrors := by
  induction room generalizing counts s with
  | zero => cases h; decide
  | succ room ih =>
    rcases Ran.andThen_eq_raised h with h | ⟨c, u, -, h⟩
    · exact readField_raised h
    · split at h
      · cases h; decide
      · split at h
        · cases h
        · exact ih h

theorem commitTable_raised {tbl : CodeTable} {s t : State} {e : ErrCode} (h : commitTable tbl s = .raised e t) :
    e ∈ headerErrors := by
  rcases require_eq_raised h with ⟨-, rfl, -⟩ | ⟨-, h⟩
  · decide
  · cases h

theorem readHeaderBody_raised_mem {k : Nat} {s t : State} {e : ErrCode} (h : readHeaderBody k s = .raised e t) :
    e ∈ headerErrors := by
  rcases Ran.andThen_eq_raised h with h | ⟨syms, u, -, h⟩
  · exact readSymbols_raised h
  · split at h
    · exact commitTable_raised h
    · rcases Ran.andThen_eq_raised h with h | ⟨counts, v, -, h⟩
      · exact readCounts_raised h
      · exact commitTable_raised h

/-- `t` is `s` after a whole header was read, with the table of that header committed. -/
def HeaderCommitted (s t : State) : Prop :=
  ∃ r ids cs, ids.Nodup ∧ (∀ y ∈ ids, y ≤ 258) ∧ HeaderCounts ids.length cs ∧ FieldsRead (ids.length :: (ids ++ cs)) s r
    ∧ (headerTable ids cs).canon.isSome = true ∧ t = r.setTable (headerTable ids cs)

/-- A body that completes after the count was read has read the rest of a header and committed its table. -/
theorem readHeaderBody_committed {k : Nat} {s r t : State} (h1 : 1 ≤ k) (hcount : FieldsRead [k] s r)
    (h : readHeaderBody k r = .done () t) : HeaderCommitted s t := by
  obtain ⟨ids, u, hu, h⟩ := Ran.andThen_eq_done h
  obtain ⟨_, rfl, rfl, hn, hi, hin, hahead⟩ := readSymbols_done hu List.nodup_nil
  have hread : FieldsRead (ids.length :: ids) s u :=
    hcount.trans ⟨by simpa [hu] using readSymbols_reader ids.length [] r, hin, hahead hcount.ahead.settled⟩
  split at h
  · next hk =>
    obtain ⟨hfit, h⟩ := require_eq_done h
    cases h
    exact ⟨u, ids, [], hn, hi, .inl ⟨hk, rfl⟩, by simpa using hread, hfit, rfl⟩
  · next hk =>
    obtain ⟨counts, v, hv, h⟩ := Ran.andThen_eq_done h
    obtain ⟨cs, c, rfl, hroom, hsum, hc, -, hin, hahead⟩ := readCounts_done hv h1
    have hcounts : FieldsRead (cs ++ [c]) u v :=
      ⟨by simpa [hv] using readCounts_reader ids.length Config.MAX_CODE_LEN [] u, hin, by simpa using hahead⟩
    obtain ⟨hfit, h⟩ := require_eq_done h
    cases h
    exact ⟨v, ids, cs ++ [c], hn, hi, .inr ⟨by omega, by simpa using hroom, hsum, cs, c, rfl, hc⟩,
      hread.trans hcounts, hfit, rfl⟩

/-- DHDR of a running block commits the table of the header it has read, or halts with an error R270 lists. -/
theorem exec_dhdr_cases {s u : State} (hs : s.errf = false) (h : exec .dhdr s = .next u) :
    HeaderCommitted s u ∨ ∃ e r, e ∈ headerErrors ∧ u = enterHalt e r := by
  rw [exec, execDhdr] at h
  rcases command_cases h with ⟨hh, -⟩ | ⟨-, h⟩ | ⟨-, e, r, h, hu⟩
  · exact Bool.noConfusion (hs.symm.trans hh)
  · obtain ⟨k, t, ht, h⟩ := Ran.andThen_eq_done h
    split at h
    · cases h
    · next hk =>
      split at h
      · cases h
      · exact .inl (readHeaderBody_committed (Nat.one_le_iff_ne_zero.mpr hk) (.of_readField ht) h)
  · refine .inr ⟨e, r, ?_, hu⟩
    rcases Ran.andThen_eq_raised h with h | ⟨k, t, -, h⟩
    · exact readField_raised h
    · split at h
      · cases h; decide
      · split at h
        · cases h; decide
        · exact readHeaderBody_raised_mem h

end Sys2Proof.Machine
end

section
/-! The statements about the decoder (45_decoder.md): headers. -/

namespace Sys2Proof.Machine

/-- Settles O45: a valid table is the table of its own header, whose codes fit. -/
theorem dhdrAcceptsEveryValidHeader : Obligations.DhdrAcceptsEveryValidHeader := by
  unfold Obligations.DhdrAcceptsEveryValidHeader
  intro s t rest hs hv hin
  rw [hv.header_eq] at hin
  obtain ⟨r, hexec, hread, hrest⟩ :=
    exec_dhdr_header hs hv.symbolIds_nodup hv.symbolIds_le hv.headerCounts_spec hin
  rw [hv.headerTable_eq, commitTable, hv.canon_fits, require_true, Ran.outcome_done] at hexec
  have hahead : LooksAhead t.header.length s r := by
    rw [hv.header_eq, length_fields]
    exact hread.ahead
  have hr := hread.reader
  exact ⟨r.setTable t, hexec, rfl, rfl, hrest, { hahead with }, hr.keepsHist, hr.keepsWriter, hr.keepsRes, hr.keepsLast,
    hr.keepsErr, hr.keepsHostSide⟩

/-- Settles O46: what is committed is the table of a header with distinct symbol ids and counts that account for them. -/
theorem dhdrCommitsOnlyValidTables : Obligations.DhdrCommitsOnlyValidTables := by
  unfold Obligations.DhdrCommitsOnlyValidTables
  intro s u hs h
  rcases exec_dhdr_cases hs h with ⟨r, ids, cs, hn, hi, hc, hread, hfit, rfl⟩ | ⟨e, r, he, rfl⟩
  · have hk := length_le_alpha hn hi
    have hheader := hc.header_headerTable hk hi
    have hrunning : (r.setTable (headerTable ids cs)).errf = false := hread.reader.keepsErr.running hs
    refine ⟨fun _ => ⟨rfl, headerTable_valid hk hn hi hc hfit, ?_, ?_⟩, fun hu => ?_⟩
    · rw [State.setTable_t, hheader]
      exact hread.input
    · rw [State.setTable_t, hheader, length_fields]
      exact { hread.ahead with }
    · exact Bool.noConfusion (hrunning.symm.trans hu)
  · exact ⟨fun hu => Bool.noConfusion hu, fun _ => code_of_headerErrors he⟩

/-- Settles O47: the first field, or the symbol id after those that are well-formed, is the one that is rejected. -/
theorem dhdrRejectsBadCountsAndSymbols : Obligations.DhdrRejectsBadCountsAndSymbols := by
  unfold Obligations.DhdrRejectsBadCountsAndSymbols
  intro s hs
  refine ⟨fun hshort => ?_, fun k rest hk hin => ?_⟩
  · obtain ⟨hraise, hend⟩ := readField_short hshort
    refine ⟨_, ?_, (ReaderStep.refl s).halts_truncated, hend⟩
    rw [exec_dhdr hs, hraise, Ran.andThen_raised, Ran.outcome_raised]
  obtain ⟨r, hcount, -⟩ := readField_field hk hin
  have hfirst := FieldsRead.of_readField hcount
  refine ⟨fun h0 => ?_, fun h259 => ?_, fun h1 h259 ids tail hlt hn hi hrest => ?_⟩
  · refine ⟨_, ?_, hfirst.haltsAfter .emptyOrder⟩
    rw [exec_dhdr hs, hcount, Ran.andThen_done, if_pos h0, Ran.outcome_raised]
  · refine ⟨_, ?_, hfirst.haltsAfter .badCount⟩
    rw [exec_dhdr hs, hcount, Ran.andThen_done, if_neg (by omega), if_pos h259, Ran.outcome_raised]
  obtain ⟨m, rfl⟩ : ∃ m, k = ids.length + (m + 1) := ⟨k - ids.length - 1, by omega⟩
  obtain ⟨t, hexec, hread, htin⟩ := exec_dhdr_symbols hs hn hi (m + 1) h1 h259 (hrest ▸ hin)
  rw [readSymbols] at hexec
  refine ⟨fun hshort => ?_, fun x tail' hx htail => ?_⟩
  · obtain ⟨hraise, hend⟩ := readField_short (htin ▸ hshort)
    refine ⟨_, ?_, hread.reader.halts_truncated, hend⟩
    rw [hexec, hraise, Ran.andThen_raised, Ran.andThen_raised, Ran.outcome_raised]
  obtain ⟨u, hfield, -⟩ := readField_field hx (htin.trans htail)
  have hread' := hread.trans (.of_readField hfield)
  have hlen : 9 * (ids.length + 2) = 9 * ((ids.length + (m + 1)) :: ids ++ [x]).length := by simp
  rw [hlen]
  refine ⟨fun hbad => ?_, fun hdup => ?_⟩
  · refine ⟨_, ?_, hread'.haltsAfter .badSymbolId⟩
    rw [hexec, hfield, Ran.andThen_done, if_pos hbad, Ran.andThen_raised, Ran.outcome_raised]
  · refine ⟨_, ?_, hread'.haltsAfter .dupSymbol⟩
    have hid := hi x hdup
    rw [hexec, hfield, Ran.andThen_done, if_neg (by omega), if_pos hdup, Ran.andThen_raised, Ran.outcome_raised]

/-- Settles O48: the length count after those that do not reach the number of symbols is rejected, or the table they make. -/
theorem dhdrRejectsBadLengthCounts : Obligations.DhdrRejectsBadLengthCounts := by
  unfold Obligations.DhdrRejectsBadLengthCounts
  intro s ids counts tail hs h2 hn hi hb hsum hin
  have hin' : s.input = lsbSeq ids.length 9 ++ (fields ids ++ (fields counts ++ tail)) := by
    rw [hin, List.append_assoc, List.append_assoc]
    rfl
  refine ⟨fun h50 => ?_, fun hlt hshort => ?_, fun c tail' hc htail hlt => ⟨fun hpass => ?_, fun hreach hkraft => ?_⟩⟩
  · obtain ⟨t, hexec, hread, -⟩ := exec_dhdr_counts hs hn hi 0 h2 hb hsum h50 hin'
    have hlen : 9 * (ids.length + 51) = 9 * (ids.length :: ids ++ counts).length := by simp [h50]
    rw [hlen]
    refine ⟨_, ?_, hread.haltsAfter .codeTooLong⟩
    rw [hexec, readCounts, Ran.andThen_raised, Ran.outcome_raised]
  · obtain ⟨room, hroom⟩ : ∃ room, counts.length + (room + 1) = 50 := ⟨49 - counts.length, by omega⟩
    obtain ⟨t, hexec, hread, htin⟩ := exec_dhdr_counts hs hn hi (room + 1) h2 hb hsum hroom hin'
    obtain ⟨hraise, hend⟩ := readField_short (htin ▸ hshort)
    refine ⟨_, ?_, hread.reader.halts_truncated, hend⟩
    rw [hexec, readCounts, hraise, Ran.andThen_raised, Ran.andThen_raised, Ran.outcome_raised]
  · obtain ⟨room, hroom⟩ : ∃ room, counts.length + (room + 1) = 50 := ⟨49 - counts.length, by omega⟩
    obtain ⟨t, hexec, hread, htin⟩ := exec_dhdr_counts hs hn hi (room + 1) h2 hb hsum hroom hin'
    obtain ⟨u, hfield, -⟩ := readField_field hc (htin.trans htail)
    have hlen : 9 * (ids.length + counts.length + 2) = 9 * (ids.length :: ids ++ counts ++ [c]).length := by simp; omega
    rw [hlen]
    refine ⟨_, ?_, (hread.trans (.of_readField hfield)).haltsAfter .countMismatch⟩
    rw [hexec, readCounts, hfield, Ran.andThen_done, if_pos hpass, Ran.andThen_raised, Ran.outcome_raised]
  · have hcounts : HeaderCounts ids.length (counts ++ [c]) :=
      .inr ⟨h2, by simpa using hlt, by simpa using hreach, counts, c, rfl, by omega⟩
    have hheader : s.input = fields (ids.length :: (ids ++ (counts ++ [c]))) ++ tail' := by
      simp [hin', htail, fields]
    obtain ⟨t, hexec, hread, -⟩ := exec_dhdr_header hs hn hi hcounts hheader
    have hnone := hcounts.canon_eq_none h2 (length_le_alpha hn hi) (by simpa using hreach) hkraft
    have hlen : 9 * (ids.length + counts.length + 2) = 9 * (ids.length :: (ids ++ (counts ++ [c]))).length := by
      simp; omega
    rw [hlen]
    refine ⟨_, ?_, hread.haltsAfter .oversubscribed⟩
    rw [hexec, commitTable, hnone, Option.isSome_none, require_false, Ran.outcome_raised]

end Sys2Proof.Machine
end

section
/-! SUPPORT. The round trip (45_decoder.md R276, R278): what the host's encoding program writes, and what the host's decoding
loop makes of it, unit by unit. -/

namespace Sys2Proof.Machine

/-! ### What the encoding program writes (44_encoder.md R253, R254) -/

/-- `q` is an encoding unit of the file, coded with a valid table that has all the unit's symbols (30_encoding.md R142). -/
def UnitOf (f : File) (last : Bool) (q : Bits) : Prop :=
  ∃ t : CodeTable, t.Valid ∧ (∀ x ∈ unitSymbols f.1 f.2 (terminator last), x ∈ t.symbols)
    ∧ q = t.header ++ (unitSymbols f.1 f.2 (terminator last)).flatMap t.codeBits

/-- `q` is an archive of the files: their units, then less than a byte of padding (30_encoding.md R143). -/
inductive ArchiveOf : List File → Bits → Prop
  | empty {pad : Bits} (hpad : pad.length ≤ 7) : ArchiveOf [] pad
  | last {f : File} {q pad : Bits} (hunit : UnitOf f true q) (hpad : pad.length ≤ 7) : ArchiveOf [f] (q ++ pad)
  | more {f g : File} {rest : List File} {q r : Bits} (hunit : UnitOf f false q) (hrest : ArchiveOf (g :: rest) r) :
      ArchiveOf (f :: g :: rest) (q ++ r)

/-- A unit is longer than any padding: its header alone has at least two fields. -/
theorem UnitOf.length_lt {f : File} {last : Bool} {q : Bits} (h : UnitOf f last q) : 8 < q.length := by
  obtain ⟨t, hv, -, rfl⟩ := h
  have h1 := hv.k_range.1
  rw [List.length_append, hv.length_header]
  omega

theorem ArchiveOf.length_lt {f : File} {rest : List File} {q : Bits} (h : ArchiveOf (f :: rest) q) : 8 < q.length := by
  cases h with
  | last hunit => rw [List.length_append]; have := hunit.length_lt; omega
  | more hunit => rw [List.length_append]; have := hunit.length_lt; omega

/-- FLA appends less than a byte of padding and leaves nothing pending (20_memory.md R97). -/
theorem flushAll_output (s : State) :
    (flushAll s).wbuf = [] ∧ ∃ pad : Bits, pad.length ≤ 7 ∧ (flushAll s).output = s.output ++ pad := by
  refine ⟨emitRest_wbuf _, ?_⟩
  have hlt := flushWhileFull_wbuf_lt s
  rw [flushAll, ← flushWhileFull_output s]
  by_cases hw : (flushWhileFull s).wbuf = []
  · exact ⟨[], Nat.zero_le _, by rw [emitRest_empty hw, List.append_nil]⟩
  · have hpos := List.length_pos_of_ne_nil hw
    refine ⟨List.replicate (8 - (flushWhileFull s).wbuf.length) false, by simp; omega, ?_⟩
    rw [emitRest_pending hw, State.output, State.output, State.setWriter_sink, State.setWriter_wbuf, streamBits_append,
      List.append_nil, List.append_assoc, ← byteBits_byteOf_short (by omega)]
    simp [streamBits]

/-- `ENCODE_UNIT` completes and appends a unit of its file: the table BUILD commits has every symbol that was counted. -/
theorem encodeUnit_completes (f : File) (last : Bool) (s : State) (hs : s.errf = false)
    (hfit : f.1.length + f.2.length + 3 ≤ 4294967295) :
    ∃ u q, Completes (encodeUnit f.1 f.2 last) s u ∧ UnitOf f last q ∧ u.output = s.output ++ q := by
  obtain ⟨s1, hcount, hout1, hle, hpresent⟩ := countUnit_completes f.1 f.2 last s hs hfit
  have hne : total s1.hist ≠ 0 := by
    have hsum := countOf_le_total s1.hist Config.FILENAME_END.toNat
    have hend := hpresent Config.FILENAME_END (by simp [unitSymbols])
    omega
  obtain ⟨s2, hbuild, htv, hsymbols, hv, -, -, -, -, -, -, -, -, -, hwriter, -, -, herr, -⟩ :=
    buildCommitsTheCanonicalTable s1 hcount.running hne hle
  have hs2 := herr.running hcount.running
  have hmem := fun x hx => (hsymbols x).mpr (hpresent x hx)
  obtain ⟨u, hemit, -, hout⟩ := emitUnit_completes _ s2 hs2 htv hv hmem
  have hrun := (hcount.append (.single hbuild hs2)).append hemit
  rw [← encodeUnit_eq] at hrun
  exact ⟨u, _, hrun, ⟨s2.t, hv, hmem, rfl⟩, by rw [hout, hwriter.output_eq, hout1]⟩

theorem fla_completes {s : State} (hs : s.errf = false) : Completes [.fla] s (flushAll s) :=
  .single (by rw [exec, execFla, command_running hs, Ran.outcome_done]) ((flushAll_writer s).keepsErr.running hs)

/-- The encoding program completes and appends an archive of its files. -/
theorem archiveProgram_completes (files : List File) (s : State) (hs : s.errf = false)
    (hfit : ∀ f ∈ files, f.1.length + f.2.length + 3 ≤ 4294967295) :
    ∃ u q, Completes (archiveProgram files) s u ∧ u.wbuf = [] ∧ ArchiveOf files q ∧ u.output = s.output ++ q := by
  induction files generalizing s with
  | nil =>
    obtain ⟨hempty, pad, hpad, hout⟩ := flushAll_output s
    exact ⟨_, pad, fla_completes hs, hempty, .empty hpad, hout⟩
  | cons f rest ih =>
    obtain ⟨hf, hrest⟩ := List.forall_mem_cons.mp hfit
    cases rest with
    | nil =>
      obtain ⟨t, q, hrun, hunit, hout⟩ := encodeUnit_completes f true s hs hf
      obtain ⟨hempty, pad, hpad, hout'⟩ := flushAll_output t
      exact ⟨_, q ++ pad, hrun.append (fla_completes hrun.running), hempty, .last hunit hpad,
        by rw [hout', hout, List.append_assoc]⟩
    | cons g rest =>
      obtain ⟨t, q, hrun, hunit, hout⟩ := encodeUnit_completes f false s hs hf
      obtain ⟨u, r, hrun', hempty, harchive, hout'⟩ := ih t hrun.running hrest
      exact ⟨u, q ++ r, hrun.append hrun', hempty, .more hunit harchive, by rw [hout', hout, List.append_assoc]⟩

/-! ### A literal loop on the codes it expects (R276) -/

theorem runCommand_of_exec {i : Instr} {s u : State} (h : exec i s = .next u) (hu : u.errf = false) :
    runCommand i s = some u := by
  simp [runCommand, h, hu]

theorem literal_beq_control (b : Byte) {c : BitVec 9} (hc : 256 ≤ c.toNat) : (literal b == c) = false :=
  beq_false_of_ne fun h => by
    have hb := literal_toNat b
    rw [h] at hb
    have := b.isLt
    omega

/-- What a decoding command returns of a literal is that byte. -/
theorem setWidth_literal (b : Byte) : ((literal b).setWidth 64).setWidth 8 = b := by
  have hb := literal_toNat b
  have := b.isLt
  exact BitVec.eq_of_toNat_eq (by simp only [BitVec.toNat_setWidth, hb]; omega)

theorem literal_result_beq (b : Byte) {c : BitVec 64} (hc : 256 ≤ c.toNat) : ((literal b).setWidth 64 == c) = false :=
  beq_false_of_ne fun h => by
    have hb := literal_toNat b
    have hres := congrArg BitVec.toNat h
    rw [BitVec.toNat_setWidth, hb] at hres
    have := b.isLt
    omega

/-- A literal loop's command and end test fit the symbol that ends it: literals are accepted and go on, that symbol is accepted
and ends. -/
structure LoopFits (i : Instr) (ends : BitVec 64 → Bool) (stop : BitVec 9) : Prop where
  decodes : mayDecode i = true
  accepts_literal : ∀ b, acceptsSymbol i (literal b) = true
  accepts_stop : acceptsSymbol i stop = true
  goes_on : ∀ b, ends ((literal b).setWidth 64) = false
  ends_at : ends (stop.setWidth 64) = true

theorem nameLoop_fits : LoopFits .decn endsName Config.FILENAME_END where
  decodes := rfl
  accepts_literal b := by
    rw [acceptsSymbol, literal_beq_control b (by decide), literal_beq_control b (by decide)]
    rfl
  accepts_stop := rfl
  goes_on b := literal_result_beq b (by decide)
  ends_at := rfl

theorem contentLoop_fits (last : Bool) : LoopFits .decd endsContent (terminator last) where
  decodes := rfl
  accepts_literal b := by
    rw [acceptsSymbol, literal_beq_control b (by decide)]
    rfl
  accepts_stop := by cases last <;> rfl
  goes_on b := by
    rw [endsContent, literal_result_beq b (by decide), literal_result_beq b (by decide)]
    rfl
  ends_at := by cases last <;> rfl

/-- A literal loop on the codes of a string and of the symbol that ends it returns the string. -/
theorem literalLoop_codes {i : Instr} {ends : BitVec 64 → Bool} {stop : BitVec 9} (hloop : LoopFits i ends stop)
    (str : List Byte) (fuel : Nat) (s : State) (rest : Bits) (hfuel : str.length < fuel) (hs : s.errf = false)
    (htv : s.tv = true) (hv : s.t.Valid) (hmem : ∀ x ∈ str.map literal ++ [stop], x ∈ s.t.symbols)
    (hin : s.input = (str.map literal ++ [stop]).flatMap s.t.codeBits ++ rest) :
    ∃ u, literalLoop i ends fuel s = some (str, u) ∧ u.errf = false ∧ KeepsTable s u ∧ u.input = rest
      ∧ u.last = stop ∧ u.lastv = true := by
  induction str generalizing fuel s with
  | nil =>
    obtain ⟨fuel, rfl⟩ := Nat.exists_eq_add_one.mpr hfuel
    obtain ⟨u, hnext, hrest, -⟩ := nextSymbol_of_code hv (hmem stop (by simp)) (by simpa using hin)
    have hr := nextSymbol_readerStep hnext
    have hrun := runCommand_of_exec (exec_decoder_accepts hloop.decodes hs htv hnext hloop.accepts_stop)
      (hr.keepsErr.running hs)
    refine ⟨(u.setRes (stop.setWidth 64)).setLast stop, ?_, hr.keepsErr.running hs, hr.keepsTable, hrest, rfl, rfl⟩
    rw [literalLoop, hrun, Option.bind_some, State.setLast_res, State.setRes_res, hloop.ends_at, if_pos rfl]
  | cons b str ih =>
    obtain ⟨fuel, rfl⟩ := Nat.exists_eq_add_one.mpr (Nat.zero_lt_of_lt hfuel)
    rw [List.map_cons, List.cons_append] at hmem hin
    obtain ⟨hb, hmem⟩ := List.forall_mem_cons.mp hmem
    rw [List.flatMap_cons, List.append_assoc] at hin
    obtain ⟨t, hnext, hrest, -⟩ := nextSymbol_of_code hv hb hin
    have hr := nextSymbol_readerStep hnext
    have hrun := runCommand_of_exec (exec_decoder_accepts hloop.decodes hs htv hnext (hloop.accepts_literal b))
      (hr.keepsErr.running hs)
    obtain ⟨htv', htable⟩ := hr.keepsTable
    obtain ⟨u, hrec, hu, ⟨htvu, htableu⟩, hinu, hlast⟩ := ih fuel ((t.setRes ((literal b).setWidth 64)).setLast (literal b))
      (Nat.lt_of_succ_lt_succ hfuel) (hr.keepsErr.running hs) (htv'.trans htv) (htable.symm ▸ hv) (htable.symm ▸ hmem)
      (htable.symm ▸ hrest)
    refine ⟨u, ?_, hu, ⟨htvu.trans htv', htableu.trans htable⟩, hinu, hlast⟩
    rw [literalLoop, hrun, Option.bind_some, State.setLast_res, State.setRes_res, hloop.goes_on, if_neg Bool.false_ne_true,
      hrec, Option.map_some, setWidth_literal]

/-! ### The decoding loop (R276) -/

/-- With at most 8 bits left the decoding loop ends. -/
theorem decodeArchive_padding {d : State} (hd : d.errf = false) (hlen : d.input.length ≤ 8) (fuel : Nat) :
    decodeArchive (fuel + 1) d = some [] := by
  obtain ⟨u, hexec, hres, -, -, -, -, -, -, herr, -⟩ := rchkTestsForPadding d hd
  rw [decodeArchive, runCommand_of_exec hexec (herr.running hd), Option.bind_some, if_pos (hres.trans (if_pos hlen))]

/-- UEND on the terminator that the remaining stream asks for. -/
theorem runCommand_uend {s : State} {last : Bool} (hs : s.errf = false) (hlastv : s.lastv = true)
    (hlast : s.last = terminator last) (hend : last = true ↔ s.input.length ≤ 8) :
    ∃ u, runCommand .uend s = some u ∧ u.errf = false ∧ u.input = s.input ∧ (u.res = 1 ↔ last = true) := by
  have hmatch : (s.last = 258 ∧ s.input.length ≤ 8) ∨ (s.last = 257 ∧ 8 < s.input.length) := by
    cases last with
    | true => exact .inl ⟨hlast, hend.mp rfl⟩
    | false => exact .inr ⟨hlast, Nat.lt_of_not_le fun h => Bool.noConfusion (hend.mpr h)⟩
  obtain ⟨u, hexec, hres, hin, -, -, -, -, -, herr, -⟩ := (uendChecksTheTerminator s hs).2.1 hlastv hmatch
  have hu := herr.running hs
  refine ⟨u, runCommand_of_exec hexec hu, hu, hin, ?_⟩
  rw [hres, hlast]
  cases last <;> decide

/-- One round of the decoding loop decodes one unit, and ends with it exactly when it is the last. -/
theorem decodeArchive_unit {f : File} {last : Bool} {q rest : Bits} {d : State} {fuel : Nat} (hd : d.errf = false)
    (hunit : UnitOf f last q) (hin : d.input = q ++ rest) (hend : last = true ↔ rest.length ≤ 8)
    (hfuel : f.1.length + f.2.length < fuel) :
    ∃ u, u.errf = false ∧ u.input = rest
      ∧ decodeArchive (fuel + 1) d = if last then some [f] else (decodeArchive fuel u).map (f :: ·) := by
  have hlong : ¬ d.input.length ≤ 8 := by rw [hin, List.length_append]; have := hunit.length_lt; omega
  obtain ⟨t, hv, hmem, rfl⟩ := hunit
  obtain ⟨s1, hrchk, hres1, hin1, -, -, -, -, -, herr1, -⟩ := rchkTestsForPadding d hd
  have hs1 := herr1.running hd
  have hgo : s1.res ≠ 1 := by rw [hres1, if_neg hlong]; decide
  obtain ⟨s2, hdhdr, ht2, htv2, hin2, -, -, -, -, -, herr2, -⟩ := dhdrAcceptsEveryValidHeader s1 t
    ((unitSymbols f.1 f.2 (terminator last)).flatMap t.codeBits ++ rest) hs1 hv (by rw [hin1, hin, List.append_assoc])
  have hs2 := herr2.running hs1
  subst ht2
  rw [unitSymbols, List.append_assoc, List.flatMap_append, List.append_assoc] at hin2
  rw [unitSymbols, List.append_assoc] at hmem
  obtain ⟨s3, hname, hs3, ⟨htv3, ht3⟩, hin3, -⟩ := literalLoop_codes nameLoop_fits f.1 fuel s2 _ (by omega) hs2 htv2 hv
    (fun x hx => hmem x (List.mem_append_left _ hx)) hin2
  rw [← ht3] at hv hmem hin3
  obtain ⟨s4, hcontent, hs4, -, hin4, hlast4, hlastv4⟩ := literalLoop_codes (contentLoop_fits last) f.2 fuel s3 _ (by omega)
    hs3 (htv3.trans htv2) hv (fun x hx => hmem x (List.mem_append_right _ hx)) hin3
  obtain ⟨u, huend, hu, hinu, hresu⟩ := runCommand_uend hs4 hlastv4 hlast4 (hin4 ▸ hend)
  refine ⟨u, hu, hinu.trans hin4, ?_⟩
  rw [decodeArchive, runCommand_of_exec hrchk hs1, Option.bind_some, if_neg hgo, runCommand_of_exec hdhdr hs2,
    Option.bind_some, hname, Option.bind_some, hcontent, Option.bind_some, huend, Option.bind_some, if_congr hresu rfl rfl]

/-- Rounds enough for the decoding loop and its literal loops. -/
def archiveRounds : List File → Nat
  | [] => 1
  | f :: rest => f.1.length + f.2.length + 1 + archiveRounds rest

theorem archiveRounds_pos (files : List File) : 0 < archiveRounds files := by
  cases files <;> rw [archiveRounds] <;> omega

/-- The decoding loop on an archive returns its files. -/
theorem decodeArchive_archive {files : List File} {q : Bits} (h : ArchiveOf files q) {d : State} {fuel : Nat}
    (hd : d.errf = false) (hin : d.input = q) (hfuel : archiveRounds files ≤ fuel) :
    decodeArchive fuel d = some files := by
  induction h generalizing d fuel with
  | empty hpad =>
    obtain ⟨fuel, rfl⟩ := Nat.exists_eq_add_one.mpr hfuel
    exact decodeArchive_padding hd (by rw [hin]; omega) fuel
  | last hunit hpad =>
    rw [archiveRounds, archiveRounds] at hfuel
    obtain ⟨fuel, rfl⟩ := Nat.exists_eq_add_one.mpr (Nat.zero_lt_of_lt hfuel)
    obtain ⟨u, -, -, hdecode⟩ :=
      decodeArchive_unit (fuel := fuel) hd hunit hin (iff_of_true rfl (by omega)) (by omega)
    rw [hdecode, if_pos rfl]
  | @more f g rest q r hunit hrest ih =>
    have hlong := hrest.length_lt
    have hpos := archiveRounds_pos (g :: rest)
    rw [archiveRounds] at hfuel
    obtain ⟨fuel, rfl⟩ := Nat.exists_eq_add_one.mpr (show 0 < fuel by omega)
    obtain ⟨u, hu, hinu, hdecode⟩ :=
      decodeArchive_unit (fuel := fuel) hd hunit hin (iff_of_false Bool.false_ne_true (by omega)) (by omega)
    rw [hdecode, if_neg Bool.false_ne_true, ih hu hinu (by omega), Option.map_some]

end Sys2Proof.Machine
end

section
/-! The statement about the round trip (45_decoder.md R278). -/

namespace Sys2Proof.Machine

/-- Settles O58: the encoding program writes an archive of its files, and the decoding loop returns the files of an archive. -/
theorem decodingAnArchiveReturnsItsFiles : Obligations.DecodingAnArchiveReturnsItsFiles := by
  unfold Obligations.DecodingAnArchiveReturnsItsFiles
  intro s d files hs hwbuf hsink hfit
  obtain ⟨u, q, hrun, hempty, harchive, hout⟩ := archiveProgram_completes files s hs hfit
  refine ⟨u, hrun.run, hempty, fun hd hrbuf hsource => ⟨archiveRounds files, ?_⟩⟩
  have hin : d.input = q := by
    calc d.input = u.output := by rw [State.input, State.output, hrbuf, hsource, hempty, List.nil_append, List.append_nil]
      _ = q := by rw [hout, State.output, hwbuf, hsink]; rfl
  exact decodeArchive_archive harchive hd hin le_rfl

end Sys2Proof.Machine
end

section
/-! SUPPORT. The halted block (60_exceptions.md R304 to R306): which word is SRST's, what issuing a word does to a halted block, and
what a step can do to the recorded error. -/

namespace Sys2Proof.Machine

/-! ### The word of SRST -/

/-- Exactly one word is SRST's (30_encoding.md R117). -/
theorem decode_eq_srst_iff {w : Word} : decode w = .command .srst ↔ w = 0x01000000 := by
  constructor
  · intro h
    exact (acceptedWordIsTheEncoding w .srst h).1.symm
  · rintro rfl
    exact decodeOfEncodeIsTheCommand .srst rfl

theorem issue_srst (s : State) : issue 0x01000000 s = .next (blockReset s) := by
  rw [issue, decode_eq_srst_iff.mpr rfl]
  rfl

/-- A halted block ignores the command of every word but SRST's. -/
theorem exec_halted_of_decode {w : Word} {i : Instr} {s : State} (hd : decode w = .command i) (hw : w ≠ 0x01000000)
    (hs : s.errf = true) : exec i s = .next s := by
  refine exec_halted ?_ hs
  rintro rfl
  exact hw (decode_eq_srst_iff.mp hd)

/-- A halted block ignores a rejected word at the gate of every raise, and an accepted one as a command other than SRST. -/
theorem issue_halted {w : Word} {s : State} (hs : s.errf = true) (hw : w ≠ 0x01000000) : issue w s = .next s := by
  cases hd : decode w with
  | illegal => rw [issue_of_illegal hd]; exact command_halted hs _
  | badOperand i => rw [issue_of_badOperand hd]; exact command_halted hs _
  | command i =>
    rw [issue, hd]
    exact exec_halted_of_decode hd hw hs

/-! ### A step of a halted block -/

/-- The host's next event asserts `RESET` or issues SRST. -/
def AsksForReset (s : State) (es : List HostEvent) : Prop :=
  s.host = .drive true :: es ∨ s.host = .write 0 4 0x01000000 :: es

/-- Both resets take every element of the block from `blockReset`, and neither touches the source. -/
theorem step_of_asksForReset {s u : State} {es : List HostEvent} (h : step s = .next u) (ha : AsksForReset s es) :
    ResetValues u ∧ u.source = s.source := by
  have hv := blockReset_resetValues (s.setHost es)
  rcases ha with he | he <;> rw [step_of_host he] at h
  case inl =>
    cases h
    exact ⟨{ hv with }, rfl⟩
  case inr =>
    obtain ⟨-, -, -, -, hissue⟩ := access_next h
    cases (issue_srst (s.setHost es)).symm.trans hissue
    exact ⟨hv, rfl⟩

/-- An event other than the two resets keeps the error of a halted block. -/
theorem StepEffect.keepsErr_of_halted {e : HostEvent} {s u : State} (h : StepEffect e s u) (hs : s.errf = true)
    (hreset : e ≠ .drive true) (hsrst : e ≠ .write 0 4 0x01000000) : KeepsErr s u := by
  cases h with
  | @command w i _ he hd hexec =>
    have hw : w ≠ 0x01000000 := fun hw => hsrst (hw ▸ he)
    cases (exec_halted_of_decode hd hw hs).symm.trans hexec
    exact ⟨rfl, rfl⟩
  | rejected _ hrun => exact Bool.noConfusion (hs.symm.trans hrun)
  | resetOn he => exact absurd he hreset
  | ignored | answered | resetOff | newSource | newSink => exact ⟨rfl, rfl⟩

/-- A step of a halted block is one of the two resets, or keeps the error. -/
theorem step_halted_cases {s u : State} (h : step s = .next u) (hs : s.errf = true) :
    (∃ es, AsksForReset s es) ∨ KeepsErr s u := by
  rcases step_cases h with ⟨-, rfl⟩ | ⟨e, es, he, heffect⟩
  · exact .inr ⟨rfl, rfl⟩
  · by_cases hreset : e = .drive true
    · exact .inl ⟨es, .inl (hreset ▸ he)⟩
    · by_cases hsrst : e = .write 0 4 0x01000000
      · exact .inl ⟨es, .inr (hsrst ▸ he)⟩
      · exact .inr (heffect.keepsErr_of_halted (s := s.setHost es) hs hreset hsrst)

end Sys2Proof.Machine
end

section
/-! The statements about the halted block (60_exceptions.md). -/

namespace Sys2Proof.Machine

/-- Settles O9: a word other than SRST's is ignored at the gate of the halted block; reads of `ERR` and `STATUS` answer the held
error. -/
theorem haltedBlockIgnoresAllButReset : Obligations.HaltedBlockIgnoresAllButReset := by
  unfold Obligations.HaltedBlockIgnoresAllButReset
  intro s es hs
  refine ⟨fun w hissue hw => ?_, fun herr => ?_, fun hstatus => ?_⟩
  · rw [step_of_issues hissue]
    exact issue_halted (s := s.setHost es) hs hw
  · exact step_of_reads herr rfl (by decide)
  · exact ⟨_, step_of_reads hstatus rfl (by decide), readStatus_halted (s := s.setHost es) hs⟩

/-- Settles O11: a step of a halted block either is one of the two resets, which leave `ERRF` at its reset value 0, or keeps `ERR`
and `ERRF`. -/
theorem haltedStateIsLeftOnlyByReset : Obligations.HaltedStateIsLeftOnlyByReset := by
  unfold Obligations.HaltedStateIsLeftOnlyByReset
  intro s u h hs
  refine ⟨fun hrun => ?_, fun es ha => step_of_asksForReset h ha, fun hhalted => ?_⟩
  · rcases step_halted_cases h hs with hreset | ⟨-, herrf⟩
    · exact hreset
    · exact Bool.noConfusion ((herrf.trans hs).symm.trans hrun)
  · rcases step_halted_cases h hs with ⟨es, ha⟩ | ⟨herr, -⟩
    · exact Bool.noConfusion (hhalted.symm.trans (step_of_asksForReset h ha).1.errf)
    · exact herr

end Sys2Proof.Machine
end


section
/-! The statement about the `RESET` input and new streams (70_reset_and_hazards.md). -/

namespace Sys2Proof.Machine

section
variable {s : State} {es : List HostEvent}

/-- Asserting `RESET` resets the block and holds the level (R340). -/
theorem step_of_drive_true (h : s.host = .drive true :: es) :
    step s = .next { blockReset (s.setHost es) with resetIn := true } := step_of_host h

/-- Releasing `RESET` lowers the level and leaves the block alone (R340). -/
theorem step_of_drive_false (h : s.host = .drive false :: es) :
    step s = .next { s with host := es, resetIn := false } := step_of_host h

theorem step_of_attachSource {bs : List Byte} (h : s.host = .attachSource bs :: es) :
    step s = .next { s with host := es, source := bs } := step_of_host h

theorem step_of_attachSink (h : s.host = .attachSink :: es) :
    step s = .next { s with host := es, sink := [] } := step_of_host h

end

/-- Settles O59: the asserting step leaves the reset values, and the releasing step after it touches only the level; a new stream
is a step of its own. -/
theorem releasedResetShowsTheResetState : Obligations.ReleasedResetShowsTheResetState := by
  unfold Obligations.ReleasedResetShowsTheResetState
  refine fun s es => ⟨fun h => ?_, step_of_drive_false, fun _ => step_of_attachSource, step_of_attachSink⟩
  have hv := blockReset_resetValues (s.setHost (.drive false :: es))
  exact ⟨_, _, step_of_drive_true h, step_of_drive_false rfl, { hv with }, rfl, rfl, rfl, rfl⟩

end Sys2Proof.Machine
end
